-- ==== Sys2Proof/Word.lean ====
section
/-! DEFINITION. The machine words of the block (00_scope.md R5): bytes, 32-bit registers, 16-bit samples. -/

namespace Sys2Proof

/-- One byte of shared memory (R8). -/
abbrev Byte := BitVec 8

/-- A 32-bit register: an argument register, a history or a weight register (R21, R29). -/
abbrev Word := BitVec 32

/-- A 33-bit sequencer register: END, FBASE, CUM (R33). -/
abbrev Word33 := BitVec 33

/-- A 16-bit signed sample (R5 SAMPLE_WIDTH), or an int16 field of a record (R83). -/
abbrev Sample := BitVec 16

end Sys2Proof
end

