-- ==== Sys2Proof/Config.lean ====
section
/-! DEFINITION. The block's parameters (00_scope.md R5, 93_implementation_defined.md section 2) and the free values. -/

namespace Sys2Proof.Config

/-- OUT_BYTE_ORDER (R64): the order of an output sample's two bytes. -/
inductive ByteOrder where
  | little
  | big
  deriving DecidableEq, Repr

/-- The parameters of one block. They are held in State and no step changes them, so a statement over every state
is a statement over every value of each parameter (log 6). -/
structure Params where
  /-- MEM_SIZE, OPEN, 1 to 2^32 (D3). -/
  memSize : Nat
  /-- REG_BASE, OPEN (D1). -/
  regBase : Nat
  /-- MAGIC (D4). -/
  magic : Word
  /-- DEQUANT_TAB (D5): the entry of scale factor sf and code q stands at index {sf, q}; an entry fits in 16 bits (R100). -/
  dequantTab : Vector Sample 128
  /-- OUT_BYTE_ORDER (D6). -/
  outByteOrder : ByteOrder
  /-- TOTAL_SLACK (D9). -/
  totalSlack : Nat
  deriving DecidableEq, Repr

/-- The default MAGIC, ASCII "qoaf" (R81, D4). PRESUMED: general knowledge the spec takes in (log 7). -/
def defaultMagic : Word := 0x716F6166#32

/-- Rows 0 to 3 of R101's table. -/
def rows0to3 : List Int :=
  [ 1, -1, 3, -3, 5, -5, 7, -7,
    5, -5, 18, -18, 32, -32, 49, -49,
    16, -16, 53, -53, 95, -95, 147, -147,
    34, -34, 113, -113, 203, -203, 315, -315 ]

/-- Rows 4 to 7 of R101's table. -/
def rows4to7 : List Int :=
  [ 63, -63, 210, -210, 378, -378, 588, -588,
    104, -104, 345, -345, 621, -621, 966, -966,
    158, -158, 528, -528, 950, -950, 1477, -1477,
    228, -228, 760, -760, 1368, -1368, 2128, -2128 ]

/-- Rows 8 to 11 of R101's table. -/
def rows8to11 : List Int :=
  [ 316, -316, 1053, -1053, 1895, -1895, 2947, -2947,
    422, -422, 1405, -1405, 2529, -2529, 3934, -3934,
    548, -548, 1828, -1828, 3290, -3290, 5117, -5117,
    696, -696, 2320, -2320, 4176, -4176, 6496, -6496 ]

/-- Rows 12 to 15 of R101's table. -/
def rows12to15 : List Int :=
  [ 868, -868, 2893, -2893, 5207, -5207, 8099, -8099,
    1064, -1064, 3548, -3548, 6386, -6386, 9933, -9933,
    1286, -1286, 4288, -4288, 7718, -7718, 12005, -12005,
    1536, -1536, 5120, -5120, 9216, -9216, 14336, -14336 ]

/-- The 128 entries of R101, row after row, as 16-bit patterns. -/
def defaultEntries : List Sample :=
  (rows0to3 ++ rows4to7 ++ rows8to11 ++ rows12to15).map (BitVec.ofInt 16)

theorem defaultEntries_length : defaultEntries.length = 128 := by
  simp [defaultEntries, rows0to3, rows4to7, rows8to11, rows12to15]

/-- The default DEQUANT_TAB (R101, D5). PRESUMED: general knowledge the spec takes in (log 8). -/
def defaultTab : Vector Sample 128 := Vector.mk defaultEntries.toArray (by simp [defaultEntries_length])

/-- The defaults of R5. MEM_SIZE 2^32 and REG_BASE 0 are DESIGN CHOICES for the two OPEN parameters (log 6). -/
def Params.default : Params where
  memSize := 2 ^ 32
  regBase := 0
  magic := defaultMagic
  dequantTab := defaultTab
  outByteOrder := .little
  totalSlack := 5120

/-- The free bytes: what an unspecified byte holds (93 U1, U2) or reads as (U3). Nothing constrains it (log 13). -/
opaque freeByte : Nat → Byte

end Sys2Proof.Config
end

