-- ==== Sys2Proof/Syntax.lean ====
section
/-! DEFINITION. The records, the operations (one constructor per row of spec/opcode_table.json), what selects an
operation (30_encoding.md R95), and the description lines of R93. -/

namespace Sys2Proof

/-- The stream header's fields (R81). -/
structure StreamHeader where
  magic : Word
  total : Word
  deriving DecidableEq, Repr

/-- The frame header's fields (R82). -/
structure FrameHeader where
  channels : BitVec 8
  rate : BitVec 24
  samples : BitVec 16
  size : BitVec 16
  deriving DecidableEq, Repr

/-- Four int16 fields in index order (R30, R83). -/
structure Quad where
  i0 : Sample
  i1 : Sample
  i2 : Sample
  i3 : Sample
  deriving DecidableEq, Repr

/-- The predictor state record's fields (R83). -/
structure LmsRecord where
  history : Quad
  weight : Quad
  deriving DecidableEq, Repr

/-- The operations: one constructor per row of spec/opcode_table.json, in the table's order. -/
inductive Instr where
  /-- DEQUANT: the 7-bit index {sf, q} (R100). -/
  | dequant (sf : BitVec 4) (q : BitVec 3)
  /-- LMS_LOAD: a predictor state record (R110). -/
  | lmsLoad (rec : LmsRecord)
  /-- LMS_PREDICT: no bits of its own (R111). -/
  | lmsPredict
  /-- LMS_UPDATE: no bits of its own (R112). -/
  | lmsUpdate
  /-- SLICE_LOAD: a slice word (R130). -/
  | sliceLoad (word : BitVec 64)
  /-- SAMPLE_STEP: slot J of the loaded slice word (R133). -/
  | sampleStep
  /-- FRAME_HDR: a frame header (R150). -/
  | frameHdr (h : FrameHeader)
  /-- FRAME_CHECK: the fields of a frame header (R151). -/
  | frameCheck (h : FrameHeader)
  /-- FRAME_OUT: the emitted sample (R160). -/
  | frameOut
  /-- FRAME_END (R163). -/
  | frameEnd
  /-- STREAM_HDR: the stream header (R180). -/
  | streamHdr (h : StreamHeader)
  /-- STREAM_LOOP: the loop head (R182). -/
  | streamLoop
  /-- STREAM_FINISH: the loop exit (R186). -/
  | streamFinish
  /-- START: a write to CTRL with bit 0 = 1 (R210). -/
  | start (v : Word)
  /-- WR_CTRL_NOP: a write to CTRL with bit 0 = 0 (R210). -/
  | wrCtrlNop (v : Word)
  /-- RD_STATUS (R219). -/
  | rdStatus
  /-- RD_ARG.IN_OFFSET (R219). -/
  | rdArgInOffset
  /-- RD_ARG.IN_LENGTH (R219). -/
  | rdArgInLength
  /-- RD_ARG.OUT_OFFSET (R219). -/
  | rdArgOutOffset
  /-- RD_RESULT.RES_SAMPLES (R219). -/
  | rdResultSamples
  /-- RD_RESULT.RES_CHANNELS (R219). -/
  | rdResultChannels
  /-- RD_RESULT.RES_RATE (R219). -/
  | rdResultRate
  /-- RD_CTRL (R219). -/
  | rdCtrl
  /-- RD_RESERVED: a read at an offset of 0x20 or above (R219). -/
  | rdReserved (off : BitVec 8)
  /-- WR_ARG.IN_OFFSET (R220). -/
  | wrArgInOffset (v : Word)
  /-- WR_ARG.IN_LENGTH (R220). -/
  | wrArgInLength (v : Word)
  /-- WR_ARG.OUT_OFFSET (R220). -/
  | wrArgOutOffset (v : Word)
  /-- WR_IGNORED.STATUS (R221). -/
  | wrIgnoredStatus (v : Word)
  /-- WR_IGNORED.RES_SAMPLES (R221). -/
  | wrIgnoredSamples (v : Word)
  /-- WR_IGNORED.RES_CHANNELS (R221). -/
  | wrIgnoredChannels (v : Word)
  /-- WR_IGNORED.RES_RATE (R221). -/
  | wrIgnoredRate (v : Word)
  /-- WR_IGNORED.RESERVED: a write at an offset of 0x20 or above (R221). -/
  | wrIgnoredReserved (off : BitVec 8) (v : Word)
  deriving DecidableEq, Repr

/-- What selects an operation (R95): a record carries no tag, its position decides (R80). The first comment of each
constructor is R95's own wording. -/
inductive Selector where
  /-- the 7-bit index {sf, q} of a slot -/
  | dqIndex
  /-- a predictor state record -/
  | lmsRecord
  /-- every slot of every slice: the prediction -/
  | slotPredict
  /-- every slot of every slice: the update -/
  | slotUpdate
  /-- a slice word -/
  | sliceWord
  /-- slot j of a loaded slice -/
  | slot
  /-- a frame header -/
  | frameHeader
  /-- the fields of a frame header -/
  | frameFields
  /-- a reconstructed sample -/
  | emittedSample
  /-- the last slot of the last slice of a frame -/
  | frameLast
  /-- the stream header (input offset 0) -/
  | streamHeader
  /-- the loop head between frames -/
  | loopHead
  /-- loop exit -/
  | loopExit
  /-- a register access (R91, R92) -/
  | bus
  deriving DecidableEq, Repr

/-- One line of the description syntax (R93) or a pseudo-line (R94). -/
inductive Line where
  /-- STREAM T -/
  | stream (t : Nat)
  /-- FRAME C R N S -/
  | frame (c r n s : Nat)
  /-- FRAME C R N auto (R94) -/
  | frameAuto (c r n : Nat)
  /-- LMS h0 h1 h2 h3 w0 w1 w2 w3 -/
  | lms (h0 h1 h2 h3 w0 w1 w2 w3 : Int)
  /-- SLICE sf q0 ... q19 -/
  | slice (sf : Nat) (codes : List Nat)
  /-- SLICEFILL sf q (R94) -/
  | sliceFill (sf q : Nat)
  /-- BYTES b0 b1 ... -/
  | bytes (bs : List Byte)
  deriving DecidableEq, Repr

end Sys2Proof
end

