-- ==== Sys2Proof/WellFormed.lean ====
section
/-! DEFINITION. Which terms of Instr the encoding admits (30_encoding.md R91, R92, R96). A record's content is never
ill-formed: an illegal record (R88) decodes and its meaning raises the error kind. -/

namespace Sys2Proof

/-- An offset of the reserved rows: 0x20 or above and a multiple of 4 (R28, R96). -/
def reservedOffset (off : BitVec 8) : Bool := 0x20 ≤ off.toNat && off.toNat % 4 == 0

/-- The encoding admits the term. -/
def Instr.wellFormed : Instr → Bool
  | .start v => v.getLsbD 0
  | .wrCtrlNop v => !v.getLsbD 0
  | .rdReserved off => reservedOffset off
  | .wrIgnoredReserved off _ => reservedOffset off
  | .dequant _ _ | .lmsLoad _ | .lmsPredict | .lmsUpdate | .sliceLoad _ | .sampleStep | .frameHdr _ | .frameCheck _
  | .frameOut | .frameEnd | .streamHdr _ | .streamLoop | .streamFinish
  | .rdStatus | .rdArgInOffset | .rdArgInLength | .rdArgOutOffset
  | .rdResultSamples | .rdResultChannels | .rdResultRate | .rdCtrl
  | .wrArgInOffset _ | .wrArgInLength _ | .wrArgOutOffset _
  | .wrIgnoredStatus _ | .wrIgnoredSamples _ | .wrIgnoredChannels _ | .wrIgnoredRate _ => true

end Sys2Proof
end

