-- ==== Sys2Proof/Decode.lean ====
section
/-! DEFINITION. The decoder, total on any bytes, and the encoder after it, from 30_encoding.md R81 to R96; the mnemonics
of spec/opcode_table.json; the description syntax of R93 and R94. -/

namespace Sys2Proof

/-- Why bytes are no operation of a selector. -/
inductive DecodeError where
  /-- The record has another length than its format (R80, R96). -/
  | badLength
  /-- The 7-bit index stands in a byte whose bit 7 is not 0 (R96 DQ_INDEX_7; log 19). -/
  | badIndexBits
  /-- The 41-bit register access stands in six bytes whose bits 47:41 are not 0 (R96 BUS_41; log 19). -/
  | badBusBits
  /-- The register offset is not a multiple of 4 (R28, R96): outside the interface. -/
  | misalignedOffset
  deriving DecidableEq, Repr

/-- The unsigned big-endian value of bytes: R8 MemRead's sum. -/
def beNat : List Byte → Nat
  | [] => 0
  | b :: bs => 256 ^ bs.length * b.toNat + beNat bs

/-- The n bytes of a value, most significant first (R63). -/
def beBytes : Nat → Nat → List Byte
  | 0, _ => []
  | n + 1, v => BitVec.ofNat 8 (v / 256 ^ n) :: beBytes n v

/-- The fields of the stream header word H (R81). -/
def streamHeaderOf (h : BitVec 64) : StreamHeader where
  magic := h.extractLsb' 32 32
  total := h.extractLsb' 0 32

/-- The fields of the frame header word F (R82). -/
def frameHeaderOf (f : BitVec 64) : FrameHeader where
  channels := f.extractLsb' 56 8
  rate := f.extractLsb' 32 24
  samples := f.extractLsb' 16 16
  size := f.extractLsb' 0 16

/-- The fields of the predictor state record P (R83). -/
def lmsRecordOf (p : BitVec 128) : LmsRecord where
  history := ⟨p.extractLsb' 112 16, p.extractLsb' 96 16, p.extractLsb' 80 16, p.extractLsb' 64 16⟩
  weight := ⟨p.extractLsb' 48 16, p.extractLsb' 32 16, p.extractLsb' 16 16, p.extractLsb' 0 16⟩

/-- A register read at an aligned offset (R92). -/
def decodeRead (off : BitVec 8) : Instr :=
  if off = 0x00#8 then .rdCtrl
  else if off = 0x04#8 then .rdStatus
  else if off = 0x08#8 then .rdArgInOffset
  else if off = 0x0C#8 then .rdArgInLength
  else if off = 0x10#8 then .rdArgOutOffset
  else if off = 0x14#8 then .rdResultSamples
  else if off = 0x18#8 then .rdResultChannels
  else if off = 0x1C#8 then .rdResultRate
  else .rdReserved off

/-- A register write of v at an aligned offset (R91, R92). -/
def decodeWrite (off : BitVec 8) (v : Word) : Instr :=
  if off = 0x00#8 then (if v.getLsbD 0 then .start v else .wrCtrlNop v)
  else if off = 0x04#8 then .wrIgnoredStatus v
  else if off = 0x08#8 then .wrArgInOffset v
  else if off = 0x0C#8 then .wrArgInLength v
  else if off = 0x10#8 then .wrArgOutOffset v
  else if off = 0x14#8 then .wrIgnoredSamples v
  else if off = 0x18#8 then .wrIgnoredChannels v
  else if off = 0x1C#8 then .wrIgnoredRate v
  else .wrIgnoredReserved off v

/-- The BUS_41 value (R96): bit 40 the direction, bits 39:32 the offset, bits 31:0 the write data. -/
def decodeBus (w : BitVec 41) : Except DecodeError Instr :=
  let off := w.extractLsb' 32 8
  if off.toNat % 4 ≠ 0 then .error .misalignedOffset
  else if w.getLsbD 40 then .ok (decodeWrite off (w.extractLsb' 0 32))
  else .ok (decodeRead off)

/-- How many bytes a selector's record has (R96: the format's width in whole bytes). -/
def Selector.width : Selector → Nat
  | .dqIndex => 1
  | .lmsRecord => 16
  | .slotPredict | .slotUpdate | .sliceWord | .slot => 8
  | .frameHeader | .frameFields => 8
  | .emittedSample | .frameLast | .loopHead | .loopExit => 0
  | .streamHeader => 8
  | .bus => 6

/-- The operation of a selector whose record has the value v (R95). -/
def decodeValue (sel : Selector) (v : Nat) : Except DecodeError Instr :=
  match sel with
  | .dqIndex =>
    if v < 2 ^ 7 then
      let x := BitVec.ofNat 7 v
      .ok (.dequant (x.extractLsb' 3 4) (x.extractLsb' 0 3))
    else .error .badIndexBits
  | .lmsRecord => .ok (.lmsLoad (lmsRecordOf (BitVec.ofNat 128 v)))
  | .slotPredict => .ok .lmsPredict
  | .slotUpdate => .ok .lmsUpdate
  | .sliceWord => .ok (.sliceLoad (BitVec.ofNat 64 v))
  | .slot => .ok .sampleStep
  | .frameHeader => .ok (.frameHdr (frameHeaderOf (BitVec.ofNat 64 v)))
  | .frameFields => .ok (.frameCheck (frameHeaderOf (BitVec.ofNat 64 v)))
  | .emittedSample => .ok .frameOut
  | .frameLast => .ok .frameEnd
  | .streamHeader => .ok (.streamHdr (streamHeaderOf (BitVec.ofNat 64 v)))
  | .loopHead => .ok .streamLoop
  | .loopExit => .ok .streamFinish
  | .bus => if v < 2 ^ 41 then decodeBus (BitVec.ofNat 41 v) else .error .badBusBits

/-- The decoder: the operation a selector and its record's bytes name, or why there is none. Total on any bytes. -/
def decode (sel : Selector) (bs : List Byte) : Except DecodeError Instr :=
  if bs.length ≠ sel.width then .error .badLength else decodeValue sel (beNat bs)

/-- The frame size law of R82 and R153: `8 + 16·C + 8·C·ceil(N/20)`. -/
def frameSizeLaw (c n : Nat) : Nat := 8 + 16 * c + 8 * c * ((n + 19) / 20)

/-- The frame header word is legal on its own (R88). -/
def legalFrameWord (f : BitVec 64) : Bool :=
  let h := frameHeaderOf f
  let c := h.channels.toNat
  let n := h.samples.toNat
  1 ≤ c && c ≤ 8 && 1 ≤ n && n ≤ 5120 && h.size.toNat == frameSizeLaw c n

/-- Which selector a table word without a position is read at (log 2). A 64-bit word carries no tag (R80): one with
the default MAGIC is a stream header, a legal frame header is one, any other a slice word. A row without bits (format
NONE) is read as the first such row of the table. -/
def tableSelector (nbits w : Nat) : Option Selector :=
  if nbits = 0 then some .emittedSample
  else if nbits = 7 ∨ nbits = 8 then some .dqIndex
  else if nbits = 41 ∨ nbits = 48 then some .bus
  else if nbits = 64 then
    let x := BitVec.ofNat 64 w
    if x.extractLsb' 32 32 = Config.defaultMagic then some .streamHeader
    else if legalFrameWord x then some .frameHeader
    else some .sliceWord
  else if nbits = 128 then some .lmsRecord
  else none

/-- The instruction the decoder reads from a word of spec/opcode_table.json: the word laid out as bytes, most significant
first (R63), at the selector of `tableSelector`. -/
def decodeTableWord (nbits w : Nat) : Option Instr :=
  match tableSelector nbits w with
  | none => none
  | some sel =>
    match decode sel (beBytes sel.width w) with
    | .ok i => some i
    | .error _ => none

/-! The encoder, from the same tables. -/

/-- R81's word. -/
def streamHeaderWord (h : StreamHeader) : BitVec 64 := h.magic ++ h.total

/-- R82's word. -/
def frameHeaderWord (h : FrameHeader) : BitVec 64 := h.channels ++ h.rate ++ h.samples ++ h.size

/-- Four int16 fields, index 0 in the high bits (R83). -/
def quadWord (q : Quad) : BitVec 64 := q.i0 ++ q.i1 ++ q.i2 ++ q.i3

/-- R83's word. -/
def lmsRecordWord (r : LmsRecord) : BitVec 128 := quadWord r.history ++ quadWord r.weight

/-- R96's BUS_41 value. -/
def busWord (write : Bool) (off : BitVec 8) (v : Word) : BitVec 41 := BitVec.ofBool write ++ off ++ v

/-- The selector and the value of an operation's record; a row without bits has the value 0. -/
def encodeValue : Instr → Selector × Nat
  | .dequant sf q => (.dqIndex, (sf ++ q).toNat)
  | .lmsLoad r => (.lmsRecord, (lmsRecordWord r).toNat)
  | .lmsPredict => (.slotPredict, 0)
  | .lmsUpdate => (.slotUpdate, 0)
  | .sliceLoad word => (.sliceWord, word.toNat)
  | .sampleStep => (.slot, 0)
  | .frameHdr h => (.frameHeader, (frameHeaderWord h).toNat)
  | .frameCheck h => (.frameFields, (frameHeaderWord h).toNat)
  | .frameOut => (.emittedSample, 0)
  | .frameEnd => (.frameLast, 0)
  | .streamHdr h => (.streamHeader, (streamHeaderWord h).toNat)
  | .streamLoop => (.loopHead, 0)
  | .streamFinish => (.loopExit, 0)
  | .start v => (.bus, (busWord true 0x00#8 v).toNat)
  | .wrCtrlNop v => (.bus, (busWord true 0x00#8 v).toNat)
  | .rdStatus => (.bus, (busWord false 0x04#8 0#32).toNat)
  | .rdArgInOffset => (.bus, (busWord false 0x08#8 0#32).toNat)
  | .rdArgInLength => (.bus, (busWord false 0x0C#8 0#32).toNat)
  | .rdArgOutOffset => (.bus, (busWord false 0x10#8 0#32).toNat)
  | .rdResultSamples => (.bus, (busWord false 0x14#8 0#32).toNat)
  | .rdResultChannels => (.bus, (busWord false 0x18#8 0#32).toNat)
  | .rdResultRate => (.bus, (busWord false 0x1C#8 0#32).toNat)
  | .rdCtrl => (.bus, (busWord false 0x00#8 0#32).toNat)
  | .rdReserved off => (.bus, (busWord false off 0#32).toNat)
  | .wrArgInOffset v => (.bus, (busWord true 0x08#8 v).toNat)
  | .wrArgInLength v => (.bus, (busWord true 0x0C#8 v).toNat)
  | .wrArgOutOffset v => (.bus, (busWord true 0x10#8 v).toNat)
  | .wrIgnoredStatus v => (.bus, (busWord true 0x04#8 v).toNat)
  | .wrIgnoredSamples v => (.bus, (busWord true 0x14#8 v).toNat)
  | .wrIgnoredChannels v => (.bus, (busWord true 0x18#8 v).toNat)
  | .wrIgnoredRate v => (.bus, (busWord true 0x1C#8 v).toNat)
  | .wrIgnoredReserved off v => (.bus, (busWord true off v).toNat)

/-- The encoder: the selector and the bytes of an operation's record. -/
def encode (i : Instr) : Selector × List Byte :=
  ((encodeValue i).1, beBytes (encodeValue i).1.width (encodeValue i).2)

/-- The row of spec/opcode_table.json an operation stands for. -/
def Instr.mnemonic : Instr → String
  | .dequant _ _ => "DEQUANT"
  | .lmsLoad _ => "LMS_LOAD"
  | .lmsPredict => "LMS_PREDICT"
  | .lmsUpdate => "LMS_UPDATE"
  | .sliceLoad _ => "SLICE_LOAD"
  | .sampleStep => "SAMPLE_STEP"
  | .frameHdr _ => "FRAME_HDR"
  | .frameCheck _ => "FRAME_CHECK"
  | .frameOut => "FRAME_OUT"
  | .frameEnd => "FRAME_END"
  | .streamHdr _ => "STREAM_HDR"
  | .streamLoop => "STREAM_LOOP"
  | .streamFinish => "STREAM_FINISH"
  | .start _ => "START"
  | .wrCtrlNop _ => "WR_CTRL_NOP"
  | .rdStatus => "RD_STATUS"
  | .rdArgInOffset => "RD_ARG.IN_OFFSET"
  | .rdArgInLength => "RD_ARG.IN_LENGTH"
  | .rdArgOutOffset => "RD_ARG.OUT_OFFSET"
  | .rdResultSamples => "RD_RESULT.RES_SAMPLES"
  | .rdResultChannels => "RD_RESULT.RES_CHANNELS"
  | .rdResultRate => "RD_RESULT.RES_RATE"
  | .rdCtrl => "RD_CTRL"
  | .rdReserved _ => "RD_RESERVED"
  | .wrArgInOffset _ => "WR_ARG.IN_OFFSET"
  | .wrArgInLength _ => "WR_ARG.IN_LENGTH"
  | .wrArgOutOffset _ => "WR_ARG.OUT_OFFSET"
  | .wrIgnoredStatus _ => "WR_IGNORED.STATUS"
  | .wrIgnoredSamples _ => "WR_IGNORED.RES_SAMPLES"
  | .wrIgnoredChannels _ => "WR_IGNORED.RES_CHANNELS"
  | .wrIgnoredRate _ => "WR_IGNORED.RES_RATE"
  | .wrIgnoredReserved _ _ => "WR_IGNORED.RESERVED"

/-- One row of the table's BUS_41 format: a value selects the row when `value AND mask = match` (R96). -/
structure BusRow where
  mnemonic : String
  pattern : BitVec 41
  mask : BitVec 41
  deriving DecidableEq, Repr

/-- The BUS_41 rows of spec/opcode_table.json in the table's order. RD_RESERVED's match is written 0 here: the table's
0x02000000000 has a bit outside its own mask and so selects nothing, and R96's words say the row takes every read not
matched earlier (log 25). -/
def busRows : List BusRow :=
  [ ⟨"START", 0x10000000001#41, 0x1FF00000001#41⟩,
    ⟨"WR_CTRL_NOP", 0x10000000000#41, 0x1FF00000001#41⟩,
    ⟨"RD_STATUS", 0x00400000000#41, 0x1FF00000000#41⟩,
    ⟨"RD_ARG.IN_OFFSET", 0x00800000000#41, 0x1FF00000000#41⟩,
    ⟨"RD_ARG.IN_LENGTH", 0x00C00000000#41, 0x1FF00000000#41⟩,
    ⟨"RD_ARG.OUT_OFFSET", 0x01000000000#41, 0x1FF00000000#41⟩,
    ⟨"RD_RESULT.RES_SAMPLES", 0x01400000000#41, 0x1FF00000000#41⟩,
    ⟨"RD_RESULT.RES_CHANNELS", 0x01800000000#41, 0x1FF00000000#41⟩,
    ⟨"RD_RESULT.RES_RATE", 0x01C00000000#41, 0x1FF00000000#41⟩,
    ⟨"RD_CTRL", 0x00000000000#41, 0x1FF00000000#41⟩,
    ⟨"RD_RESERVED", 0x00000000000#41, 0x10000000000#41⟩,
    ⟨"WR_ARG.IN_OFFSET", 0x10800000000#41, 0x1FF00000000#41⟩,
    ⟨"WR_ARG.IN_LENGTH", 0x10C00000000#41, 0x1FF00000000#41⟩,
    ⟨"WR_ARG.OUT_OFFSET", 0x11000000000#41, 0x1FF00000000#41⟩,
    ⟨"WR_IGNORED.STATUS", 0x10400000000#41, 0x1FF00000000#41⟩,
    ⟨"WR_IGNORED.RES_SAMPLES", 0x11400000000#41, 0x1FF00000000#41⟩,
    ⟨"WR_IGNORED.RES_CHANNELS", 0x11800000000#41, 0x1FF00000000#41⟩,
    ⟨"WR_IGNORED.RES_RATE", 0x11C00000000#41, 0x1FF00000000#41⟩,
    ⟨"WR_IGNORED.RESERVED", 0x10000000000#41, 0x10000000000#41⟩ ]

/-- The first row a BUS_41 value matches (R96: table order, the first match wins). -/
def firstBusRow (w : BitVec 41) : Option String :=
  (busRows.find? fun r => w &&& r.mask == r.pattern).map (·.mnemonic)

/-! The description syntax (R93, R94). -/

/-- The slice word of a SLICE line: twenty codes below the scale factor, MSB-first (R93). DESIGN CHOICE (log 29): for another
number of codes, which R93 leaves open, the low 64 bits of the same chain. -/
def sliceWordOf (sf : Nat) (codes : List Nat) : BitVec 64 :=
  BitVec.ofNat 64 (codes.foldl (fun acc q => acc * 8 + q % 8) (sf % 16))

/-- The bytes a line emits (R93, R94). DESIGN CHOICE (log 29): a number of STREAM or FRAME, or the S of FRAME auto, that does
not fit its bytes emits its low bytes; R93 states a truncation for LMS and SLICE only. -/
def lineBytes (magic : Word) : Line → List Byte
  | .stream t => beBytes 4 magic.toNat ++ beBytes 4 t
  | .frame c r n s => beBytes 1 c ++ beBytes 3 r ++ beBytes 2 n ++ beBytes 2 s
  | .frameAuto c r n => beBytes 1 c ++ beBytes 3 r ++ beBytes 2 n ++ beBytes 2 (frameSizeLaw c n)
  | .lms h0 h1 h2 h3 w0 w1 w2 w3 =>
    [h0, h1, h2, h3, w0, w1, w2, w3].flatMap fun x => beBytes 2 (BitVec.ofInt 16 x).toNat
  | .slice sf codes => beBytes 8 (sliceWordOf sf codes).toNat
  | .sliceFill sf q => beBytes 8 (sliceWordOf sf (List.replicate 20 q)).toNat
  | .bytes bs => bs

/-- The bytes of a description, line after line. -/
def assemble (magic : Word) (ls : List Line) : List Byte := ls.flatMap (lineBytes magic)

end Sys2Proof
end

