-- ==== Sys2Proof/Machine/State.lean ====
section
/-! DEFINITION. The state of one instance, its host and the shared memory, as plain data (10_state.md, 20_memory.md);
the reasons a step can stop; the state after reset (R38, R270). -/

namespace Sys2Proof.Machine

/-- Shared memory (R60): the bytes that are not what an unlisted address reads as, addresses strictly rising. -/
abbrev Memory := List Host.Cell

/-- The argument registers (R24 to R26). -/
structure ArgRegs where
  inOffset : Word
  inLength : Word
  outOffset : Word
  deriving DecidableEq, Repr

/-- STATUS (R23). -/
structure Status where
  busy : Bool
  done : Bool
  error : Bool
  errKind : BitVec 4
  deriving DecidableEq, Repr

/-- The result registers (R27). -/
structure Results where
  samples : Word
  channels : BitVec 4
  rate : BitVec 24
  deriving DecidableEq, Repr

/-- Four 32-bit registers in index order (R29, R30). -/
structure Taps where
  t0 : Word
  t1 : Word
  t2 : Word
  t3 : Word
  deriving DecidableEq, Repr

/-- One channel of the LMS register file (R29): the history `LMS_H[c]` (t3 the newest, R30) and the weights `LMS_W[c]`. -/
structure Lms where
  h : Taps
  w : Taps
  deriving DecidableEq, Repr

/-- SEQ, the sequencer state (R33). -/
inductive Seq where
  | idle
  | streamHdr
  | frameHdr
  | lmsLoad
  | sliceLoad
  | sample
  | frameEnd
  | finish
  deriving DecidableEq, Repr

/-- The other sequencer registers (R33); END is `endp`. -/
structure SeqRegs where
  endp : Word33
  fbase : Word33
  total : Word
  cum : Word33
  first : Bool
  sCh : BitVec 4
  sRate : BitVec 24
  fCh : BitVec 4
  fRate : BitVec 24
  fN : BitVec 16
  fSize : BitVec 16
  fSlices : BitVec 9
  slIdx : BitVec 9
  chIdx : BitVec 4
  j : BitVec 5
  sliceWord : BitVec 64
  sf : BitVec 4
  deriving DecidableEq, Repr

/-- The values one operation hands to the next (R133's q, r, p, s and the emitted n, c, s): the model's own fields (log 11). -/
structure Datapath where
  /-- the residual code -/
  q : BitVec 3
  /-- the dequantized residual -/
  r : Sample
  /-- the prediction -/
  p : Word
  /-- the reconstructed sample -/
  s : Sample
  /-- the emitted sample's index in its frame -/
  n : BitVec 16
  /-- the emitted sample's channel -/
  c : BitVec 4
  deriving DecidableEq, Repr

/-- A host access to the register window (R92): a byte address, a width in bits, a direction and the write data. -/
structure BusAccess where
  addr : Nat
  bits : Nat
  write : Bool
  data : Word
  deriving DecidableEq, Repr

/-- What happens next outside the block, or that the engine moves next (R20, R222, 93 U10; log 3). -/
inductive Turn where
  /-- the engine takes one sequencer step -/
  | engine
  /-- the host accesses a register -/
  | bus (a : BusAccess)
  /-- the host writes a byte of MEM -/
  | hostWrite (addr : Nat) (v : Byte)
  /-- the host reads a byte of MEM -/
  | hostRead (addr : Nat)
  /-- hardware reset (R270, R271) -/
  | hardReset
  deriving DecidableEq, Repr

/-- One operation presented alone: its selector and its record (log 4). -/
structure Probe where
  sel : Selector
  record : List Byte
  deriving DecidableEq, Repr

/-- The whole state: the registers of the block, MEM, and the model's own fields (INVENTORY.md, State). -/
structure State where
  /-- the block's parameters (R5); no step changes them -/
  params : Config.Params
  /-- shared memory (R60) -/
  mem : Memory
  /-- IN_OFFSET, IN_LENGTH, OUT_OFFSET -/
  args : ArgRegs
  /-- STATUS -/
  status : Status
  /-- RES_SAMPLES, RES_CHANNELS, RES_RATE -/
  results : Results
  /-- the LMS register file (R29) -/
  lms : Vector Lms 8
  /-- SEQ -/
  seq : Seq
  /-- the other sequencer registers (R33) -/
  regs : SeqRegs
  /-- the values between operations (log 11) -/
  dp : Datapath
  /-- the value the last register read returned (R219; log 11) -/
  busData : Word
  /-- the value the host's last byte read of MEM returned (log 11) -/
  hostByte : Byte
  /-- the host's coming moves and the engine's turns; when it is empty the engine moves (log 3) -/
  schedule : List Turn
  /-- an operation presented alone (log 4) -/
  probe : Option Probe
  /-- how many free values have been used (log 13) -/
  freeCtr : Nat
  deriving DecidableEq, Repr

/-- The error kinds (R240). A failure is no stop of the model: it completes the decode (R243). -/
inductive ErrKind where
  | magicMismatch
  | truncatedHeader
  | invalidChannelCount
  | invalidFrameSize
  | frameSequenceMismatch
  | totalSampleMismatch
  | bufferTooSmall
  deriving DecidableEq, Repr

/-- Why the machine stops. The spec says none of these happens (R66, R39): they stand for states no run reaches. -/
inductive Fault where
  /-- An access to a byte at or beyond MEM_SIZE (R60). Raised by the record fetch, FRAME_OUT and the host's byte
  accesses. Safe: the model stops where no byte exists (log 20). -/
  | outsideMem (addr : Nat)
  /-- A channel index of 8 or above, for which there is no LMS register (R29). Raised by LMS_LOAD, LMS_PREDICT,
  LMS_UPDATE and SAMPLE_STEP. Safe (log 20). -/
  | noSuchChannel (c : Nat)
  /-- A slot index of 20 or above, for which the slice word has no code (R84). Raised by SAMPLE_STEP. Safe (log 20). -/
  | noSuchSlot (j : Nat)
  deriving DecidableEq, Repr

/-- What the model refuses because the spec puts it outside the contract or the interface. -/
inductive Refusal where
  /-- An operation with no meaning yet; no arm of exec raises it. Safe. -/
  | notModelled (mnemonic : String)
  /-- Bytes that are no operation of their selector, among them a register offset that is no multiple of 4
  (R28, R256). Raised by the step. Safe. -/
  | badEncoding (e : DecodeError)
  /-- A register access that is not 32 bits wide (R28, R256). Raised by the step. Safe. -/
  | badWidth (bits : Nat)
  /-- A bus access outside the block's register window (R92; log 18). Raised by the step. Safe. -/
  | outsideWindow (addr : Nat)
  /-- An output byte inside the input region (R79, D22). Raised by FRAME_OUT. Safe (log 16). -/
  | outputOverlapsInput (addr : Nat)
  /-- A host write to the input region while BUSY = 1 (R280, D23). Raised by the step. Safe (log 17). -/
  | inputChangedWhileBusy (addr : Nat)
  deriving DecidableEq, Repr

/-- The argument registers after reset (R38). -/
def ArgRegs.reset : ArgRegs := ⟨0#32, 0#32, 0#32⟩

/-- STATUS after reset (R38). -/
def Status.reset : Status := ⟨false, false, false, 0#4⟩

/-- The result registers after reset (R38). -/
def Results.reset : Results := ⟨0#32, 0#4, 0#24⟩

/-- One channel's LMS registers after reset: unspecified (R38), 0 here (DESIGN CHOICE, log 10). -/
def Lms.reset : Lms := ⟨⟨0#32, 0#32, 0#32, 0#32⟩, ⟨0#32, 0#32, 0#32, 0#32⟩⟩

/-- The sequencer registers other than SEQ after reset: unspecified (R38), 0 here (DESIGN CHOICE, log 10). -/
def SeqRegs.reset : SeqRegs :=
  ⟨0#33, 0#33, 0#32, 0#33, false, 0#4, 0#24, 0#4, 0#24, 0#16, 0#16, 0#9, 0#9, 0#4, 0#5, 0#64, 0#4⟩

/-- The values between operations after reset: the model's own, 0 (DESIGN CHOICE, log 11). -/
def Datapath.reset : Datapath := ⟨0#3, 0#16, 0#32, 0#16, 0#16, 0#4⟩

/-- The machine right after reset (R38, R270): every register the spec gives a value at that value, SEQ = IDLE, MEM with
nothing listed, the parameters at their defaults. -/
def State.reset : State where
  params := Config.Params.default
  mem := []
  args := ArgRegs.reset
  status := Status.reset
  results := Results.reset
  lms := Vector.replicate 8 Lms.reset
  seq := .idle
  regs := SeqRegs.reset
  dp := Datapath.reset
  busData := 0#32
  hostByte := 0#8
  schedule := []
  probe := none
  freeCtr := 0

end Sys2Proof.Machine
end

