-- ==== Sys2Proof/Machine/Operands.lean ====
section
/-! DEFINITION. Operands and arithmetic: field extraction, sign extension, the dequantization table, the 32-bit wrapping
predictor, the clamp, record addresses (30_encoding.md R85, R87; 40 R100; 41 R110 to R112; 42 R130 to R133). -/

namespace Sys2Proof.Machine

open Sys2Proof

/-- `sext_16` into a 32-bit register (R7, R87, R110). -/
def sext16 (v : Sample) : Word := v.signExtend 32

/-- `sext_16` of four fields. -/
def sextQuad (q : Quad) : Taps := ⟨sext16 q.i0, sext16 q.i1, sext16 q.i2, sext16 q.i3⟩

/-- The predictor state a record loads (R110). -/
def loadRecord (r : LmsRecord) : Lms := ⟨sextQuad r.history, sextQuad r.weight⟩

/-- The scale factor of a slice word: bits 63:60 (R84, R130). -/
def scaleFactor (w : BitVec 64) : BitVec 4 := w.extractLsb' 60 4

/-- The residual code of slot j: bits (59 - 3j):(57 - 3j), j < 20 (R84, R131). -/
def residualCode (w : BitVec 64) (j : Nat) : BitVec 3 := w.extractLsb' (57 - 3 * j) 3

/-- `DEQUANT_TAB[sf][q]` (R100): the entry at the 7-bit index {sf, q}. -/
def dequantize (tab : Vector Sample 128) (sf : BitVec 4) (q : BitVec 3) : Sample :=
  tab[sf.toNat * 8 + q.toNat]'(by have := sf.isLt; have := q.isLt; omega)

/-- The dot product of weight and history in 32-bit wrapping arithmetic (R111's acc). -/
def dotProduct (l : Lms) : Word :=
  l.w.t0 * l.h.t0 + l.w.t1 * l.h.t1 + l.w.t2 * l.h.t2 + l.w.t3 * l.h.t3

/-- LMS_PREDICT's value: `asr(acc, 13)` (R111). -/
def predict (l : Lms) : Word := (dotProduct l).sshiftRight 13

/-- LMS_UPDATE's step: `delta = asr(r, 4)` (R112), as a 32-bit value. -/
def deltaOf (r : Sample) : Word := (sext16 r).sshiftRight 4

/-- One tap of LMS_UPDATE (R112): the weight moves by delta, down where the history value is negative. -/
def adaptTap (h w delta : Word) : Word := if h.toInt < 0 then w - delta else w + delta

/-- LMS_UPDATE's new registers (R112): weights from the history before the shift, then the shift. -/
def update (l : Lms) (s r : Sample) : Lms :=
  let d := deltaOf r
  { w := ⟨adaptTap l.h.t0 l.w.t0 d, adaptTap l.h.t1 l.w.t1 d, adaptTap l.h.t2 l.w.t2 d, adaptTap l.h.t3 l.w.t3 d⟩
    h := ⟨l.h.t1, l.h.t2, l.h.t3, sext16 s⟩ }

/-- `clamp(v, lo, hi)` (R7). -/
def clamp (v lo hi : Int) : Int := if v < lo then lo else if hi < v then hi else v

/-- `clamp16(v)` as a sample (R132). -/
def clamp16 (v : Int) : Sample := BitVec.ofInt 16 (clamp v (-32768) 32767)

/-- The reconstructed sample `clamp16(p + r)` on the mathematical sum (R132, R133). -/
def reconstruct (p : Word) (r : Sample) : Sample := clamp16 (p.toInt + r.toInt)

/-- The slice count `ceil(N / 20)` (R158). -/
def sliceCount (n : Nat) : Nat := (n + 19) / 20

/-- The offset of channel c's predictor state record in the frame at b (R85). -/
def lmsRecordAddr (b c : Nat) : Nat := b + 8 + 16 * c

/-- The offset of the slice word of slice s, channel c in the frame of C channels at b (R85, R130). -/
def sliceWordAddr (b chans s c : Nat) : Nat := b + 8 + 16 * chans + 8 * (s * chans + c)

/-- The offset of output sample n of a frame, channel c (R160). -/
def sampleAddr (outOffset cum chans n c : Nat) : Nat := outOffset + 2 * ((cum + n) * chans + c)

end Sys2Proof.Machine
end

