-- ==== Sys2Proof/Machine/Flags.lean ====
section
/-! DEFINITION. STATUS: its flags, the error codes, and the three updates that write it (10_state.md R23, R35;
60_exceptions.md R240). -/

namespace Sys2Proof.Machine

open Sys2Proof

/-- The ERR_KIND code of an error kind (R240). -/
def ErrKind.code : ErrKind → BitVec 4
  | .magicMismatch => 1#4
  | .truncatedHeader => 2#4
  | .invalidChannelCount => 3#4
  | .invalidFrameSize => 4#4
  | .frameSequenceMismatch => 5#4
  | .totalSampleMismatch => 6#4
  | .bufferTooSmall => 7#4

/-- STATUS as the 32-bit register the host reads: BUSY 0, DONE 1, ERROR 2, bit 3 zero, ERR_KIND 7:4, 31:8 zero (R23). -/
def Status.word (t : Status) : Word :=
  (0#24 ++ t.errKind ++ 0#1 ++ BitVec.ofBool t.error ++ BitVec.ofBool t.done ++ BitVec.ofBool t.busy : BitVec 32)

/-- STATUS after START: BUSY set, DONE, ERROR and ERR_KIND cleared (R210). -/
def statusStarted : Status := ⟨true, false, false, 0#4⟩

/-- STATUS after a successful completion (R188). -/
def statusSucceeded : Status := ⟨false, true, false, 0#4⟩

/-- STATUS after a failure of the given kind (R188, R243). -/
def statusFailed (k : ErrKind) : Status := ⟨false, true, true, k.code⟩

end Sys2Proof.Machine
end

