-- ==== Sys2Proof/Machine/Ops.lean ====
section
/-! DEFINITION. The shared operations: field updates, memory, the LMS register file, the outcome of a step followed by
another, a decode's completion and `raise Fault(kind)`, START, register reads and writes. -/

namespace Sys2Proof.Machine

open Sys2Proof

/-! Field updates. -/

/-- The state with another mem. -/
def State.setMem (s : State) (x : Memory) : State := { s with mem := x }

/-- The state with another args. -/
def State.setArgs (s : State) (x : ArgRegs) : State := { s with args := x }

/-- The state with another status. -/
def State.setStatus (s : State) (x : Status) : State := { s with status := x }

/-- The state with another results. -/
def State.setResults (s : State) (x : Results) : State := { s with results := x }

/-- The state with another lms. -/
def State.setLms (s : State) (x : Vector Lms 8) : State := { s with lms := x }

/-- The state with another seq. -/
def State.setSeq (s : State) (x : Seq) : State := { s with seq := x }

/-- The state with another regs. -/
def State.setRegs (s : State) (x : SeqRegs) : State := { s with regs := x }

/-- The state with another dp. -/
def State.setDp (s : State) (x : Datapath) : State := { s with dp := x }

/-- The state with another busData. -/
def State.setBusData (s : State) (x : Word) : State := { s with busData := x }

/-- The state with another hostByte. -/
def State.setHostByte (s : State) (x : Byte) : State := { s with hostByte := x }

/-- The state with another schedule. -/
def State.setSchedule (s : State) (x : List Turn) : State := { s with schedule := x }

/-- The state with another probe. -/
def State.setProbe (s : State) (x : Option Probe) : State := { s with probe := x }

/-- The state with another freeCtr. -/
def State.setFreeCtr (s : State) (x : Nat) : State := { s with freeCtr := x }

/-- Go on with f after a next state; a stop stays a stop. -/
def andThen (o : Host.Outcome State Fault Refusal) (f : State → Host.Outcome State Fault Refusal) :
    Host.Outcome State Fault Refusal :=
  match o with
  | .next s => f s
  | .fault r => .fault r
  | .refused r => .refused r

/-! Shared memory (R8, R60, R63, R64). -/

/-- What an unlisted address reads as (DESIGN CHOICE, log 12). -/
def unlistedByte : Byte := 0#8

/-- `MEM[a]` (R8). -/
def memByte : Memory → Nat → Byte
  | [], _ => unlistedByte
  | (b, v) :: m, a => if b = a then v else memByte m a

/-- The list with a cell put in at its place. -/
def memInsert : Memory → Nat → Byte → Memory
  | [], a, v => [(a, v)]
  | (b, w) :: m, a, v => if b < a then (b, w) :: memInsert m a v else (a, v) :: (b, w) :: m

/-- `MEM[a] <- v`, keeping the canonical form. -/
def memSet (m : Memory) (a : Nat) (v : Byte) : Memory :=
  let rest := m.filter fun c => c.1 != a
  if v = unlistedByte then rest else memInsert rest a v

/-- The canonical form: addresses strictly rising, no cell equal to what an unlisted address reads as. -/
def Memory.wf : Memory → Bool
  | [] => true
  | (a, v) :: m => v != unlistedByte && m.all (fun c => a < c.1) && Memory.wf m

/-- The n bytes from a, the byte at the lowest address first (R8 MemRead). -/
def memBytes (m : Memory) (a : Nat) : Nat → List Byte
  | 0 => []
  | n + 1 => memByte m a :: memBytes m (a + 1) n

/-- Bytes stored from a upwards. -/
def memStore (m : Memory) (a : Nat) : List Byte → Memory
  | [] => m
  | b :: bs => memStore (memSet m a b) (a + 1) bs

/-- A sample's two bytes, the byte at the lower address first (R64). -/
def sampleBytes (order : Config.ByteOrder) (v : Sample) : List Byte :=
  match order with
  | .little => [v.extractLsb' 0 8, v.extractLsb' 8 8]
  | .big => [v.extractLsb' 8 8, v.extractLsb' 0 8]

/-- `MemWrite(a, 2, v)` (R8, R64). -/
def memWrite16 (order : Config.ByteOrder) (m : Memory) (a : Nat) (v : Sample) : Memory :=
  memStore m a (sampleBytes order v)

/-- n bytes from a set to free values, the first free value used being number k (93 U1, U2). -/
def memFree (m : Memory) (a : Nat) (k : Nat) : Nat → Memory
  | 0 => m
  | n + 1 => memFree (memSet m a (Config.freeByte k)) (a + 1) (k + 1) n

/-- The address is in the input region (R62). -/
def inInputRegion (s : State) (a : Nat) : Bool :=
  s.args.inOffset.toNat ≤ a && a < s.args.inOffset.toNat + s.args.inLength.toNat

/-! The LMS register file (R29). -/

/-- The registers of channel c; none for a channel the file does not have. -/
def channel (s : State) (c : Nat) : Option Lms := s.lms[c]?

/-- The state with channel c's registers written. -/
def setChannel (s : State) (c : Nat) (l : Lms) : State := s.setLms (s.lms.setIfInBounds c l)

/-! Completion (R188), failure (R240 to R244) and START (R210). -/

/-- `complete(success, samples, ch, rate)` (R188). -/
def completeSuccess (samples : Word) (ch : BitVec 4) (rate : BitVec 24) (s : State) : State :=
  ((s.setResults ⟨samples, ch, rate⟩).setStatus statusSucceeded).setSeq .idle

/-- n bytes of MEM from OUT_OFFSET become unspecified: each holds a free value (93 U1, U2; log 13, 14). Bytes that do not
exist stay out. -/
def freeOutput (n : Nat) (s : State) : State :=
  let m := min n (s.params.memSize - s.args.outOffset.toNat)
  (s.setMem (memFree s.mem s.args.outOffset.toNat s.freeCtr m)).setFreeCtr (s.freeCtr + m)

/-- The length of the failure window `[OUT_OFFSET, OUT_OFFSET + 2·S_CH·min(CUM, TOTAL))`, empty if no frame was
accepted (R244). -/
def failureWindow (s : State) : Nat :=
  if s.regs.first then 2 * s.regs.sCh.toNat * min s.regs.cum.toNat s.regs.total.toNat else 0

/-- `raise Fault(kind)` (R241): the decode completes with the failure (R188, R243), the block idle, the results the
sentinel, and the window's bytes unspecified (R244). -/
def raiseFault (k : ErrKind) (window : Nat) (s : State) : State :=
  (((freeOutput window s).setResults Results.reset).setStatus (statusFailed k)).setSeq .idle

/-- START's effect on an idle block (R210); it is also the way back from a failure (R245). -/
def startDecode (s : State) : State :=
  ((s.setStatus statusStarted).setResults Results.reset).setSeq .streamHdr

/-- A write of v to CTRL (R22, R210). -/
def writeCtrl (v : Word) (s : State) : State :=
  if v.getLsbD 0 && !s.status.busy then startDecode s else s

/-! Register reads and writes (R219, R220). -/

/-- A register read returns v; nothing else changes (R219). -/
def respond (v : Word) (s : State) : State := s.setBusData v

/-- WR_ARG: the write takes effect only while BUSY = 0 (R220). -/
def writeArgs (args : ArgRegs) (s : State) : State := if s.status.busy then s else s.setArgs args

end Sys2Proof.Machine
end

