-- ==== Sys2Proof/Machine/Control.lean ====
section
/-! DEFINITION. Host command and register access: START, register reads and writes (45_control.md R210, R219 to R221). -/

namespace Sys2Proof.Machine

open Sys2Proof

/-- START (R210): a write to CTRL with bit 0 = 1; ignored while BUSY. -/
def execStart (v : Word) (s : State) : Host.Outcome State Fault Refusal := .next (writeCtrl v s)

/-- WR_CTRL_NOP (R210): a write to CTRL with bit 0 = 0 has no effect. -/
def execWrCtrlNop (v : Word) (s : State) : Host.Outcome State Fault Refusal := .next (writeCtrl v s)

/-- RD_STATUS (R219, R23). -/
def execRdStatus (s : State) : Host.Outcome State Fault Refusal := .next (respond s.status.word s)

/-- RD_ARG.IN_OFFSET (R219). -/
def execRdArgInOffset (s : State) : Host.Outcome State Fault Refusal := .next (respond s.args.inOffset s)

/-- RD_ARG.IN_LENGTH (R219). -/
def execRdArgInLength (s : State) : Host.Outcome State Fault Refusal := .next (respond s.args.inLength s)

/-- RD_ARG.OUT_OFFSET (R219). -/
def execRdArgOutOffset (s : State) : Host.Outcome State Fault Refusal := .next (respond s.args.outOffset s)

/-- RD_RESULT.RES_SAMPLES (R219). -/
def execRdResultSamples (s : State) : Host.Outcome State Fault Refusal := .next (respond s.results.samples s)

/-- RD_RESULT.RES_CHANNELS (R219); bits 31:4 read 0 (R27). -/
def execRdResultChannels (s : State) : Host.Outcome State Fault Refusal :=
  .next (respond (s.results.channels.setWidth 32) s)

/-- RD_RESULT.RES_RATE (R219); bits 31:24 read 0 (R27). -/
def execRdResultRate (s : State) : Host.Outcome State Fault Refusal :=
  .next (respond (s.results.rate.setWidth 32) s)

/-- RD_CTRL reads 0 (R22, R219). -/
def execRdCtrl (s : State) : Host.Outcome State Fault Refusal := .next (respond 0#32 s)

/-- RD_RESERVED reads 0 (R28, R219). -/
def execRdReserved (_off : BitVec 8) (s : State) : Host.Outcome State Fault Refusal := .next (respond 0#32 s)

/-- WR_ARG.IN_OFFSET (R220). -/
def execWrArgInOffset (v : Word) (s : State) : Host.Outcome State Fault Refusal :=
  .next (writeArgs { s.args with inOffset := v } s)

/-- WR_ARG.IN_LENGTH (R220). -/
def execWrArgInLength (v : Word) (s : State) : Host.Outcome State Fault Refusal :=
  .next (writeArgs { s.args with inLength := v } s)

/-- WR_ARG.OUT_OFFSET (R220). -/
def execWrArgOutOffset (v : Word) (s : State) : Host.Outcome State Fault Refusal :=
  .next (writeArgs { s.args with outOffset := v } s)

/-- WR_IGNORED.STATUS (R221). -/
def execWrIgnoredStatus (_v : Word) (s : State) : Host.Outcome State Fault Refusal := .next s

/-- WR_IGNORED.RES_SAMPLES (R221). -/
def execWrIgnoredSamples (_v : Word) (s : State) : Host.Outcome State Fault Refusal := .next s

/-- WR_IGNORED.RES_CHANNELS (R221). -/
def execWrIgnoredChannels (_v : Word) (s : State) : Host.Outcome State Fault Refusal := .next s

/-- WR_IGNORED.RES_RATE (R221). -/
def execWrIgnoredRate (_v : Word) (s : State) : Host.Outcome State Fault Refusal := .next s

/-- WR_IGNORED.RESERVED (R221). -/
def execWrIgnoredReserved (_off : BitVec 8) (_v : Word) (s : State) : Host.Outcome State Fault Refusal := .next s

end Sys2Proof.Machine
end

