-- ==== Sys2Proof/Machine/Dequant.lean ====
section
/-! DEFINITION. dequant_lut: DEQUANT (40_dequant.md). -/

namespace Sys2Proof.Machine

open Sys2Proof

/-- DEQUANT (R100): `r <- DEQUANT_TAB[sf][q]`. No register is written; the result is handed on in `dp.r` (log 11). -/
def execDequant (sf : BitVec 4) (q : BitVec 3) (s : State) : Host.Outcome State Fault Refusal :=
  .next (s.setDp { s.dp with r := dequantize s.params.dequantTab sf q })

end Sys2Proof.Machine
end

