-- ==== Sys2Proof/Machine/Frame.lean ====
section
/-! DEFINITION. frame_parser: FRAME_HDR, FRAME_CHECK, FRAME_OUT, FRAME_END (43_frame.md). -/

namespace Sys2Proof.Machine

open Sys2Proof

/-- The first check of R151 a frame header fails, in R151's order; sums are unbounded. -/
def frameCheckKind (h : FrameHeader) (s : State) : Option ErrKind :=
  let c := h.channels.toNat
  let n := h.samples.toNat
  if c = 0 ∨ 8 < c then some .invalidChannelCount
  else if n = 0 ∨ 5120 < n then some .invalidFrameSize
  else if h.size.toNat ≠ frameSizeLaw c n then some .invalidFrameSize
  else if s.regs.endp.toNat < s.regs.fbase.toNat + h.size.toNat then some .bufferTooSmall
  else if s.regs.first = true ∧ (c ≠ s.regs.sCh.toNat ∨ h.rate ≠ s.regs.sRate) then some .frameSequenceMismatch
  else if s.params.memSize < s.args.outOffset.toNat + 2 * c * min (s.regs.cum.toNat + n) s.regs.total.toNat then
    some .bufferTooSmall
  else none

/-- The check of R150 and R152: fewer than 8 bytes from FBASE to END. -/
def headerTruncated (s : State) : Bool := s.regs.endp.toNat < s.regs.fbase.toNat + 8

/-- The F_ registers of an accepted header, and S_CH, S_RATE and FIRST on the first frame (R150). -/
def acceptHeader (h : FrameHeader) (r : SeqRegs) : SeqRegs :=
  { r with
    fCh := h.channels.setWidth 4
    fRate := h.rate
    fN := h.samples
    fSize := h.size
    fSlices := BitVec.ofNat 9 (sliceCount h.samples.toNat)
    sCh := if r.first then r.sCh else h.channels.setWidth 4
    sRate := if r.first then r.sRate else h.rate
    first := true }

/-- FRAME_CHECK (R151): raises the first failing check's kind, else writes nothing. -/
def execFrameCheck (h : FrameHeader) (s : State) : Host.Outcome State Fault Refusal :=
  match frameCheckKind h s with
  | some k => .next (raiseFault k (failureWindow s) s)
  | none => .next s

/-- FRAME_HDR (R150): the availability check, FRAME_CHECK, then the F_ registers. -/
def execFrameHdr (h : FrameHeader) (s : State) : Host.Outcome State Fault Refusal :=
  if headerTruncated s then .next (raiseFault .truncatedHeader (failureWindow s) s)
  else
    match frameCheckKind h s with
    | some k => .next (raiseFault k (failureWindow s) s)
    | none => .next (s.setRegs (acceptHeader h s.regs))

/-- Where FRAME_OUT places the emitted sample: none for a padding slot or a sample past TOTAL (R160, R161). -/
def outputAddr (s : State) : Option Nat :=
  if s.dp.n.toNat < s.regs.fN.toNat ∧ s.regs.cum.toNat + s.dp.n.toNat < s.regs.total.toNat then
    some (sampleAddr s.args.outOffset.toNat s.regs.cum.toNat s.regs.fCh.toNat s.dp.n.toNat s.dp.c.toNat)
  else none

/-- FRAME_OUT (R160): the emitted sample's two bytes, or nothing. A byte inside the input region is refused (R79). -/
def execFrameOut (s : State) : Host.Outcome State Fault Refusal :=
  match outputAddr s with
  | none => .next s
  | some a =>
    if s.params.memSize < a + 2 then .fault (.outsideMem a)
    else if inInputRegion s a || inInputRegion s (a + 1) then .refused (.outputOverlapsInput a)
    else .next (s.setMem (memWrite16 s.params.outByteOrder s.mem a s.dp.s))

/-- FRAME_END (R163): CUM and FBASE move past the frame. -/
def execFrameEnd (s : State) : Host.Outcome State Fault Refusal :=
  .next (s.setRegs { s.regs with
    cum := s.regs.cum + s.regs.fN.setWidth 33
    fbase := s.regs.fbase + s.regs.fSize.setWidth 33 })

end Sys2Proof.Machine
end

