-- ==== Sys2Proof/Machine/Predictor.lean ====
section
/-! DEFINITION. adaptive_predictor_4tap: LMS_LOAD, LMS_PREDICT, LMS_UPDATE (41_predictor.md), each on channel CH_IDX. -/

namespace Sys2Proof.Machine

open Sys2Proof

/-- LMS_LOAD (R110): the eight registers of channel CH_IDX from the record's int16 fields, sign-extended. -/
def execLmsLoad (rec : LmsRecord) (s : State) : Host.Outcome State Fault Refusal :=
  match channel s s.regs.chIdx.toNat with
  | none => .fault (.noSuchChannel s.regs.chIdx.toNat)
  | some _ => .next (setChannel s s.regs.chIdx.toNat (loadRecord rec))

/-- LMS_PREDICT (R111): the prediction of channel CH_IDX's next sample, handed on in `dp.p` (log 11). -/
def execLmsPredict (s : State) : Host.Outcome State Fault Refusal :=
  match channel s s.regs.chIdx.toNat with
  | none => .fault (.noSuchChannel s.regs.chIdx.toNat)
  | some l => .next (s.setDp { s.dp with p := predict l })

/-- LMS_UPDATE (R112): the registers of channel CH_IDX adapt to the sample `dp.s` and the residual `dp.r` (log 11). -/
def execLmsUpdate (s : State) : Host.Outcome State Fault Refusal :=
  match channel s s.regs.chIdx.toNat with
  | none => .fault (.noSuchChannel s.regs.chIdx.toNat)
  | some l => .next (setChannel s s.regs.chIdx.toNat (update l s.dp.s s.dp.r))

end Sys2Proof.Machine
end

