-- ==== Sys2Proof/Machine/Slice.lean ====
section
/-! DEFINITION. slice_unpacker_64to20samples: SLICE_LOAD, SAMPLE_STEP (42_slice.md). -/

namespace Sys2Proof.Machine

open Sys2Proof

/-- SLICE_LOAD (R130): SLICE_WORD, SF and J; the word is the record at the slice's offset. -/
def execSliceLoad (word : BitVec 64) (s : State) : Host.Outcome State Fault Refusal :=
  .next (s.setRegs { s.regs with sliceWord := word, sf := scaleFactor word, j := 0#5 })

/-- What R133 computes for slot J on registers l of channel CH_IDX: q, r, p, s and the emission (n, c, s). -/
def slotValues (l : Lms) (s : State) : Datapath :=
  let q := residualCode s.regs.sliceWord s.regs.j.toNat
  let r := dequantize s.params.dequantTab s.regs.sf q
  let p := predict l
  { q := q, r := r, p := p, s := reconstruct p r
    n := BitVec.ofNat 16 (s.regs.slIdx.toNat * 20 + s.regs.j.toNat), c := s.regs.chIdx }

/-- SAMPLE_STEP (R133): reconstruct slot J's sample, update channel CH_IDX's predictor, emit the sample for FRAME_OUT
and move J on. -/
def execSampleStep (s : State) : Host.Outcome State Fault Refusal :=
  if 20 ≤ s.regs.j.toNat then .fault (.noSuchSlot s.regs.j.toNat)
  else
    match channel s s.regs.chIdx.toNat with
    | none => .fault (.noSuchChannel s.regs.chIdx.toNat)
    | some l =>
      let d := slotValues l s
      .next (((setChannel s s.regs.chIdx.toNat (update l d.s d.r)).setDp d).setRegs { s.regs with j := s.regs.j + 1 })

end Sys2Proof.Machine
end

