-- ==== Sys2Proof/Machine/Stream.lean ====
section
/-! DEFINITION. stream_parser: STREAM_HDR, STREAM_LOOP, STREAM_FINISH (44_stream.md). -/

namespace Sys2Proof.Machine

open Sys2Proof

/-- The first three checks of R180 in their order: the region, its length, the magic; sums are unbounded. -/
def streamCheckKind (h : StreamHeader) (s : State) : Option ErrKind :=
  if s.params.memSize < s.args.inOffset.toNat + s.args.inLength.toNat then some .bufferTooSmall
  else if s.args.inLength.toNat < 8 then some .truncatedHeader
  else if h.magic ≠ s.params.magic then some .magicMismatch
  else none

/-- END, FBASE, TOTAL, CUM and FIRST of an accepted stream header (R180). -/
def acceptStream (h : StreamHeader) (args : ArgRegs) (r : SeqRegs) : SeqRegs :=
  { r with
    total := h.total
    endp := args.inOffset.setWidth 33 + args.inLength.setWidth 33
    fbase := args.inOffset.setWidth 33 + 8#33
    cum := 0#33
    first := false }

/-- STREAM_HDR (R180). No frame is accepted yet, so a failure's window is empty (R244; log 13). TOTAL is written before
its check, as R180 orders it. -/
def execStreamHdr (h : StreamHeader) (s : State) : Host.Outcome State Fault Refusal :=
  match streamCheckKind h s with
  | some k => .next (raiseFault k 0 s)
  | none =>
    if h.total = 0#32 then
      .next (raiseFault .totalSampleMismatch 0 (s.setRegs { s.regs with total := h.total }))
    else .next (s.setRegs (acceptStream h s.args s.regs))

/-- The loop test of R182: `CUM < TOTAL and FBASE < END`. -/
def frameFollows (s : State) : Bool :=
  s.regs.cum.toNat < s.regs.total.toNat && s.regs.fbase.toNat < s.regs.endp.toNat

/-- STREAM_LOOP (R182, R213): on to the next frame's header, or to STREAM_FINISH. -/
def execStreamLoop (s : State) : Host.Outcome State Fault Refusal :=
  .next (s.setSeq (if frameFollows s then .frameHdr else .finish))

/-- The checks of R186: a frame was accepted, and `|CUM - TOTAL| ≤ TOTAL_SLACK`. -/
def finishCheckFails (s : State) : Bool :=
  !s.regs.first || s.params.totalSlack < ((s.regs.cum.toNat : Int) - (s.regs.total.toNat : Int)).natAbs

/-- STREAM_FINISH (R186): the total check, then the result `(min(CUM, TOTAL), S_CH, S_RATE)`. -/
def execStreamFinish (s : State) : Host.Outcome State Fault Refusal :=
  if finishCheckFails s then .next (raiseFault .totalSampleMismatch (failureWindow s) s)
  else
    .next (completeSuccess (BitVec.ofNat 32 (min s.regs.cum.toNat s.regs.total.toNat)) s.regs.sCh s.regs.sRate s)

end Sys2Proof.Machine
end

