-- ==== Sys2Proof/Machine/Dispatch.lean ====
section
/-! DEFINITION. One arm per operation. -/

namespace Sys2Proof.Machine

open Sys2Proof

def exec (i : Instr) (s : State) : Host.Outcome State Fault Refusal :=
  match i with
  | .dequant sf q => Sys2Proof.Machine.execDequant sf q s
  | .lmsLoad rec => Sys2Proof.Machine.execLmsLoad rec s
  | .lmsPredict => Sys2Proof.Machine.execLmsPredict s
  | .lmsUpdate => Sys2Proof.Machine.execLmsUpdate s
  | .sliceLoad word => Sys2Proof.Machine.execSliceLoad word s
  | .sampleStep => Sys2Proof.Machine.execSampleStep s
  | .frameHdr h => Sys2Proof.Machine.execFrameHdr h s
  | .frameCheck h => Sys2Proof.Machine.execFrameCheck h s
  | .frameOut => Sys2Proof.Machine.execFrameOut s
  | .frameEnd => Sys2Proof.Machine.execFrameEnd s
  | .streamHdr h => Sys2Proof.Machine.execStreamHdr h s
  | .streamLoop => Sys2Proof.Machine.execStreamLoop s
  | .streamFinish => Sys2Proof.Machine.execStreamFinish s
  | .start v => Sys2Proof.Machine.execStart v s
  | .wrCtrlNop v => Sys2Proof.Machine.execWrCtrlNop v s
  | .rdStatus => Sys2Proof.Machine.execRdStatus s
  | .rdArgInOffset => Sys2Proof.Machine.execRdArgInOffset s
  | .rdArgInLength => Sys2Proof.Machine.execRdArgInLength s
  | .rdArgOutOffset => Sys2Proof.Machine.execRdArgOutOffset s
  | .rdResultSamples => Sys2Proof.Machine.execRdResultSamples s
  | .rdResultChannels => Sys2Proof.Machine.execRdResultChannels s
  | .rdResultRate => Sys2Proof.Machine.execRdResultRate s
  | .rdCtrl => Sys2Proof.Machine.execRdCtrl s
  | .rdReserved off => Sys2Proof.Machine.execRdReserved off s
  | .wrArgInOffset v => Sys2Proof.Machine.execWrArgInOffset v s
  | .wrArgInLength v => Sys2Proof.Machine.execWrArgInLength v s
  | .wrArgOutOffset v => Sys2Proof.Machine.execWrArgOutOffset v s
  | .wrIgnoredStatus v => Sys2Proof.Machine.execWrIgnoredStatus v s
  | .wrIgnoredSamples v => Sys2Proof.Machine.execWrIgnoredSamples v s
  | .wrIgnoredChannels v => Sys2Proof.Machine.execWrIgnoredChannels v s
  | .wrIgnoredRate v => Sys2Proof.Machine.execWrIgnoredRate v s
  | .wrIgnoredReserved off v => Sys2Proof.Machine.execWrIgnoredReserved off v s

end Sys2Proof.Machine
end

