-- ==== Sys2Proof/Machine/Sequencer.lean ====
section
/-! DEFINITION. The sequencer (45_control.md R211 to R218): each step fetches the record its position names, decodes it,
runs the operation, and makes the state's own next-state assignment unless the operation completed the decode. -/

namespace Sys2Proof.Machine

open Sys2Proof

/-- Run what the decoder answered: the operation, or a refusal that says why there is none. -/
def runDecoded (d : Except DecodeError Instr) (s : State) : Host.Outcome State Fault Refusal :=
  match d with
  | .ok i => exec i s
  | .error e => .refused (.badEncoding e)

/-- Decode a selector's record and run the operation it names. -/
def runOp (sel : Selector) (record : List Byte) (s : State) : Host.Outcome State Fault Refusal :=
  runDecoded (decode sel record) s

/-- A raise ends the step with the decode's completion instead of the next-state assignment (R218). -/
def unlessEnded (f : State → State) (s : State) : State := if s.seq = .idle then s else f s

/-- Fetch the record of n bytes at a and run the operation the selector names (R65, R66). -/
def fetchAndRun (sel : Selector) (a n : Nat) (s : State) : Host.Outcome State Fault Refusal :=
  if a + n ≤ s.params.memSize then runOp sel (memBytes s.mem a n) s else .fault (.outsideMem a)

/-- The bytes of a record the engine does not read, because the check before the read fails (R180, R150; log 24). -/
def unreadRecord (n : Nat) : List Byte := List.replicate n 0#8

/-- The stream header lies in the input region and the region in MEM: R180's first two checks pass. -/
def streamHeaderReadable (s : State) : Bool :=
  s.args.inOffset.toNat + s.args.inLength.toNat ≤ s.params.memSize && 8 ≤ s.args.inLength.toNat

/-- STREAM_HDR (R212). With no readable header no byte is read and R180's bounds checks decide. -/
def stepStreamHdr (s : State) : Host.Outcome State Fault Refusal :=
  let o :=
    if streamHeaderReadable s then fetchAndRun .streamHeader s.args.inOffset.toNat 8 s
    else runOp .streamHeader (unreadRecord 8) s
  andThen o fun t => .next (unlessEnded (·.setSeq .frameHdr) t)

/-- FRAME_HDR (R213): the loop test, then the frame header if a frame follows. With fewer than 8 bytes left no byte is
read and R150's availability check decides. -/
def stepFrameHdr (s : State) : Host.Outcome State Fault Refusal :=
  andThen (runOp .loopHead [] s) fun t =>
    if t.seq = .finish then .next t
    else
      let o :=
        if headerTruncated t then runOp .frameHeader (unreadRecord 8) t
        else fetchAndRun .frameHeader t.regs.fbase.toNat 8 t
      andThen o fun u =>
        .next (unlessEnded (fun v => (v.setRegs { v.regs with chIdx := 0#4 }).setSeq .lmsLoad) u)

/-- The next-state assignment of LMS_LOAD (R214). -/
def afterLmsLoad (s : State) : State :=
  let c := s.regs.chIdx + 1
  if c = s.regs.fCh then (s.setRegs { s.regs with slIdx := 0#9, chIdx := 0#4 }).setSeq .sliceLoad
  else s.setRegs { s.regs with chIdx := c }

/-- LMS_LOAD (R214): the record of channel CH_IDX (R85, R110). -/
def stepLmsLoad (s : State) : Host.Outcome State Fault Refusal :=
  andThen (fetchAndRun .lmsRecord (lmsRecordAddr s.regs.fbase.toNat s.regs.chIdx.toNat) 16 s) fun t =>
    .next (afterLmsLoad t)

/-- SLICE_LOAD (R215): the word of slice (SL_IDX, CH_IDX) (R85, R130). -/
def stepSliceLoad (s : State) : Host.Outcome State Fault Refusal :=
  andThen
    (fetchAndRun .sliceWord
      (sliceWordAddr s.regs.fbase.toNat s.regs.fCh.toNat s.regs.slIdx.toNat s.regs.chIdx.toNat) 8 s)
    fun t => .next (t.setSeq .sample)

/-- The next-state assignment of SAMPLE (R216), J having been incremented. -/
def afterSample (s : State) : State :=
  if s.regs.j = 20#5 then
    let c := s.regs.chIdx + 1
    let r := if c = s.regs.fCh then { s.regs with chIdx := 0#4, slIdx := s.regs.slIdx + 1 } else { s.regs with chIdx := c }
    (s.setRegs r).setSeq (if r.slIdx = s.regs.fSlices then .frameEnd else .sliceLoad)
  else s

/-- SAMPLE (R216): SAMPLE_STEP on the loaded slice word, FRAME_OUT for the sample it emits, then the next state. -/
def stepSample (s : State) : Host.Outcome State Fault Refusal :=
  andThen (runOp .slot (beBytes 8 s.regs.sliceWord.toNat) s) fun t =>
    andThen (runOp .emittedSample [] t) fun u => .next (afterSample u)

/-- FRAME_END (R217). -/
def stepFrameEnd (s : State) : Host.Outcome State Fault Refusal :=
  andThen (runOp .frameLast [] s) fun t => .next (t.setSeq .frameHdr)

/-- FINISH (R218). -/
def stepFinish (s : State) : Host.Outcome State Fault Refusal := runOp .loopExit [] s

/-- One step of the engine; in IDLE it takes none (R211). -/
def engineStep (s : State) : Host.Outcome State Fault Refusal :=
  match s.seq with
  | .idle => .next s
  | .streamHdr => stepStreamHdr s
  | .frameHdr => stepFrameHdr s
  | .lmsLoad => stepLmsLoad s
  | .sliceLoad => stepSliceLoad s
  | .sample => stepSample s
  | .frameEnd => stepFrameEnd s
  | .finish => stepFinish s

end Sys2Proof.Machine
end

