-- ==== Sys2Proof/Machine/Platform.lean ====
section
/-! DEFINITION. What the outside does to the block: register accesses (R28, R92), host bytes of MEM (R20, R73, R280),
hardware reset (R270, R271); and how a word is placed where the next step fetches it. -/

namespace Sys2Proof.Machine

open Sys2Proof

/-- How many bytes the register window has: the offset of BUS_41 has 8 bits (R96; log 18). -/
def windowBytes : Nat := 256

/-- A register access (R28, R92): 32 bits wide, in the window, then decoded by direction and offset. -/
def busStep (a : BusAccess) (s : State) : Host.Outcome State Fault Refusal :=
  if a.bits ≠ 32 then .refused (.badWidth a.bits)
  else if a.addr < s.params.regBase ∨ s.params.regBase + windowBytes ≤ a.addr then .refused (.outsideWindow a.addr)
  else runOp .bus (beBytes 6 (busWord a.write (BitVec.ofNat 8 (a.addr - s.params.regBase)) a.data).toNat) s

/-- The host writes a byte of MEM; a byte of the input region is refused while BUSY (R280, D23; log 17). -/
def hostWriteStep (a : Nat) (v : Byte) (s : State) : Host.Outcome State Fault Refusal :=
  if s.params.memSize ≤ a then .fault (.outsideMem a)
  else if s.status.busy && inInputRegion s a then .refused (.inputChangedWhileBusy a)
  else .next (s.setMem (memSet s.mem a v))

/-- The byte may be in the running decode's output region (R73, R282): from OUT_OFFSET, at most `2·8·T` bytes (R281),
once the stream header has been read, and no byte of the input region (log 15). -/
def inOutputRegion (s : State) (a : Nat) : Bool :=
  s.status.busy && s.seq != .streamHdr && !inInputRegion s a && s.args.outOffset.toNat ≤ a &&
    a < s.args.outOffset.toNat + 16 * s.regs.total.toNat

/-- The host reads a byte of MEM; a byte of the output region is a free value while BUSY (R73, 93 U3). -/
def hostReadStep (a : Nat) (s : State) : Host.Outcome State Fault Refusal :=
  if s.params.memSize ≤ a then .fault (.outsideMem a)
  else if inOutputRegion s a then .next ((s.setHostByte (Config.freeByte s.freeCtr)).setFreeCtr (s.freeCtr + 1))
  else .next (s.setHostByte (memByte s.mem a))

/-- How many bytes from OUT_OFFSET a decode abandoned by reset can have written (R271; log 14): those of the frames
accepted, the one in progress among them; none before the stream header is read. -/
def abandonedWindow (s : State) : Nat :=
  match s.seq with
  | .idle | .streamHdr => 0
  | .frameHdr | .finish => failureWindow s
  | .lmsLoad | .sliceLoad | .sample | .frameEnd =>
    2 * s.regs.sCh.toNat * min (s.regs.cum.toNat + s.regs.fN.toNat) s.regs.total.toNat

/-- Hardware reset (R270, R271): every register as after reset, MEM kept but for the abandoned decode's output window.
The parameters, the schedule and the free-value counter are no registers of the block. -/
def hardResetState (s : State) : State :=
  let t := freeOutput (abandonedWindow s) s
  { State.reset with
    params := t.params
    mem := t.mem
    schedule := t.schedule
    freeCtr := t.freeCtr }

/-- What the schedule's first turn does. -/
def takeTurn (t : Turn) (s : State) : Host.Outcome State Fault Refusal :=
  match t with
  | .engine => engineStep s
  | .bus a => busStep a s
  | .hostWrite a v => hostWriteStep a v s
  | .hostRead a => hostReadStep a s
  | .hardReset => .next (hardResetState s)

/-! Placing a word (log 5). -/

/-- The engine is made to move next, busy in the sequencer state q, with registers r and the record stored at a. -/
def placeRecord (q : Seq) (r : SeqRegs) (a : Nat) (record : List Byte) (s : State) : State :=
  { s with
    mem := memStore s.mem a record
    status := statusStarted
    seq := q
    regs := r
    schedule := .engine :: s.schedule
    probe := none }

/-- s with the word's record placed where the next step fetches it: a record at the sequencer's position in MEM, a
register access at the head of the schedule, an operation without a record of its own in the probe. -/
def presentWord (s : State) (nbits w : Nat) : State :=
  match tableSelector nbits w with
  | none => s
  | some .streamHeader =>
    placeRecord .streamHdr s.regs s.args.inOffset.toNat (beBytes 8 w)
      (s.setArgs { s.args with inLength := BitVec.ofNat 32 (max 8 s.args.inLength.toNat) })
  | some .frameHeader =>
    let size := (frameHeaderOf (BitVec.ofNat 64 w)).size.toNat
    placeRecord .frameHdr
      { s.regs with
        cum := 0#33
        first := false
        total := BitVec.ofNat 32 (max 1 s.regs.total.toNat)
        endp := BitVec.ofNat 33 (s.regs.fbase.toNat + max 8 size) }
      s.regs.fbase.toNat (beBytes 8 w) s
  | some .lmsRecord =>
    let r := { s.regs with chIdx := BitVec.ofNat 4 (s.regs.chIdx.toNat % 8) }
    placeRecord .lmsLoad r (lmsRecordAddr r.fbase.toNat r.chIdx.toNat) (beBytes 16 w) s
  | some .sliceWord =>
    placeRecord .sliceLoad s.regs
      (sliceWordAddr s.regs.fbase.toNat s.regs.fCh.toNat s.regs.slIdx.toNat s.regs.chIdx.toNat) (beBytes 8 w) s
  | some .bus =>
    let x := BitVec.ofNat 41 w
    { s with
      schedule := .bus ⟨s.params.regBase + (x.extractLsb' 32 8).toNat, 32, x.getLsbD 40, x.extractLsb' 0 32⟩ :: s.schedule
      probe := none }
  | some sel => s.setProbe (some ⟨sel, beBytes sel.width w⟩)

end Sys2Proof.Machine
end

