-- ==== Sys2Proof/Machine/Step.lean ====
section
/-! DEFINITION. The step: an operation presented alone runs first; else the schedule's first turn; else the engine. -/

namespace Sys2Proof.Machine

open Sys2Proof

/-- One step of the machine. -/
def step (s : State) : Host.Outcome State Fault Refusal :=
  match s.probe with
  | some p => runOp p.sel p.record (s.setProbe none)
  | none =>
    match s.schedule with
    | [] => engineStep s
    | t :: rest => takeTurn t (s.setSchedule rest)

/-- s with a table word placed where step fetches its next instruction (log 5). -/
def State.withFetchWord (s : State) (nbits w : Nat) : State := presentWord s nbits w

end Sys2Proof.Machine
end

