-- ==== Sys2Proof/Machine/Reference.lean ====
section
/-! DEFINITION. The spec's own input-to-output relation, on mathematical integers (00_scope.md R7): DecodeSlice
(42_slice.md R134), DecodeFrame (43_frame.md R164), DecodeStream (44_stream.md R181). The sequencer does not call it;
that the sequencer computes it is a statement (45_control.md R222). -/

namespace Sys2Proof.Machine

open Sys2Proof

/-- `wrap32(v)` (R7). -/
def wrap32 (v : Int) : Int := v.bmod (2 ^ 32)

/-- `asr(v, n)` (R7): the floor of `v / 2^n`. -/
def asrInt (v : Int) (n : Nat) : Int := v / 2 ^ n

/-- Four integers in index order: `H` or `W` of R134. -/
structure Ints4 where
  x0 : Int
  x1 : Int
  x2 : Int
  x3 : Int
  deriving DecidableEq, Repr

/-- `DEQUANT_TAB[sf][q]` as an integer. -/
def refResidual (tab : Vector Sample 128) (sf q : Nat) : Int := (tab.toList.getD (8 * sf + q) 0#16).toInt

/-- `asr(wrap32(Σ_i W[i]*H[i]), 13)` (R134). -/
def refPredict (h w : Ints4) : Int :=
  asrInt (wrap32 (w.x0 * h.x0 + w.x1 * h.x1 + w.x2 * h.x2 + w.x3 * h.x3)) 13

/-- `wrap32(W[i] + (H[i] < 0 ? -d : d))` (R134). -/
def refAdapt (h w d : Int) : Int := wrap32 (w + if h < 0 then -d else d)

/-- The weights after a slot of residual r (R134). -/
def refWeights (h w : Ints4) (r : Int) : Ints4 :=
  let d := asrInt r 4
  ⟨refAdapt h.x0 w.x0 d, refAdapt h.x1 w.x1 d, refAdapt h.x2 w.x2 d, refAdapt h.x3 w.x3 d⟩

/-- The slots js of DecodeSlice (R134): the samples, then the history and the weights. -/
def refSlots (tab : Vector Sample 128) (word : Nat) : List Nat → Ints4 → Ints4 → List Int × Ints4 × Ints4
  | [], h, w => ([], h, w)
  | j :: js, h, w =>
    let r := refResidual tab (word / 2 ^ 60 % 16) (word / 2 ^ (57 - 3 * j) % 8)
    let x := clamp (refPredict h w + r) (-32768) 32767
    let rest := refSlots tab word js ⟨h.x1, h.x2, h.x3, x⟩ (refWeights h w r)
    (x :: rest.1, rest.2)

/-- DecodeSlice(word, H, W) (R134). -/
def refDecodeSlice (tab : Vector Sample 128) (word : Nat) (h w : Ints4) : List Int × Ints4 × Ints4 :=
  refSlots tab word (List.range 20) h w

/-- `MemRead(a, n)` (R8). -/
def refRead (m : Memory) (a n : Nat) : Nat := beNat (memBytes m a n)

/-- `sext_16(MemRead(a, 2))` (R110). -/
def refRead16 (m : Memory) (a : Nat) : Int := (BitVec.ofNat 16 (refRead m a 2)).toInt

/-- The history and weights of the record at a (R110). -/
def refLoad (m : Memory) (a : Nat) : Ints4 × Ints4 :=
  (⟨refRead16 m a, refRead16 m (a + 2), refRead16 m (a + 4), refRead16 m (a + 6)⟩,
   ⟨refRead16 m (a + 8), refRead16 m (a + 10), refRead16 m (a + 12), refRead16 m (a + 14)⟩)

/-- What DecodeStream carries from frame to frame. -/
structure RefStream where
  mem : Memory
  total : Nat
  cum : Nat
  fbase : Nat
  /-- S_CH and S_RATE once a frame is accepted -/
  first : Option (Nat × Nat)

/-- FRAME_CHECK (R151) on integers. -/
def refFrameCheck (p : Config.Params) (args : ArgRegs) (endp : Nat) (st : RefStream) (c r n z : Nat) : Option ErrKind :=
  if c = 0 ∨ 8 < c then some .invalidChannelCount
  else if n = 0 ∨ 5120 < n then some .invalidFrameSize
  else if z ≠ 8 + 16 * c + 8 * c * ((n + 19) / 20) then some .invalidFrameSize
  else if endp < st.fbase + z then some .bufferTooSmall
  else if st.first.any (· != (c, r)) then some .frameSequenceMismatch
  else if p.memSize < args.outOffset.toNat + 2 * c * min (st.cum + n) st.total then some .bufferTooSmall
  else none

/-- FRAME_OUT of a slice's samples from frame index n on (R160). -/
def refFrameOut (p : Config.Params) (args : ArgRegs) (st : RefStream) (chans frameN c : Nat) :
    Nat → List Int → Memory → Memory
  | _, [], m => m
  | n, x :: xs, m =>
    refFrameOut p args st chans frameN c (n + 1) xs
      (if n < frameN ∧ st.cum + n < st.total then
        memWrite16 p.outByteOrder m (args.outOffset.toNat + 2 * ((st.cum + n) * chans + c)) (BitVec.ofInt 16 x)
      else m)

/-- The slices of a frame in the order given, on the channels' predictors (R164's inner loops). -/
def refSlices (p : Config.Params) (args : ArgRegs) (st : RefStream) (chans frameN : Nat) :
    List (Nat × Nat) → List (Ints4 × Ints4) → Memory → Memory
  | [], _, m => m
  | (s, c) :: rest, lms, m =>
    let hw := lms.getD c (⟨0, 0, 0, 0⟩, ⟨0, 0, 0, 0⟩)
    let word := refRead m (st.fbase + 8 + 16 * chans + 8 * (s * chans + c)) 8
    let out := refDecodeSlice p.dequantTab word hw.1 hw.2
    refSlices p args st chans frameN rest (lms.set c out.2) (refFrameOut p args st chans frameN c (s * 20) out.1 m)

/-- Slice indices and channels in the order of R159. -/
def refSliceOrder (slices chans : Nat) : List (Nat × Nat) :=
  (List.range slices).flatMap fun s => (List.range chans).map fun c => (s, c)

/-- DecodeFrame (R164) at FBASE: the stream after the frame, or the failure's kind with the stream before it. -/
def refDecodeFrame (p : Config.Params) (args : ArgRegs) (endp : Nat) (st : RefStream) :
    Except (ErrKind × RefStream) RefStream :=
  if endp < st.fbase + 8 then .error (.truncatedHeader, st)
  else
    let c := refRead st.mem st.fbase 1
    let r := refRead st.mem (st.fbase + 1) 3
    let n := refRead st.mem (st.fbase + 4) 2
    let z := refRead st.mem (st.fbase + 6) 2
    match refFrameCheck p args endp st c r n z with
    | some k => .error (k, st)
    | none =>
      let lms := (List.range c).map fun i => refLoad st.mem (st.fbase + 8 + 16 * i)
      .ok { st with
        mem := refSlices p args st c n (refSliceOrder ((n + 19) / 20) c) lms st.mem
        cum := st.cum + n
        fbase := st.fbase + z
        first := some (st.first.getD (c, r)) }

/-- The frame loop (R181, R182); a frame is never empty, so END bounds the number of frames (R183). -/
def refFrames (p : Config.Params) (args : ArgRegs) (endp : Nat) : Nat → RefStream → Except (ErrKind × RefStream) RefStream
  | 0, st => .ok st
  | k + 1, st =>
    if st.cum < st.total ∧ st.fbase < endp then
      match refDecodeFrame p args endp st with
      | .ok st' => refFrames p args endp k st'
      | .error e => .error e
    else .ok st

/-- The outcome of a decode (R181): success with the triple and MEM, or the error kind and the failure window's length. -/
inductive RefOutcome where
  | success (samples channels rate : Nat) (mem : Memory)
  | failure (k : ErrKind) (window : Nat)

/-- The failure window's length (R244). -/
def refWindow (st : RefStream) : Nat :=
  match st.first with
  | none => 0
  | some (c, _) => 2 * c * min st.cum st.total

/-- STREAM_FINISH (R186) on integers. -/
def refFinish (p : Config.Params) (st : RefStream) : RefOutcome :=
  match st.first with
  | none => .failure .totalSampleMismatch 0
  | some (c, r) =>
    if p.totalSlack < ((st.cum : Int) - (st.total : Int)).natAbs then .failure .totalSampleMismatch (refWindow st)
    else .success (min st.cum st.total) c r st.mem

/-- DecodeStream(IN_OFFSET, IN_LENGTH, OUT_OFFSET, MEM) (R181). -/
def refDecodeStream (p : Config.Params) (args : ArgRegs) (m : Memory) : RefOutcome :=
  let inOff := args.inOffset.toNat
  let inLen := args.inLength.toNat
  if p.memSize < inOff + inLen then .failure .bufferTooSmall 0
  else if inLen < 8 then .failure .truncatedHeader 0
  else if refRead m inOff 4 ≠ p.magic.toNat then .failure .magicMismatch 0
  else
    let total := refRead m (inOff + 4) 4
    if total = 0 then .failure .totalSampleMismatch 0
    else
      match refFrames p args (inOff + inLen) inLen ⟨m, total, 0, inOff + 8, none⟩ with
      | .error (k, st) => .failure k (refWindow st)
      | .ok st => refFinish p st

end Sys2Proof.Machine
end

