-- ==== Sys2Proof/Safety.lean ====
section
/-! DEFINITION. The terms claims use: the machine's invariant, what a decode has live, how much work is left, and the
decode's contract with its host. -/

namespace Sys2Proof.Machine

open Sys2Proof

/-- A 32-bit register holds a value of the int16 range. -/
def sampleRange (v : Word) : Prop := -32768 ≤ v.toInt ∧ v.toInt ≤ 32767

/-- The four history registers hold int16 values (R113). -/
def historyInRange (l : Lms) : Prop :=
  sampleRange l.h.t0 ∧ sampleRange l.h.t1 ∧ sampleRange l.h.t2 ∧ sampleRange l.h.t3

/-- The sequencer states after an accepted stream header. -/
def Seq.inStream : Seq → Bool
  | .idle | .streamHdr => false
  | .frameHdr | .lmsLoad | .sliceLoad | .sample | .frameEnd | .finish => true

/-- The sequencer states inside an accepted frame. -/
def Seq.inFrame : Seq → Bool
  | .idle | .streamHdr | .frameHdr | .finish => false
  | .lmsLoad | .sliceLoad | .sample | .frameEnd => true

/-- The legal combinations of STATUS (R23). -/
structure StatusLegal (t : Status) : Prop where
  notBoth : ¬(t.busy = true ∧ t.done = true)
  errorDone : t.error = true → t.done = true ∧ 1 ≤ t.errKind.toNat ∧ t.errKind.toNat ≤ 7
  noError : t.error = false → t.errKind = 0#4

/-- The result registers: the sentinel unless the last decode succeeded, and then never the sentinel (R27, R190). -/
structure ResultsLegal (t : Status) (r : Results) : Prop where
  sentinel : ¬(t.done = true ∧ t.error = false) → r = Results.reset
  success : t.done = true → t.error = false → 1 ≤ r.channels.toNat ∧ r.channels.toNat ≤ 8 ∧ 1 ≤ r.samples.toNat

/-- The stream registers of a running decode after its stream header (R180, R183, R157, R156). -/
structure StreamInv (s : State) : Prop where
  endIs : s.regs.endp.toNat = s.args.inOffset.toNat + s.args.inLength.toNat
  endInside : s.regs.endp.toNat ≤ s.params.memSize
  fbaseAfterHeader : s.args.inOffset.toNat + 8 ≤ s.regs.fbase.toNat
  fbaseInside : s.regs.fbase.toNat ≤ s.regs.endp.toNat
  totalPositive : 1 ≤ s.regs.total.toNat
  noFrameYet : s.regs.first = false → s.regs.cum.toNat = 0
  streamChannels : s.regs.first = true → 1 ≤ s.regs.sCh.toNat ∧ s.regs.sCh.toNat ≤ 8
  writtenInside : s.regs.first = true →
    s.args.outOffset.toNat + 2 * s.regs.sCh.toNat * min s.regs.cum.toNat s.regs.total.toNat ≤ s.params.memSize

/-- Between frames: CUM counts at least one sample per accepted frame and passes TOTAL by less than a frame (R186). -/
structure BetweenInv (s : State) : Prop where
  counted : s.regs.first = true → 1 ≤ s.regs.cum.toNat
  bounded : s.regs.cum.toNat < s.regs.total.toNat + 5120

/-- The frame registers inside an accepted frame (R151, R153, R158, R157). -/
structure FrameInv (s : State) : Prop where
  first : s.regs.first = true
  channels : s.regs.fCh = s.regs.sCh
  rate : s.regs.fRate = s.regs.sRate
  samples : 1 ≤ s.regs.fN.toNat ∧ s.regs.fN.toNat ≤ 5120
  slices : s.regs.fSlices.toNat = sliceCount s.regs.fN.toNat
  sizeLaw : s.regs.fSize.toNat = frameSizeLaw s.regs.fCh.toNat s.regs.fN.toNat
  inside : s.regs.fbase.toNat + s.regs.fSize.toNat ≤ s.regs.endp.toNat
  needed : s.regs.cum.toNat < s.regs.total.toNat
  outputInside :
    s.args.outOffset.toNat + 2 * s.regs.fCh.toNat * min (s.regs.cum.toNat + s.regs.fN.toNat) s.regs.total.toNat
      ≤ s.params.memSize

/-- The indices of each sequencer state (R33, R214 to R216). -/
def PositionInv (s : State) : Prop :=
  match s.seq with
  | .lmsLoad => s.regs.chIdx.toNat < s.regs.fCh.toNat
  | .sliceLoad => s.regs.chIdx.toNat < s.regs.fCh.toNat ∧ s.regs.slIdx.toNat < s.regs.fSlices.toNat
  | .sample =>
    s.regs.chIdx.toNat < s.regs.fCh.toNat ∧ s.regs.slIdx.toNat < s.regs.fSlices.toNat ∧ s.regs.j.toNat < 20 ∧
      s.regs.sf = scaleFactor s.regs.sliceWord
  | .idle | .streamHdr | .frameHdr | .frameEnd | .finish => True

/-- The machine's invariant: it rules out the states no run reaches. An operation presented alone (log 4) is no part of
a run, so the probe is empty. -/
structure Inv (s : State) : Prop where
  noProbe : s.probe = none
  memSize : 1 ≤ s.params.memSize ∧ s.params.memSize ≤ 2 ^ 32
  memCanonical : s.mem.wf = true
  memInside : ∀ c ∈ s.mem, c.1 < s.params.memSize
  idleIff : s.seq = .idle ↔ s.status.busy = false
  status : StatusLegal s.status
  results : ResultsLegal s.status s.results
  history : ∀ (c : Nat) (l : Lms), channel s c = some l → historyInRange l
  stream : s.seq.inStream = true → StreamInv s
  between : s.seq = .frameHdr ∨ s.seq = .finish → BetweenInv s
  frame : s.seq.inFrame = true → FrameInv s
  position : PositionInv s

/-! The output and the input region (R62, R79). -/

/-- Sample n of channel c of the current frame has been emitted: its slot has been decoded (R159, R216). -/
def slotEmitted (s : State) (n c : Nat) : Prop :=
  match s.seq with
  | .sliceLoad => n / 20 < s.regs.slIdx.toNat ∨ (n / 20 = s.regs.slIdx.toNat ∧ c < s.regs.chIdx.toNat)
  | .sample =>
    n / 20 < s.regs.slIdx.toNat ∨
      (n / 20 = s.regs.slIdx.toNat ∧
        (c < s.regs.chIdx.toNat ∨ (c = s.regs.chIdx.toNat ∧ n % 20 < s.regs.j.toNat)))
  | .frameEnd => True
  | .idle | .streamHdr | .frameHdr | .lmsLoad | .finish => False

/-- What FRAME_OUT's refusal (log 16) keeps: no byte of the accepted frames' samples `[OUT_OFFSET, OUT_OFFSET +
2·S_CH·min(CUM, TOTAL))`, and no byte of a sample of the current frame placed so far, lies in the input region. -/
structure OutputInv (s : State) : Prop where
  accepted : s.seq.inStream = true → s.regs.first = true →
    ∀ x, s.args.outOffset.toNat ≤ x →
      x < s.args.outOffset.toNat + 2 * s.regs.sCh.toNat * min s.regs.cum.toNat s.regs.total.toNat →
      inInputRegion s x = false
  placed : ∀ n c, slotEmitted s n c → n < s.regs.fN.toNat → s.regs.cum.toNat + n < s.regs.total.toNat →
    c < s.regs.fCh.toNat →
    inInputRegion s (sampleAddr s.args.outOffset.toNat s.regs.cum.toNat s.regs.fCh.toNat n c) = false ∧
    inInputRegion s (sampleAddr s.args.outOffset.toNat s.regs.cum.toNat s.regs.fCh.toNat n c + 1) = false

/-! What a decode has live (R37, R39). -/

/-- The sequencer registers the current decode has written and may still read; the others at their reset value. -/
def liveRegs (q : Seq) (r : SeqRegs) : SeqRegs :=
  let stream : SeqRegs :=
    { SeqRegs.reset with
      endp := r.endp
      fbase := r.fbase
      total := r.total
      cum := r.cum
      first := r.first
      sCh := if r.first then r.sCh else 0#4
      sRate := if r.first then r.sRate else 0#24 }
  let frame : SeqRegs :=
    { stream with fCh := r.fCh, fRate := r.fRate, fN := r.fN, fSize := r.fSize, fSlices := r.fSlices }
  match q with
  | .idle | .streamHdr => SeqRegs.reset
  | .frameHdr | .finish => stream
  | .frameEnd => frame
  | .lmsLoad => { frame with chIdx := r.chIdx }
  | .sliceLoad => { frame with chIdx := r.chIdx, slIdx := r.slIdx }
  | .sample => { frame with chIdx := r.chIdx, slIdx := r.slIdx, j := r.j, sliceWord := r.sliceWord, sf := r.sf }

/-- Channel c's registers are live: the current frame has loaded them and may still read them. -/
def liveChannel (s : State) (c : Nat) : Bool :=
  match s.seq with
  | .lmsLoad => c < s.regs.chIdx.toNat
  | .sliceLoad | .sample => c < s.regs.fCh.toNat
  | .idle | .streamHdr | .frameHdr | .frameEnd | .finish => false

/-- The state with every register the current decode has not written at its reset value. -/
def liveView (s : State) : State :=
  { s with
    lms := Vector.ofFn fun c : Fin 8 => if liveChannel s c then s.lms[c] else Lms.reset
    regs := liveRegs s.seq s.regs
    dp := Datapath.reset }

/-- Two outcomes agree on what is live. -/
def agreeLive : Host.Outcome State Fault Refusal → Host.Outcome State Fault Refusal → Prop
  | .next s, .next t => liveView s = liveView t
  | .fault a, .fault b => a = b
  | .refused a, .refused b => a = b
  | _, _ => False

/-! Registers as integers, and how often a weight has moved. -/

/-- A channel's history as integers. -/
def histInts (l : Lms) : Ints4 := ⟨l.h.t0.toInt, l.h.t1.toInt, l.h.t2.toInt, l.h.t3.toInt⟩

/-- A channel's weights as integers. -/
def weightInts (l : Lms) : Ints4 := ⟨l.w.t0.toInt, l.w.t1.toInt, l.w.t2.toInt, l.w.t3.toInt⟩

/-- Four integers of magnitude at most b. -/
def Ints4.within (x : Ints4) (b : Nat) : Prop :=
  x.x0.natAbs ≤ b ∧ x.x1.natAbs ≤ b ∧ x.x2.natAbs ≤ b ∧ x.x3.natAbs ≤ b

/-- How many LMS_UPDATEs channel c has had in the current frame (R113's k). -/
def weightUpdates (s : State) (c : Nat) : Nat :=
  let slices := s.regs.slIdx.toNat + if c < s.regs.chIdx.toNat then 1 else 0
  match s.seq with
  | .sliceLoad => 20 * slices
  | .sample => 20 * slices + if c = s.regs.chIdx.toNat then s.regs.j.toNat else 0
  | .idle | .streamHdr | .frameHdr | .lmsLoad | .frameEnd | .finish => 0

/-- R113's bound on every live weight, for the default table. -/
def WeightInv (s : State) : Prop :=
  ∀ (c : Nat) (l : Lms), liveChannel s c = true → channel s c = some l →
    (weightInts l).within (32768 + 896 * weightUpdates s c)

/-- k SAMPLE_STEPs one after another: the samples they reconstruct and the state after them; none if one stops. -/
def sampleRun : Nat → State → Option (List Int × State)
  | 0, s => some ([], s)
  | k + 1, s =>
    match exec .sampleStep s with
    | .next t => (sampleRun k t).map fun r => (t.dp.s.toInt :: r.1, r.2)
    | .fault _ => none
    | .refused _ => none

/-- STATUS as a number (R23): BUSY + 2·DONE + 4·ERROR + 16·ERR_KIND. -/
def statusNumber (t : Status) : Nat := t.busy.toNat + 2 * t.done.toNat + 4 * t.error.toNat + 16 * t.errKind.toNat

/-- The register of R21's table at an offset, as a number; CTRL and offsets of 0x20 and above read 0 (R219). -/
def registerNumber (off : Nat) (s : State) : Nat :=
  if off = 0x04 then statusNumber s.status
  else if off = 0x08 then s.args.inOffset.toNat
  else if off = 0x0C then s.args.inLength.toNat
  else if off = 0x10 then s.args.outOffset.toNat
  else if off = 0x14 then s.results.samples.toNat
  else if off = 0x18 then s.results.channels.toNat
  else if off = 0x1C then s.results.rate.toNat
  else 0

/-! Work left and the decode's contract. -/

/-- How many engine steps the rest of the frame takes at most: 21 for each slice not begun, one for each record to load. -/
def frameWork (s : State) : Nat :=
  let slices := 21 * (s.regs.fSlices.toNat * s.regs.fCh.toNat)
  let doneSlices := 21 * (s.regs.slIdx.toNat * s.regs.fCh.toNat + s.regs.chIdx.toNat)
  match s.seq with
  | .lmsLoad => (s.regs.fCh.toNat - s.regs.chIdx.toNat) + slices
  | .sliceLoad => slices - doneSlices
  | .sample => slices - doneSlices - 1 - s.regs.j.toNat
  | .idle | .streamHdr | .frameHdr | .frameEnd | .finish => 0

/-- How many engine steps a running decode takes at most: linear in the input bytes left (R183). -/
def workLeft (s : State) : Nat :=
  match s.seq with
  | .idle => 0
  | .finish => 1
  | .frameHdr => 3 * (s.regs.endp.toNat - s.regs.fbase.toNat) + 2
  | .streamHdr => 3 * s.args.inLength.toNat + 3
  | .lmsLoad | .sliceLoad | .sample | .frameEnd =>
    3 * (s.regs.endp.toNat - (s.regs.fbase.toNat + s.regs.fSize.toNat)) + 3 + frameWork s

/-- The output window of a decode with the given outcome, in bytes from OUT_OFFSET: `2·C0·S` on success, the failure
window on failure (R78, R244). -/
def RefOutcome.outputWindow : RefOutcome → Nat
  | .success samples channels _ _ => 2 * channels * samples
  | .failure _ window => window

/-- The output window of the decode about to start shares no byte with its input region: the contract of R79. -/
def outputClearOfInput (s : State) : Prop :=
  ∀ x, s.args.outOffset.toNat ≤ x →
    x < s.args.outOffset.toNat + (refDecodeStream s.params s.args s.mem).outputWindow → inInputRegion s x = false

/-- A byte of the running decode's output window as far as its frame has been accepted (R78, R156). -/
def inAcceptedWindow (s : State) (a : Nat) : Prop :=
  s.args.outOffset.toNat ≤ a ∧ a < s.args.outOffset.toNat + abandonedWindow s

end Sys2Proof.Machine
end

