-- ==== Sys2Proof/Certificates/Slice0/Obligations.lean ====
section
/-! DEFINITION. The statements for the provers. Each docstring names the rule it formalises; a statement about a value
the model chose says so. -/

open Sys2Proof Sys2Proof.Machine

/-! Encoding. -/

/-- R80 to R96: every well-formed operation decodes from its encoding, with every operand. -/
def Obligations.DecodeOfEncodeIsTheOperation : Prop :=
  ∀ i : Instr, i.wellFormed = true → decode (encode i).1 (encode i).2 = .ok i

/-- R81 to R84, R89: the stream header, frame header, predictor state record, slice word and table index have no reserved
bit and no illegal pattern for the decoder: any bytes of the format's length decode, and encode to the same bytes. -/
def Obligations.EveryRecordBitIsAField : Prop :=
  ∀ (sel : Selector) (bs : List Byte),
    sel = .streamHeader ∨ sel = .frameHeader ∨ sel = .frameFields ∨ sel = .lmsRecord ∨ sel = .sliceWord ∨
      (sel = .dqIndex ∧ beNat bs < 128) →
    bs.length = sel.width → ∃ i, decode sel bs = .ok i ∧ i.wellFormed = true ∧ encode i = (sel, bs)

/-- R92, R96: a register access at an aligned offset decodes to the operation of the first table row its BUS_41 value
matches (RD_RESERVED's match as R96's words give it, log 25). -/
def Obligations.BusValueSelectsFirstTableRow : Prop :=
  ∀ w : BitVec 41, (w.extractLsb' 32 8).toNat % 4 = 0 →
    ∃ i, decodeBus w = .ok i ∧ i.wellFormed = true ∧ firstBusRow w = some i.mnemonic

/-- R131 whole: the code of slot j is bits (59-3j):(57-3j); the spec's example; shifting the word left by 3 a slot and
taking bits 59:57 gives the same codes. -/
def Obligations.ResidualCodeOfSlot : Prop :=
  (∀ (w : BitVec 64) (j : Nat), j < 20 →
    (residualCode w j).toNat = w.toNat / 2 ^ (57 - 3 * j) % 8 ∧
    residualCode w j = (w <<< (3 * j)).extractLsb' 57 3) ∧
  (scaleFactor 0x0123456789ABCDEF#64).toNat = 0 ∧
  (List.range 20).map (fun j => (residualCode 0x0123456789ABCDEF#64 j).toNat) =
    [0, 4, 4, 3, 2, 1, 2, 6, 3, 6, 1, 1, 5, 2, 7, 4, 6, 7, 5, 7]

/-- R84: 4 + 20 · 3 = 64, no bit of a slice word is unused: scale factor and codes give the word back. -/
def Obligations.SliceWordIsItsFields : Prop :=
  ∀ w v : BitVec 64, scaleFactor w = scaleFactor v → (∀ j, j < 20 → residualCode w j = residualCode v j) → w = v

/-- R81, R82, R83, R84, R91, R96: words written out from the encodings decode to the operations they stand for. -/
def Obligations.SpecWordsDecode : Prop :=
  decode .streamHeader [0x71, 0x6F, 0x61, 0x66, 0x00, 0x00, 0x00, 0x14] = .ok (.streamHdr ⟨0x716F6166#32, 20#32⟩) ∧
  decode .frameHeader [0x01, 0x00, 0xAC, 0x44, 0x00, 0x14, 0x00, 0x20] =
    .ok (.frameHdr ⟨1#8, 44100#24, 20#16, 32#16⟩) ∧
  decode .lmsRecord [0xFF, 0xFF, 0x00, 0x01, 0x80, 0x00, 0x7F, 0xFF, 0xE0, 0x00, 0x40, 0x00, 0x00, 0x00, 0x00, 0x00] =
    .ok (.lmsLoad ⟨⟨-1, 1, -32768, 32767⟩, ⟨-8192, 16384, 0, 0⟩⟩) ∧
  decode .sliceWord [0x01, 0x23, 0x45, 0x67, 0x89, 0xAB, 0xCD, 0xEF] = .ok (.sliceLoad 0x0123456789ABCDEF#64) ∧
  decode .dqIndex [0x7E] = .ok (.dequant 15#4 6#3) ∧
  decode .bus [0x01, 0x00, 0x00, 0x00, 0x00, 0x01] = .ok (.start 1#32) ∧
  decode .bus [0x00, 0x04, 0x00, 0x00, 0x00, 0x00] = .ok .rdStatus ∧
  decode .bus [0x01, 0x0C, 0x00, 0x00, 0x00, 0x28] = .ok (.wrArgInLength 0x28#32)

/-- R85: in a frame of C channels and N samples every predictor state record and every slice word lies between the frame
header and the frame's end, and no two slice words overlap. -/
def Obligations.FrameRecordsLieApart : Prop :=
  ∀ b chans n s c s' c' : Nat, c < chans → c' < chans → s < sliceCount n → s' < sliceCount n →
    b + 8 ≤ lmsRecordAddr b c ∧ lmsRecordAddr b c + 16 ≤ sliceWordAddr b chans 0 0 ∧
    sliceWordAddr b chans 0 0 ≤ sliceWordAddr b chans s c ∧
    sliceWordAddr b chans s c + 8 ≤ b + frameSizeLaw chans n ∧
    ((s, c) ≠ (s', c') →
      sliceWordAddr b chans s c + 8 ≤ sliceWordAddr b chans s' c' ∨
      sliceWordAddr b chans s' c' + 8 ≤ sliceWordAddr b chans s c)

/-! dequant_lut. -/

/-- R100 whole: DEQUANT answers the table's entry in row sf, column q, writes no register of the block and never stops;
the example with the default table. -/
def Obligations.DequantAnswersTheTableEntry : Prop :=
  (∀ (sf : BitVec 4) (q : BitVec 3) (s : State), ∃ t, exec (.dequant sf q) s = .next t ∧
    s.params.dequantTab.toList[8 * sf.toNat + q.toNat]? = some t.dp.r ∧
    t = { s with dp := { s.dp with r := t.dp.r } }) ∧
  (dequantize Config.Params.default.dequantTab 15#4 6#3).toInt = 14336

/-- R101, R102 of the DEFAULT table (general knowledge the spec takes in, log 8): the generating law, and the properties
the spec derives from it. -/
def Obligations.DefaultTableFollowsItsLaw : Prop :=
  ∀ sf k : Nat, sf < 16 → k < 4 →
    refResidual Config.defaultTab sf (2 * k) =
      (([1, 7, 21, 45, 84, 138, 211, 304, 421, 562, 731, 928, 1157, 1419, 1715, 2048].getD sf 0 *
        [3, 10, 18, 28].getD k 0 + 2) / 4 : Nat) ∧
    refResidual Config.defaultTab sf (2 * k + 1) = -refResidual Config.defaultTab sf (2 * k) ∧
    0 < refResidual Config.defaultTab sf (2 * k) ∧ refResidual Config.defaultTab sf (2 * k) ≤ 14336 ∧
    (0 < sf → refResidual Config.defaultTab (sf - 1) (2 * k) < refResidual Config.defaultTab sf (2 * k))

/-! adaptive_predictor_4tap. -/

/-- R110 whole: LMS_LOAD sets the eight registers of channel CH_IDX to the sign-extended fields of the record at
FBASE + 8 + 16·c, whatever record it is given, and changes nothing else. -/
def Obligations.LmsLoadSignExtendsTheRecord : Prop :=
  (∀ (rec : LmsRecord) (s : State), s.regs.chIdx.toNat < 8 → ∃ t l, exec (.lmsLoad rec) s = .next t ∧
    channel t s.regs.chIdx.toNat = some l ∧
    histInts l = ⟨rec.history.i0.toInt, rec.history.i1.toInt, rec.history.i2.toInt, rec.history.i3.toInt⟩ ∧
    weightInts l = ⟨rec.weight.i0.toInt, rec.weight.i1.toInt, rec.weight.i2.toInt, rec.weight.i3.toInt⟩ ∧
    (∀ d, d ≠ s.regs.chIdx.toNat → channel t d = channel s d) ∧
    t = { s with lms := t.lms }) ∧
  (∀ s : State, s.regs.chIdx.toNat < 8 → ∃ rec t l,
    decode .lmsRecord (memBytes s.mem (s.regs.fbase.toNat + 8 + 16 * s.regs.chIdx.toNat) 16) = .ok (.lmsLoad rec) ∧
    exec (.lmsLoad rec) s = .next t ∧ channel t s.regs.chIdx.toNat = some l ∧
    (histInts l, weightInts l) = refLoad s.mem (s.regs.fbase.toNat + 8 + 16 * s.regs.chIdx.toNat))

/-- R111 whole: LMS_PREDICT answers the floored shift of the dot product, wrapped at every step or once at the end, in
-262144..262143, and changes nothing else. -/
def Obligations.LmsPredictShiftsTheWrappedSum : Prop :=
  ∀ (s : State) (l : Lms), channel s s.regs.chIdx.toNat = some l → ∃ t, exec .lmsPredict s = .next t ∧
    (let w := weightInts l
     let h := histInts l
     let acc := wrap32 (wrap32 (wrap32 (wrap32 (0 + wrap32 (w.x0 * h.x0)) + wrap32 (w.x1 * h.x1)) +
       wrap32 (w.x2 * h.x2)) + wrap32 (w.x3 * h.x3))
     t.dp.p.toInt = asrInt acc 13 ∧ t.dp.p.toInt = refPredict h w) ∧
    -262144 ≤ t.dp.p.toInt ∧ t.dp.p.toInt ≤ 262143 ∧
    t = { s with dp := { s.dp with p := t.dp.p } }

/-- R112 whole: LMS_UPDATE moves each weight of channel CH_IDX by asr(r, 4), down where the old history value is negative,
with 32-bit wrap, shifts the history and appends the sample; it changes nothing else. -/
def Obligations.LmsUpdateAdaptsThenShifts : Prop :=
  ∀ (s : State) (l : Lms), channel s s.regs.chIdx.toNat = some l → ∃ t m, exec .lmsUpdate s = .next t ∧
    channel t s.regs.chIdx.toNat = some m ∧
    (let h := histInts l
     let w := weightInts l
     let delta := asrInt s.dp.r.toInt 4
     let moved := fun x y : Int => if x < 0 then wrap32 (y - delta) else wrap32 (y + delta)
     weightInts m = ⟨moved h.x0 w.x0, moved h.x1 w.x1, moved h.x2 w.x2, moved h.x3 w.x3⟩ ∧
     histInts m = ⟨h.x1, h.x2, h.x3, s.dp.s.toInt⟩) ∧
    (∀ d, d ≠ s.regs.chIdx.toNat → channel t d = channel s d) ∧
    t = { s with lms := t.lms }

/-- R114: LMS_PREDICT, LMS_UPDATE and SAMPLE_STEP on a channel depend on that channel's registers alone among the register
file, and leave every other channel's registers as they are. -/
def Obligations.PredictorChannelsAreIndependent : Prop :=
  ∀ (i : Instr) (s s' t t' : State), i = .lmsPredict ∨ i = .lmsUpdate ∨ i = .sampleStep →
    s'.regs = s.regs → s'.dp = s.dp → s'.params = s.params →
    channel s' s.regs.chIdx.toNat = channel s s.regs.chIdx.toNat →
    exec i s = .next t → exec i s' = .next t' →
    t'.dp = t.dp ∧ channel t' s.regs.chIdx.toNat = channel t s.regs.chIdx.toNat ∧
    ∀ d, d ≠ s.regs.chIdx.toNat → channel t d = channel s d

/-- R113 with the DEFAULT table (log 8): after k updates of a frame every live weight has magnitude at most
32768 + 896·k; every step keeps it. -/
def Obligations.WeightBoundIsKept : Prop :=
  ∀ s t : State, Inv s → s.params.dequantTab = Config.defaultTab → WeightInv s → step s = .next t → WeightInv t

/-- R113 with the DEFAULT table (log 8): under that bound the weight updates of SAMPLE_STEP never wrap. -/
def Obligations.WeightUpdatesNeverWrap : Prop :=
  ∀ (s t : State) (l m : Lms), Inv s → s.params.dequantTab = Config.defaultTab → WeightInv s → s.seq = .sample →
    channel s s.regs.chIdx.toNat = some l → exec .sampleStep s = .next t → channel t s.regs.chIdx.toNat = some m →
    (let h := histInts l
     let w := weightInts l
     let delta := asrInt t.dp.r.toInt 4
     let moved := fun x y : Int => if x < 0 then y - delta else y + delta
     weightInts m = ⟨moved h.x0 w.x0, moved h.x1 w.x1, moved h.x2 w.x2, moved h.x3 w.x3⟩)

/-! slice_unpacker. -/

/-- R130 whole: SLICE_LOAD sets SLICE_WORD to the big-endian word at the slice's offset, SF to its bits 63:60 and J to 0,
and changes nothing else. -/
def Obligations.SliceLoadSetsWordAndScaleFactor : Prop :=
  (∀ (w : BitVec 64) (s : State), ∃ t, exec (.sliceLoad w) s = .next t ∧
    t.regs.sliceWord = w ∧ t.regs.sf.toNat = w.toNat / 2 ^ 60 ∧ t.regs.j.toNat = 0 ∧
    t = { s with regs := { s.regs with sliceWord := t.regs.sliceWord, sf := t.regs.sf, j := t.regs.j } }) ∧
  (∀ s : State, ∃ w,
    (let a := s.regs.fbase.toNat + 8 + 16 * s.regs.fCh.toNat +
      8 * (s.regs.slIdx.toNat * s.regs.fCh.toNat + s.regs.chIdx.toNat)
     decode .sliceWord (memBytes s.mem a 8) = .ok (.sliceLoad w) ∧ w.toNat = refRead s.mem a 8))

/-- R133 whole: SAMPLE_STEP on a slot and a channel that exist reconstructs the clamped sum of prediction and residual,
updates the predictor with the unclamped residual, emits (SL_IDX·20 + J, c, s), moves J on, and changes nothing else. -/
def Obligations.SampleStepReconstructsTheSlot : Prop :=
  ∀ (s : State) (l : Lms), s.regs.j.toNat < 20 → channel s s.regs.chIdx.toNat = some l →
    ∃ t m, exec .sampleStep s = .next t ∧ channel t s.regs.chIdx.toNat = some m ∧
    (let q := s.regs.sliceWord.toNat / 2 ^ (57 - 3 * s.regs.j.toNat) % 8
     let r := refResidual s.params.dequantTab s.regs.sf.toNat q
     let p := refPredict (histInts l) (weightInts l)
     let x := clamp (p + r) (-32768) 32767
     t.dp.q.toNat = q ∧ t.dp.r.toInt = r ∧ t.dp.p.toInt = p ∧ t.dp.s.toInt = x ∧
     t.dp.n.toNat = s.regs.slIdx.toNat * 20 + s.regs.j.toNat ∧ t.dp.c = s.regs.chIdx ∧
     weightInts m = refWeights (histInts l) (weightInts l) r ∧
     histInts m = ⟨l.h.t1.toInt, l.h.t2.toInt, l.h.t3.toInt, x⟩) ∧
    t.regs.j.toNat = s.regs.j.toNat + 1 ∧
    (∀ d, d ≠ s.regs.chIdx.toNat → channel t d = channel s d) ∧
    t = { s with lms := t.lms, dp := t.dp, regs := { s.regs with j := t.regs.j } }

/-- R134 whole: SLICE_LOAD and twenty SAMPLE_STEPs compute DecodeSlice. -/
def Obligations.SliceIsDecodeSlice : Prop :=
  ∀ (s : State) (l : Lms) (w : BitVec 64), channel s s.regs.chIdx.toNat = some l →
    ∃ s1 xs t m, exec (.sliceLoad w) s = .next s1 ∧ sampleRun 20 s1 = some (xs, t) ∧
      channel t s.regs.chIdx.toNat = some m ∧
      (xs, histInts m, weightInts m) =
        refDecodeSlice s.params.dequantTab w.toNat (histInts l) (weightInts l)

/-- R137, within a slice: the codes of the slots from k on reach neither the samples of the first k slots nor the predictor
registers after them, whichever two words agree on the scale factor and the first k codes. -/
def Obligations.PaddingCodesNeverReachRealSamples : Prop :=
  ∀ (s : State) (l : Lms) (w v : BitVec 64) (k : Nat), channel s s.regs.chIdx.toNat = some l → k ≤ 20 →
    scaleFactor w = scaleFactor v → (∀ j, j < k → residualCode w j = residualCode v j) →
    ∃ a b xs t u, exec (.sliceLoad w) s = .next a ∧ exec (.sliceLoad v) s = .next b ∧
      sampleRun k a = some (xs, t) ∧ sampleRun k b = some (xs, u) ∧ t.lms = u.lms

/-- The model's own stops of the predictor and slot operations (log 20): a channel the register file does not have, a slot
the word does not have. -/
def Obligations.MissingChannelOrSlotStops : Prop :=
  (∀ (s : State) (rec : LmsRecord), 8 ≤ s.regs.chIdx.toNat →
    exec (.lmsLoad rec) s = .fault (.noSuchChannel s.regs.chIdx.toNat) ∧
    exec .lmsPredict s = .fault (.noSuchChannel s.regs.chIdx.toNat) ∧
    exec .lmsUpdate s = .fault (.noSuchChannel s.regs.chIdx.toNat) ∧
    (s.regs.j.toNat < 20 → exec .sampleStep s = .fault (.noSuchChannel s.regs.chIdx.toNat))) ∧
  (∀ s : State, 20 ≤ s.regs.j.toNat → exec .sampleStep s = .fault (.noSuchSlot s.regs.j.toNat))

/-! frame_parser. -/

/-- R151 whole: the checks in their order, the first that fails deciding the kind; with none failing nothing is written.
The example. -/
def Obligations.FrameCheckFirstFailureDecides : Prop :=
  (∀ (h : FrameHeader) (s : State),
    let c := h.channels.toNat
    let n := h.samples.toNat
    let z := h.size.toNat
    let bad1 := c = 0 ∨ c > 8
    let bad2 := n = 0 ∨ n > 5120
    let bad3 := z ≠ 8 + 16 * c + 8 * c * ((n + 19) / 20)
    let bad4 := (z : Int) > (s.regs.endp.toNat : Int) - (s.regs.fbase.toNat : Int)
    let bad5 := s.regs.first = true ∧ (c ≠ s.regs.sCh.toNat ∨ h.rate ≠ s.regs.sRate)
    let bad6 := s.args.outOffset.toNat + 2 * c * min (s.regs.cum.toNat + n) s.regs.total.toNat > s.params.memSize
    let ends := fun k => exec (.frameCheck h) s = .next (raiseFault k (failureWindow s) s)
    (bad1 → ends .invalidChannelCount) ∧
    (¬bad1 → bad2 → ends .invalidFrameSize) ∧
    (¬bad1 → ¬bad2 → bad3 → ends .invalidFrameSize) ∧
    (¬bad1 → ¬bad2 → ¬bad3 → bad4 → ends .bufferTooSmall) ∧
    (¬bad1 → ¬bad2 → ¬bad3 → ¬bad4 → bad5 → ends .frameSequenceMismatch) ∧
    (¬bad1 → ¬bad2 → ¬bad3 → ¬bad4 → ¬bad5 → bad6 → ends .bufferTooSmall) ∧
    (¬bad1 → ¬bad2 → ¬bad3 → ¬bad4 → ¬bad5 → ¬bad6 → exec (.frameCheck h) s = .next s)) ∧
  (∀ s : State, ∃ h, decode .frameFields [0x01, 0x00, 0x1F, 0x40, 0x00, 0x14, 0x00, 0x21] = .ok (.frameCheck h) ∧
    exec (.frameCheck h) s = .next (raiseFault .invalidFrameSize (failureWindow s) s))

/-- R150 whole: the availability check, then FRAME_CHECK, then the F_ registers, and S_CH, S_RATE and FIRST on the first
frame; the fields are the header's at FBASE. -/
def Obligations.FrameHdrAcceptsCheckedHeader : Prop :=
  (∀ (h : FrameHeader) (s : State),
    ((s.regs.endp.toNat : Int) - (s.regs.fbase.toNat : Int) < 8 →
      exec (.frameHdr h) s = .next (raiseFault .truncatedHeader (failureWindow s) s)) ∧
    (8 ≤ (s.regs.endp.toNat : Int) - (s.regs.fbase.toNat : Int) → ∀ t, exec (.frameCheck h) s = .next t →
      (∃ k, t = raiseFault k (failureWindow s) s ∧ frameCheckKind h s = some k ∧ exec (.frameHdr h) s = .next t) ∨
      (t = s ∧ frameCheckKind h s = none ∧ ∃ u, exec (.frameHdr h) s = .next u ∧
        u.regs.fCh.toNat = h.channels.toNat ∧ u.regs.fRate = h.rate ∧ u.regs.fN = h.samples ∧ u.regs.fSize = h.size ∧
        u.regs.fSlices.toNat = (h.samples.toNat + 19) / 20 ∧ u.regs.first = true ∧
        (s.regs.first = false → u.regs.sCh.toNat = h.channels.toNat ∧ u.regs.sRate = h.rate) ∧
        (s.regs.first = true → u.regs.sCh = s.regs.sCh ∧ u.regs.sRate = s.regs.sRate) ∧
        (let r : SeqRegs :=
          { s.regs with
            fCh := u.regs.fCh, fRate := u.regs.fRate, fN := u.regs.fN, fSize := u.regs.fSize
            fSlices := u.regs.fSlices, first := u.regs.first, sCh := u.regs.sCh, sRate := u.regs.sRate }
         u = { s with regs := r })))) ∧
  (∀ s : State, ∃ h, decode .frameHeader (memBytes s.mem s.regs.fbase.toNat 8) = .ok (.frameHdr h) ∧
    h.channels.toNat = refRead s.mem s.regs.fbase.toNat 1 ∧ h.rate.toNat = refRead s.mem (s.regs.fbase.toNat + 1) 3 ∧
    h.samples.toNat = refRead s.mem (s.regs.fbase.toNat + 4) 2 ∧
    h.size.toNat = refRead s.mem (s.regs.fbase.toNat + 6) 2)

/-- R150, R151: FRAME_HDR and FRAME_CHECK complete with their own effect on a legal header that fits. -/
def Obligations.LegalHeaderCompletes : Prop :=
  ∀ (h : FrameHeader) (s : State),
    1 ≤ h.channels.toNat → h.channels.toNat ≤ 8 → 1 ≤ h.samples.toNat → h.samples.toNat ≤ 5120 →
    h.size.toNat = 8 + 16 * h.channels.toNat + 8 * h.channels.toNat * ((h.samples.toNat + 19) / 20) →
    s.regs.fbase.toNat + h.size.toNat ≤ s.regs.endp.toNat →
    (s.regs.first = true → h.channels.toNat = s.regs.sCh.toNat ∧ h.rate = s.regs.sRate) →
    s.args.outOffset.toNat + 2 * h.channels.toNat * min (s.regs.cum.toNat + h.samples.toNat) s.regs.total.toNat
      ≤ s.params.memSize →
    exec (.frameCheck h) s = .next s ∧
    ∃ u, exec (.frameHdr h) s = .next u ∧ u.seq = s.seq ∧ u.regs.fCh.toNat = h.channels.toNat ∧ u.regs.fN = h.samples

/-- R160: FRAME_OUT places a sample that is neither padding nor past TOTAL at
OUT_OFFSET + 2·((CUM + n)·F_CH + c), its two bytes in OUT_BYTE_ORDER (R64), and changes no other byte and nothing else.
The bytes are inside MEM and outside the input region. -/
def Obligations.FrameOutPlacesTheSample : Prop :=
  ∀ s : State,
    let a := s.args.outOffset.toNat + 2 * ((s.regs.cum.toNat + s.dp.n.toNat) * s.regs.fCh.toNat + s.dp.c.toNat)
    s.dp.n.toNat < s.regs.fN.toNat → s.regs.cum.toNat + s.dp.n.toNat < s.regs.total.toNat →
    a + 2 ≤ s.params.memSize → inInputRegion s a = false → inInputRegion s (a + 1) = false →
    ∃ t, exec .frameOut s = .next t ∧
      (s.params.outByteOrder = .little →
        (memByte t.mem a).toNat = s.dp.s.toNat % 256 ∧ (memByte t.mem (a + 1)).toNat = s.dp.s.toNat / 256) ∧
      (s.params.outByteOrder = .big →
        (memByte t.mem a).toNat = s.dp.s.toNat / 256 ∧ (memByte t.mem (a + 1)).toNat = s.dp.s.toNat % 256) ∧
      (∀ x, x ≠ a → x ≠ a + 1 → memByte t.mem x = memByte s.mem x) ∧
      t = { s with mem := t.mem }

/-- R161 whole: a padding sample and a sample past TOTAL are discarded, nothing changes; so no sample is placed past
OUT_OFFSET + 2·F_CH·TOTAL. -/
def Obligations.FrameOutDiscardsPaddingAndExcess : Prop :=
  (∀ s : State, s.regs.fN.toNat ≤ s.dp.n.toNat ∨ s.regs.total.toNat ≤ s.regs.cum.toNat + s.dp.n.toNat →
    exec .frameOut s = .next s) ∧
  (∀ s t : State, exec .frameOut s = .next t → s.dp.c.toNat < s.regs.fCh.toNat →
    ∀ x, s.args.outOffset.toNat + 2 * s.regs.fCh.toNat * s.regs.total.toNat ≤ x → memByte t.mem x = memByte s.mem x)

/-- Where FRAME_OUT stops: a sample past the end of MEM, which R156 rules out in a run, is the model's own fault (log 20);
a sample whose bytes touch the input region is refused by name (R79, D22, as the model refuses it, log 16). -/
def Obligations.FrameOutStopsOutsideItsContract : Prop :=
  ∀ s : State,
    let a := s.args.outOffset.toNat + 2 * ((s.regs.cum.toNat + s.dp.n.toNat) * s.regs.fCh.toNat + s.dp.c.toNat)
    s.dp.n.toNat < s.regs.fN.toNat → s.regs.cum.toNat + s.dp.n.toNat < s.regs.total.toNat →
    (s.params.memSize < a + 2 → exec .frameOut s = .fault (.outsideMem a)) ∧
    (a + 2 ≤ s.params.memSize → inInputRegion s a = true ∨ inInputRegion s (a + 1) = true →
      exec .frameOut s = .refused (.outputOverlapsInput a))

/-- R163 whole: FRAME_END adds F_N to CUM and F_SIZE to FBASE (33-bit registers, without wrap in a running decode) and
control returns to the loop head. -/
def Obligations.FrameEndMovesPastTheFrame : Prop :=
  (∀ s : State, ∃ t, exec .frameEnd s = .next t ∧
    t.regs.cum.toNat = (s.regs.cum.toNat + s.regs.fN.toNat) % 2 ^ 33 ∧
    t.regs.fbase.toNat = (s.regs.fbase.toNat + s.regs.fSize.toNat) % 2 ^ 33 ∧
    t = { s with regs := { s.regs with cum := t.regs.cum, fbase := t.regs.fbase } }) ∧
  (∀ s : State, Inv s → s.seq = .frameEnd → ∃ t, engineStep s = .next t ∧ t.seq = .frameHdr ∧
    t.regs.cum.toNat = s.regs.cum.toNat + s.regs.fN.toNat ∧
    t.regs.fbase.toNat = s.regs.fbase.toNat + s.regs.fSize.toNat)

/-! stream_parser. -/

/-- R180 whole: the checks in their order, TOTAL written before its check, then the stream registers; the fields are the
header's at IN_OFFSET. -/
def Obligations.StreamHdrChecksThenStarts : Prop :=
  (∀ (h : StreamHeader) (s : State),
    let bad1 := s.args.inOffset.toNat + s.args.inLength.toNat > s.params.memSize
    let bad2 := s.args.inLength.toNat < 8
    let bad3 := h.magic ≠ s.params.magic
    let bad4 := h.total.toNat = 0
    let ends := fun k u => exec (.streamHdr h) s = .next (raiseFault k 0 u)
    (bad1 → ends .bufferTooSmall s) ∧
    (¬bad1 → bad2 → ends .truncatedHeader s) ∧
    (¬bad1 → ¬bad2 → bad3 → ends .magicMismatch s) ∧
    (¬bad1 → ¬bad2 → ¬bad3 → bad4 → ends .totalSampleMismatch { s with regs := { s.regs with total := h.total } }) ∧
    (¬bad1 → ¬bad2 → ¬bad3 → ¬bad4 → ∃ t, exec (.streamHdr h) s = .next t ∧
      t.regs.total = h.total ∧ t.regs.endp.toNat = s.args.inOffset.toNat + s.args.inLength.toNat ∧
      t.regs.fbase.toNat = s.args.inOffset.toNat + 8 ∧ t.regs.cum.toNat = 0 ∧ t.regs.first = false ∧
      (let r : SeqRegs :=
        { s.regs with
          total := t.regs.total, endp := t.regs.endp, fbase := t.regs.fbase, cum := t.regs.cum, first := t.regs.first }
       t = { s with regs := r }))) ∧
  (∀ s : State, ∃ h, decode .streamHeader (memBytes s.mem s.args.inOffset.toNat 8) = .ok (.streamHdr h) ∧
    h.magic.toNat = refRead s.mem s.args.inOffset.toNat 4 ∧ h.total.toNat = refRead s.mem (s.args.inOffset.toNat + 4) 4)

/-- R182: the loop head goes on to the next frame exactly when CUM < TOTAL and FBASE < END, else to STREAM_FINISH, and
changes nothing else. -/
def Obligations.StreamLoopTestsTotalAndEnd : Prop :=
  ∀ s : State, ∃ t, exec .streamLoop s = .next t ∧
    (s.regs.cum.toNat < s.regs.total.toNat ∧ s.regs.fbase.toNat < s.regs.endp.toNat → t.seq = .frameHdr) ∧
    (s.regs.total.toNat ≤ s.regs.cum.toNat ∨ s.regs.endp.toNat ≤ s.regs.fbase.toNat → t.seq = .finish) ∧
    t = { s with seq := t.seq }

/-- R186 with R188's success: no frame or too great a distance between CUM and TOTAL raises TotalSampleMismatch; else the
results are (min(CUM, TOTAL), S_CH, S_RATE), BUSY 0, DONE 1, ERROR 0, ERR_KIND 0, SEQ IDLE, and nothing else changes. -/
def Obligations.StreamFinishReportsTheTriple : Prop :=
  ∀ s : State,
    let far := (s.params.totalSlack : Int) < |(s.regs.cum.toNat : Int) - (s.regs.total.toNat : Int)|
    (s.regs.first = false ∨ far →
      exec .streamFinish s = .next (raiseFault .totalSampleMismatch (failureWindow s) s)) ∧
    (s.regs.first = true → ¬far → ∃ t, exec .streamFinish s = .next t ∧
      t.results.samples.toNat = min s.regs.cum.toNat s.regs.total.toNat ∧ t.results.channels = s.regs.sCh ∧
      t.results.rate = s.regs.sRate ∧ statusNumber t.status = 2 ∧ t.seq = .idle ∧
      t = { s with results := t.results, status := t.status, seq := t.seq })

/-! Failure. -/

/-- R243, with R240's codes: a failure sets STATUS, clears the results, makes the block idle, and records nothing else;
only the bytes of the window given may change. -/
def Obligations.FailureRecordsOnlyTheKind : Prop :=
  ∀ (k : ErrKind) (n : Nat) (s : State),
    let t := raiseFault k n s
    statusNumber t.status = 6 + 16 * (match k with
      | .magicMismatch => 1 | .truncatedHeader => 2 | .invalidChannelCount => 3 | .invalidFrameSize => 4
      | .frameSequenceMismatch => 5 | .totalSampleMismatch => 6 | .bufferTooSmall => 7) ∧
    t.results = ⟨0#32, 0#4, 0#24⟩ ∧ t.seq = .idle ∧
    (∀ x, x < s.args.outOffset.toNat ∨ s.args.outOffset.toNat + n ≤ x → memByte t.mem x = memByte s.mem x) ∧
    t = { s with mem := t.mem, freeCtr := t.freeCtr, results := t.results, status := t.status, seq := t.seq }

/-- R244: when an engine step ends a decode in failure, the bytes outside
[OUT_OFFSET, OUT_OFFSET + 2·S_CH·min(CUM, TOTAL)), empty if no frame was accepted, are unchanged; each byte inside holds a
free value (any value; log 13). -/
def Obligations.FailureWindowIsUnspecified : Prop :=
  ∀ s t : State, Inv s → s.seq ≠ .idle → engineStep s = .next t → t.status.error = true →
    let n := if s.seq ≠ .streamHdr ∧ s.regs.first = true then
      2 * s.regs.sCh.toNat * min s.regs.cum.toNat s.regs.total.toNat else 0
    (∀ x, x < s.args.outOffset.toNat ∨ s.args.outOffset.toNat + n ≤ x → memByte t.mem x = memByte s.mem x) ∧
    (∀ i, i < n → ∃ k, s.freeCtr ≤ k ∧ k < t.freeCtr ∧
      memByte t.mem (s.args.outOffset.toNat + i) = Config.freeByte k)

/-! Host command and register access. -/

/-- R210 whole: a CTRL write with bit 0 = 1 on an idle block sets BUSY, clears DONE, ERROR, ERR_KIND and the results and
sets SEQ to STREAM_HDR; while BUSY, or with bit 0 = 0, it has no effect. -/
def Obligations.StartBeginsADecodeOnAnIdleBlock : Prop :=
  (∀ (v : Word) (s : State), v.toNat % 2 = 1 → s.status.busy = false → ∃ t, exec (.start v) s = .next t ∧
    statusNumber t.status = 1 ∧ t.results = ⟨0#32, 0#4, 0#24⟩ ∧ t.seq = .streamHdr ∧
    t = { s with status := t.status, results := t.results, seq := t.seq }) ∧
  (∀ (v : Word) (s : State), v.toNat % 2 = 1 → s.status.busy = true → exec (.start v) s = .next s) ∧
  (∀ (v : Word) (s : State), v.toNat % 2 = 0 → exec (.wrCtrlNop v) s = .next s)

/-- R219: each register read completes in every state, answers its register and changes nothing else. -/
def Obligations.RegisterReadsComplete : Prop :=
  ∀ (s : State) (off : BitVec 8),
    (∃ t, exec .rdStatus s = .next t ∧ t.busData.toNat = statusNumber s.status ∧ t = { s with busData := t.busData }) ∧
    (∃ t, exec .rdArgInOffset s = .next t ∧ t.busData = s.args.inOffset ∧ t = { s with busData := t.busData }) ∧
    (∃ t, exec .rdArgInLength s = .next t ∧ t.busData = s.args.inLength ∧ t = { s with busData := t.busData }) ∧
    (∃ t, exec .rdArgOutOffset s = .next t ∧ t.busData = s.args.outOffset ∧ t = { s with busData := t.busData }) ∧
    (∃ t, exec .rdResultSamples s = .next t ∧ t.busData = s.results.samples ∧ t = { s with busData := t.busData }) ∧
    (∃ t, exec .rdResultChannels s = .next t ∧ t.busData.toNat = s.results.channels.toNat ∧
      t = { s with busData := t.busData }) ∧
    (∃ t, exec .rdResultRate s = .next t ∧ t.busData.toNat = s.results.rate.toNat ∧
      t = { s with busData := t.busData }) ∧
    (∃ t, exec .rdCtrl s = .next t ∧ t.busData.toNat = 0 ∧ t = { s with busData := t.busData }) ∧
    (∃ t, exec (.rdReserved off) s = .next t ∧ t.busData.toNat = 0 ∧ t = { s with busData := t.busData })

/-- R219 whole: a 32-bit read at REG_BASE + offset answers the register of R21's table at that offset, with reserved bits
0, CTRL and offsets of 0x20 and above 0, and has no side effect; in a state that meets the invariant the result registers
read 0 while BUSY = 1. -/
def Obligations.BusReadReturnsTheRegister : Prop :=
  ∀ (s : State) (off : Nat) (d : Word) (rest : List Turn), s.probe = none → off < 256 → off % 4 = 0 →
    s.schedule = .bus ⟨s.params.regBase + off, 32, false, d⟩ :: rest →
    ∃ t, step s = .next t ∧ t.busData.toNat = registerNumber off s ∧
      (Inv s → s.status.busy = true → 0x14 ≤ off → t.busData.toNat = 0) ∧
      t = { s with schedule := rest, busData := t.busData }

/-- R220 whole: WR_ARG writes all 32 bits of its register while BUSY = 0 and is ignored while BUSY = 1; it changes nothing
else. -/
def Obligations.ArgumentWritesOnlyWhileIdle : Prop :=
  ∀ (v : Word) (s : State),
    (s.status.busy = false →
      exec (.wrArgInOffset v) s = .next { s with args := { s.args with inOffset := v } } ∧
      exec (.wrArgInLength v) s = .next { s with args := { s.args with inLength := v } } ∧
      exec (.wrArgOutOffset v) s = .next { s with args := { s.args with outOffset := v } }) ∧
    (s.status.busy = true →
      exec (.wrArgInOffset v) s = .next s ∧ exec (.wrArgInLength v) s = .next s ∧ exec (.wrArgOutOffset v) s = .next s)

/-- R221: a write to STATUS, a result register or a reserved offset has no effect. -/
def Obligations.IgnoredWritesChangeNothing : Prop :=
  ∀ (off : BitVec 8) (v : Word) (s : State),
    exec (.wrIgnoredStatus v) s = .next s ∧ exec (.wrIgnoredSamples v) s = .next s ∧
    exec (.wrIgnoredChannels v) s = .next s ∧ exec (.wrIgnoredRate v) s = .next s ∧
    exec (.wrIgnoredReserved off v) s = .next s

/-- R210, R220, R221: what a 32-bit write at REG_BASE + offset can do on the whole: start a decode, write one argument
register, or nothing. -/
def Obligations.BusWriteStartsWritesOrNothing : Prop :=
  ∀ (s : State) (off : Nat) (v : Word) (rest : List Turn), s.probe = none → off < 256 → off % 4 = 0 →
    s.schedule = .bus ⟨s.params.regBase + off, 32, true, v⟩ :: rest →
    ∃ t, step s = .next t ∧
      t = (if s.status.busy = true then { s with schedule := rest }
        else if off = 0 ∧ v.toNat % 2 = 1 then
          { s with schedule := rest, status := ⟨true, false, false, 0#4⟩, results := ⟨0#32, 0#4, 0#24⟩, seq := .streamHdr }
        else if off = 0x08 then { s with schedule := rest, args := { s.args with inOffset := v } }
        else if off = 0x0C then { s with schedule := rest, args := { s.args with inLength := v } }
        else if off = 0x10 then { s with schedule := rest, args := { s.args with outOffset := v } }
        else { s with schedule := rest })

/-- R284: while BUSY = 1 every register write, START and the argument writes among them, is ignored. -/
def Obligations.BusyBlockIgnoresEveryWrite : Prop :=
  ∀ (s t : State) (a : BusAccess) (rest : List Turn), s.probe = none → s.status.busy = true → a.write = true →
    s.schedule = .bus a :: rest → step s = .next t → t = { s with schedule := rest }

/-- R256 whole: a register access that is not 32 bits wide, or at an offset that is no multiple of 4, is refused. -/
def Obligations.AccessOutsideTheInterfaceIsRefused : Prop :=
  ∀ (s : State) (a : BusAccess) (rest : List Turn), s.probe = none → s.schedule = .bus a :: rest →
    (a.bits ≠ 32 → step s = .refused (.badWidth a.bits)) ∧
    (a.bits = 32 → s.params.regBase ≤ a.addr → a.addr < s.params.regBase + 256 → (a.addr - s.params.regBase) % 4 ≠ 0 →
      step s = .refused (.badEncoding .misalignedOffset))

/-! The machine. -/

/-- R38: STATUS, the argument registers and the result registers are 0 and SEQ is IDLE after reset, and the host reads 0
at every offset. -/
def Obligations.ResetStateReadsZero : Prop :=
  statusNumber State.reset.status = 0 ∧ State.reset.args = ⟨0#32, 0#32, 0#32⟩ ∧
  State.reset.results = ⟨0#32, 0#4, 0#24⟩ ∧ State.reset.seq = .idle ∧
  ∀ off : Nat, registerNumber off State.reset = 0

/-- The step runs the decoded operation (R95, R211 to R218): what step and the engine add around exec in every sequencer
state and for a register access. Where R180 or R150 reads no header, the outcome is that of the operation on any header
(log 24). That the schedule's turns and, where it is empty, the engine move is the model's convention (log 3), and so are
an operation presented alone (log 4) and the fault of a record outside MEM, which no run meets (log 20). -/
def Obligations.StepRunsTheDecodedOperation : Prop :=
  (∀ (s : State) (p : Probe) (i : Instr), s.probe = some p → decode p.sel p.record = .ok i →
    step s = exec i { s with probe := none }) ∧
  (∀ (s : State) (a : BusAccess) (rest : List Turn) (i : Instr), s.probe = none → s.schedule = .bus a :: rest →
    a.bits = 32 → s.params.regBase ≤ a.addr → a.addr < s.params.regBase + 256 →
    decodeBus (busWord a.write (BitVec.ofNat 8 (a.addr - s.params.regBase)) a.data) = .ok i →
    step s = exec i { s with schedule := rest }) ∧
  (∀ (s : State) (rest : List Turn), s.probe = none → s.schedule = .engine :: rest →
    step s = engineStep { s with schedule := rest }) ∧
  (∀ s : State, s.probe = none → s.schedule = [] → step s = engineStep s) ∧
  (∀ s : State, s.seq = .idle → engineStep s = .next s) ∧
  (∀ (s : State) (i : Instr), s.seq = .streamHdr →
    s.args.inOffset.toNat + s.args.inLength.toNat ≤ s.params.memSize → 8 ≤ s.args.inLength.toNat →
    decode .streamHeader (memBytes s.mem s.args.inOffset.toNat 8) = .ok i →
    engineStep s = andThen (exec i s) fun t => .next (unlessEnded (·.setSeq .frameHdr) t)) ∧
  (∀ (s : State) (h : StreamHeader), s.seq = .streamHdr →
    s.params.memSize < s.args.inOffset.toNat + s.args.inLength.toNat ∨ s.args.inLength.toNat < 8 →
    engineStep s = exec (.streamHdr h) s) ∧
  (∀ (s : State) (i : Instr), s.seq = .frameHdr → frameFollows s = true → headerTruncated s = false →
    s.regs.fbase.toNat + 8 ≤ s.params.memSize →
    decode .frameHeader (memBytes s.mem s.regs.fbase.toNat 8) = .ok i →
    engineStep s = andThen (exec i s) fun t =>
      .next (unlessEnded (fun u => (u.setRegs { u.regs with chIdx := 0#4 }).setSeq .lmsLoad) t)) ∧
  (∀ (s : State) (h : FrameHeader), s.seq = .frameHdr → frameFollows s = true → headerTruncated s = true →
    engineStep s = exec (.frameHdr h) s) ∧
  (∀ s : State, s.seq = .frameHdr → frameFollows s = true → headerTruncated s = false →
    s.params.memSize < s.regs.fbase.toNat + 8 → engineStep s = .fault (.outsideMem s.regs.fbase.toNat)) ∧
  (∀ s : State, s.seq = .frameHdr → frameFollows s = false → engineStep s = exec .streamLoop s) ∧
  (∀ (s : State) (i : Instr), s.seq = .lmsLoad →
    lmsRecordAddr s.regs.fbase.toNat s.regs.chIdx.toNat + 16 ≤ s.params.memSize →
    decode .lmsRecord (memBytes s.mem (lmsRecordAddr s.regs.fbase.toNat s.regs.chIdx.toNat) 16) = .ok i →
    engineStep s = andThen (exec i s) fun t => .next (afterLmsLoad t)) ∧
  (∀ s : State, s.seq = .lmsLoad →
    (let a := lmsRecordAddr s.regs.fbase.toNat s.regs.chIdx.toNat
     s.params.memSize < a + 16 → engineStep s = .fault (.outsideMem a))) ∧
  (∀ (s : State) (i : Instr), s.seq = .sliceLoad →
    (let a := sliceWordAddr s.regs.fbase.toNat s.regs.fCh.toNat s.regs.slIdx.toNat s.regs.chIdx.toNat
     a + 8 ≤ s.params.memSize → decode .sliceWord (memBytes s.mem a 8) = .ok i →
     engineStep s = andThen (exec i s) fun t => .next (t.setSeq .sample))) ∧
  (∀ s : State, s.seq = .sliceLoad →
    (let a := sliceWordAddr s.regs.fbase.toNat s.regs.fCh.toNat s.regs.slIdx.toNat s.regs.chIdx.toNat
     s.params.memSize < a + 8 → engineStep s = .fault (.outsideMem a))) ∧
  (∀ s : State, s.seq = .sample →
    engineStep s = andThen (exec .sampleStep s) fun t => andThen (exec .frameOut t) fun u => .next (afterSample u)) ∧
  (∀ s : State, s.seq = .frameEnd →
    engineStep s = andThen (exec .frameEnd s) fun t => .next (t.setSeq .frameHdr)) ∧
  (∀ s : State, s.seq = .finish → engineStep s = exec .streamFinish s)

/-- R214 whole: LMS_LOAD counts CH_IDX up and, after the last channel, goes on to slice 0, channel 0. -/
def Obligations.LmsLoadCountsChannels : Prop :=
  ∀ s : State, Inv s → s.seq = .lmsLoad → ∃ t rec u, engineStep s = .next t ∧ exec (.lmsLoad rec) s = .next u ∧
    decode .lmsRecord (memBytes s.mem (s.regs.fbase.toNat + 8 + 16 * s.regs.chIdx.toNat) 16) = .ok (.lmsLoad rec) ∧
    t.lms = u.lms ∧
    (s.regs.chIdx.toNat + 1 = s.regs.fCh.toNat →
      t.seq = .sliceLoad ∧ t.regs = { s.regs with slIdx := 0#9, chIdx := 0#4 }) ∧
    (s.regs.chIdx.toNat + 1 ≠ s.regs.fCh.toNat →
      t.seq = .lmsLoad ∧ t.regs.chIdx.toNat = s.regs.chIdx.toNat + 1 ∧ t.regs = { s.regs with chIdx := t.regs.chIdx })

/-- R216 whole: a step in SAMPLE runs SAMPLE_STEP and FRAME_OUT; after a slot that is not the last the sequencer stays in
SAMPLE; after slot 19 it goes to the next channel's slice, then to the next slice index, and after the last slice to
FRAME_END. -/
def Obligations.SampleCountsSlotsChannelsSlices : Prop :=
  ∀ s t : State, Inv s → s.seq = .sample → engineStep s = .next t →
    (∃ u v, exec .sampleStep s = .next u ∧ exec .frameOut u = .next v ∧
      t.mem = v.mem ∧ t.lms = v.lms ∧ t.dp = v.dp) ∧
    (s.regs.j.toNat < 19 →
      t.seq = .sample ∧ t.regs.j.toNat = s.regs.j.toNat + 1 ∧ t.regs = { s.regs with j := t.regs.j }) ∧
    (s.regs.j.toNat = 19 → s.regs.chIdx.toNat + 1 < s.regs.fCh.toNat →
      t.seq = .sliceLoad ∧ t.regs.chIdx.toNat = s.regs.chIdx.toNat + 1 ∧
      t.regs = { s.regs with j := 20#5, chIdx := t.regs.chIdx }) ∧
    (s.regs.j.toNat = 19 → s.regs.chIdx.toNat + 1 = s.regs.fCh.toNat →
      t.regs.slIdx.toNat = s.regs.slIdx.toNat + 1 ∧
      t.regs = { s.regs with j := 20#5, chIdx := 0#4, slIdx := t.regs.slIdx } ∧
      (s.regs.slIdx.toNat + 1 < s.regs.fSlices.toNat → t.seq = .sliceLoad) ∧
      (s.regs.slIdx.toNat + 1 = s.regs.fSlices.toNat → t.seq = .frameEnd))

/-- The three invariants hold after reset. -/
def Obligations.ResetMeetsTheInvariant : Prop := Inv State.reset ∧ OutputInv State.reset ∧ WeightInv State.reset

/-- Every step keeps the invariant (R23, R27, R33, R60, R113, R151, R153, R156, R157, R183). -/
def Obligations.EveryStepKeepsTheInvariant : Prop :=
  ∀ s t : State, Inv s → step s = .next t → Inv t

/-- R66, R39: from the invariant the block never faults; a fault is a host's access to a byte that does not exist. -/
def Obligations.EngineNeverFaults : Prop :=
  ∀ (s : State) (f : Fault), Inv s → step s = .fault f →
    ∃ (a : Nat) (rest : List Turn), f = .outsideMem a ∧ s.params.memSize ≤ a ∧
      ((∃ v, s.schedule = .hostWrite a v :: rest) ∨ s.schedule = .hostRead a :: rest)

/-- R62, R79: every step keeps the accepted frames' output window, and the samples of the current frame placed so far,
clear of the input region; FRAME_OUT's refusal (log 16) sees to it. -/
def Obligations.EveryStepKeepsTheOutputClear : Prop :=
  ∀ s t : State, Inv s → OutputInv s → step s = .next t → OutputInv t

/-- R62, R78: an engine step changes no byte outside the output window of the frames accepted so far, and no byte of the
input region, whether it goes on, completes the decode or ends it in failure. -/
def Obligations.EngineWritesOnlyTheOutputWindow : Prop :=
  ∀ s t : State, Inv s → OutputInv s → engineStep s = .next t →
    (∀ x, ¬inAcceptedWindow s x → memByte t.mem x = memByte s.mem x) ∧
    (∀ x, inInputRegion s x = true → memByte t.mem x = memByte s.mem x)

/-- R211 whole: SEQ is IDLE exactly when BUSY = 0, the engine takes no step there, and it leaves IDLE only by a write to
CTRL with bit 0 = 1. -/
def Obligations.OnlyStartLeavesIdle : Prop :=
  ∀ s : State, Inv s → (s.seq = .idle ↔ s.status.busy = false) ∧
    (s.seq = .idle → engineStep s = .next s) ∧
    (s.seq = .idle → ∀ t, step s = .next t → t.seq ≠ .idle →
      ∃ (v : Word) (rest : List Turn), v.toNat % 2 = 1 ∧ s.schedule = .bus ⟨s.params.regBase, 32, true, v⟩ :: rest)

/-- R24 to R26, R76: the argument registers change only by WR_ARG on an idle block or by hardware reset; the parameters
never change (log 6). -/
def Obligations.ArgumentsStandWhileBusy : Prop :=
  ∀ s t : State, step s = .next t → t.params = s.params ∧
    (s.status.busy = true → s.probe = none → (∀ rest, s.schedule ≠ .hardReset :: rest) → t.args = s.args)

/-- R190: the triple of a success is never the sentinel. -/
def Obligations.SuccessIsNeverTheSentinel : Prop :=
  ∀ s t : State, Inv s → s.seq = .finish → engineStep s = .next t → t.status.error = false →
    1 ≤ t.results.samples.toNat ∧ t.results.samples.toNat ≤ s.regs.total.toNat ∧
    1 ≤ t.results.channels.toNat ∧ t.results.channels.toNat ≤ 8 ∧ t.results ≠ ⟨0#32, 0#4, 0#24⟩

/-- R183: an accepted frame moves FBASE on by at least 32 bytes and never past END. -/
def Obligations.FramesAdvanceWithinTheInput : Prop :=
  ∀ s : State, Inv s → s.seq = .frameEnd → ∃ t, engineStep s = .next t ∧
    s.regs.fbase.toNat + 32 ≤ t.regs.fbase.toNat ∧ t.regs.fbase.toNat ≤ t.regs.endp.toNat

/-- R183: every decode ends, in a number of sequencer steps linear in IN_LENGTH, unless it is refused for overlap (R79). -/
def Obligations.EveryDecodeEnds : Prop :=
  ∀ s : State, Inv s → s.status.busy = true → s.schedule = [] →
    ∃ k, k ≤ workLeft s ∧
      ((∃ t : State, Host.Core.run Sys2Proof.core k s = .next t ∧ t.seq = .idle ∧ t.status.done = true) ∨
       (∃ a, Host.Core.run Sys2Proof.core k s = .refused (.outputOverlapsInput a)))

/-- R181, R222: from its start the sequencer computes DecodeStream: the same result and output bytes on success, and on
failure the same kind, the sentinel and no change outside the failure window. The decode is inside the contract of R79: its
output window (R78, R244) shares no byte with its input region. -/
def Obligations.SequencerComputesDecodeStream : Prop :=
  ∀ s : State, Inv s → s.seq = .streamHdr → s.schedule = [] → outputClearOfInput s →
    ∃ k t, k ≤ 3 * s.args.inLength.toNat + 3 ∧ Host.Core.run Sys2Proof.core k s = .next t ∧ t.seq = .idle ∧
      (match refDecodeStream s.params s.args s.mem with
        | .success n c r m =>
          statusNumber t.status = 2 ∧ t.results.samples.toNat = n ∧ t.results.channels.toNat = c ∧
          t.results.rate.toNat = r ∧ ∀ x, memByte t.mem x = memByte m x
        | .failure kind window =>
          t.status = statusFailed kind ∧ t.results = ⟨0#32, 0#4, 0#24⟩ ∧
          ∀ x, x < s.args.outOffset.toNat ∨ s.args.outOffset.toNat + window ≤ x → memByte t.mem x = memByte s.mem x)

/-- R79, as the model refuses it (log 16): a decode whose output window (R78, R244) shares a byte with its input region is
refused, within the steps a decode takes. -/
def Obligations.OverlappingDecodeIsRefused : Prop :=
  ∀ s : State, Inv s → s.seq = .streamHdr → s.schedule = [] → ¬outputClearOfInput s →
    ∃ k a, k ≤ 3 * s.args.inLength.toNat + 3 ∧
      Host.Core.run Sys2Proof.core k s = .refused (.outputOverlapsInput a)

/-- R37, R39, R189: what a step does depends on no sequencer or LMS register the current decode has not written, nor on the
values between operations; so the value such a register has after reset (log 10) never matters. -/
def Obligations.DeadRegistersNeverMatter : Prop :=
  ∀ s t : State, Inv s → Inv t → liveView s = liveView t → agreeLive (step s) (step t)

/-! The outside. -/

/-- R270, R271: hardware reset puts STATUS, the argument and result registers and SEQ at their reset values, and changes no
byte of MEM outside the abandoned decode's output window (as far as frames were accepted, log 14). The unspecified
registers take the model's reset values (log 10). -/
def Obligations.HardwareResetRestoresTheRegisters : Prop :=
  ∀ (s : State) (rest : List Turn), s.probe = none → s.schedule = .hardReset :: rest →
    ∃ t, step s = .next t ∧ statusNumber t.status = 0 ∧ t.args = ⟨0#32, 0#32, 0#32⟩ ∧
      t.results = ⟨0#32, 0#4, 0#24⟩ ∧ t.seq = .idle ∧ t.params = s.params ∧ t.schedule = rest ∧
      (∀ x, ¬inAcceptedWindow s x → memByte t.mem x = memByte s.mem x)

/-- R280, D23, as the model refuses it (log 17): a host write to a byte of the input region while BUSY is refused; any other
host write of a byte of MEM stores the byte and changes nothing else. -/
def Obligations.HostWritesStoreOrAreRefused : Prop :=
  ∀ (s : State) (a : Nat) (v : Byte) (rest : List Turn), s.probe = none → s.schedule = .hostWrite a v :: rest →
    a < s.params.memSize →
    (s.status.busy = true → inInputRegion s a = true → step s = .refused (.inputChangedWhileBusy a)) ∧
    (s.status.busy = false ∨ inInputRegion s a = false → ∃ t, step s = .next t ∧
      memByte t.mem a = v ∧ (∀ x, x ≠ a → memByte t.mem x = memByte s.mem x) ∧
      t = { s with mem := t.mem, schedule := rest })

/-- R69, R73, R282: a host read of a byte of MEM completes and changes no byte. It answers the byte of MEM on an idle block
and, while BUSY, outside the running decode's output region; there it may be any value (93 U3), a free value in the model
(log 15). -/
def Obligations.HostReadsReturnTheByteWhenIdle : Prop :=
  ∀ (s : State) (a : Nat) (rest : List Turn), s.probe = none → s.schedule = .hostRead a :: rest →
    a < s.params.memSize →
    ∃ t, step s = .next t ∧
      (s.status.busy = false ∨ inOutputRegion s a = false → t.hostByte = memByte s.mem a ∧ t.freeCtr = s.freeCtr) ∧
      (inOutputRegion s a = true → t.hostByte = Config.freeByte s.freeCtr ∧ t.freeCtr = s.freeCtr + 1) ∧
      t = { s with hostByte := t.hostByte, freeCtr := t.freeCtr, schedule := rest }
end

