-- ==== Sys2Proof/Laws/Decode.lean ====
section
/-! SUPPORT. The decoder's and the encoder's small lemmas: byte lists and their values, lengths. -/

namespace Sys2Proof

@[simp] theorem beBytes_length (n v : Nat) : (beBytes n v).length = n := by
  induction n with
  | zero => rfl
  | succ n ih => simp [beBytes, ih]

/-- The bytes of a value read back as the value, modulo what the bytes hold. -/
theorem beNat_beBytes (n v : Nat) : beNat (beBytes n v) = v % 256 ^ n := by
  induction n with
  | zero => simp [beBytes, beNat, Nat.mod_one]
  | succ n ih =>
    simp only [beBytes, beNat, beBytes_length, ih, BitVec.toNat_ofNat]
    rw [show (2 : Nat) ^ 8 = 256 from rfl, show v % 256 ^ (n + 1) = v % (256 ^ n * 256) by rw [Nat.pow_succ], Nat.mod_mul]
    rw [Nat.add_comm]

/-- A list of bytes has a value its bytes can hold. -/
theorem beNat_lt (bs : List Byte) : beNat bs < 256 ^ bs.length := by
  induction bs with
  | nil => simp [beNat]
  | cons b bs ih =>
    have hb : b.toNat ≤ 255 := by have := b.isLt; omega
    simp only [beNat, List.length_cons, Nat.pow_succ]
    calc 256 ^ bs.length * b.toNat + beNat bs < 256 ^ bs.length * b.toNat + 256 ^ bs.length := by omega
      _ = 256 ^ bs.length * (b.toNat + 1) := (Nat.mul_succ _ _).symm
      _ ≤ 256 ^ bs.length * 256 := Nat.mul_le_mul_left _ (by omega)

/-- The bytes of a list's value are the list. -/
theorem beBytes_beNat (bs : List Byte) : beBytes bs.length (beNat bs) = bs := by
  induction bs with
  | nil => rfl
  | cons b bs ih =>
    have hlt := beNat_lt bs
    have hpos : 0 < 256 ^ bs.length := Nat.pow_pos (by decide)
    have hdiv : (256 ^ bs.length * b.toNat + beNat bs) / 256 ^ bs.length = b.toNat := by
      rw [Nat.mul_add_div hpos, Nat.div_eq_of_lt hlt, Nat.add_zero]
    have hskip : ∀ n m v : Nat, n ≤ m → beBytes n (256 ^ m * v + beNat bs) = beBytes n (beNat bs) := by
      intro n
      induction n with
      | zero => intros; rfl
      | succ n ihn =>
        intro m v h
        simp only [beBytes, ihn m v (by omega)]
        congr 1
        apply BitVec.eq_of_toNat_eq
        have : 256 ^ m * v = 256 ^ n * (256 * (256 ^ (m - n - 1) * v)) := by
          rw [show m = n + 1 + (m - n - 1) by omega, Nat.pow_add, Nat.pow_succ]
          simp only [Nat.mul_assoc]
          congr 4
          omega
        simp only [BitVec.toNat_ofNat, this]
        rw [Nat.mul_add_div (Nat.pow_pos (by decide))]
        omega
    simp only [List.length_cons, beBytes, beNat, hdiv, BitVec.ofNat_toNat, BitVec.setWidth_eq]
    rw [hskip _ _ _ (le_refl _), ih]

/-- Bytes of the selector's width decode as their value does. -/
theorem decode_of_length (sel : Selector) (bs : List Byte) (h : bs.length = sel.width) :
    decode sel bs = decodeValue sel (beNat bs) := by
  simp [decode, h]

/-- A value of the selector's width decodes through its bytes. -/
theorem decode_beBytes (sel : Selector) (v : Nat) (h : v < 256 ^ sel.width) :
    decode sel (beBytes sel.width v) = decodeValue sel v := by
  rw [decode_of_length _ _ (beBytes_length _ _), beNat_beBytes, Nat.mod_eq_of_lt h]

/-- Bytes of another length are refused by name. -/
theorem decode_badLength (sel : Selector) (bs : List Byte) (h : bs.length ≠ sel.width) :
    decode sel bs = .error .badLength := by
  simp [decode, h]

/-! The three fields of a BUS_41 value (R96). -/

@[simp] theorem busWord_offset (b : Bool) (off : BitVec 8) (v : Word) : (busWord b off v).extractLsb' 32 8 = off := by
  unfold busWord
  ext i hi
  rw [BitVec.getElem_extractLsb', BitVec.getLsbD_append, BitVec.getLsbD_append]
  have h : 32 + i - 32 = i := by omega
  simp [h, hi]

@[simp] theorem busWord_data (b : Bool) (off : BitVec 8) (v : Word) : (busWord b off v).extractLsb' 0 32 = v := by
  unfold busWord
  ext i hi
  rw [BitVec.getElem_extractLsb', BitVec.getLsbD_append]
  simp [hi]

@[simp] theorem busWord_direction (b : Bool) (off : BitVec 8) (v : Word) : (busWord b off v).getLsbD 40 = b := by
  unfold busWord
  rw [BitVec.getLsbD_append, BitVec.getLsbD_append]
  cases b <;> rfl

/-- A register access at an aligned offset decodes by its direction and offset (R92). -/
theorem decodeBus_busWord (b : Bool) (off : BitVec 8) (v : Word) (h : off.toNat % 4 = 0) :
    decodeBus (busWord b off v) = .ok (if b then decodeWrite off v else decodeRead off) := by
  unfold decodeBus
  simp only [busWord_offset, busWord_data, busWord_direction, h]
  cases b <;> simp

/-- A register access at another offset is outside the interface (R28). -/
theorem decodeBus_misaligned (b : Bool) (off : BitVec 8) (v : Word) (h : off.toNat % 4 ≠ 0) :
    decodeBus (busWord b off v) = .error .misalignedOffset := by
  unfold decodeBus
  simp only [busWord_offset]
  rw [if_pos h]

end Sys2Proof
end

