-- ==== Sys2Proof/Laws/State.lean ====
section
/-! SUPPORT. One lemma per field per field update of State. -/

namespace Sys2Proof.Machine

open Sys2Proof

@[simp] theorem State.setMem_params (s : State) (x : Memory) : (s.setMem x).params = s.params := rfl
@[simp] theorem State.setMem_mem (s : State) (x : Memory) : (s.setMem x).mem = x := rfl
@[simp] theorem State.setMem_args (s : State) (x : Memory) : (s.setMem x).args = s.args := rfl
@[simp] theorem State.setMem_status (s : State) (x : Memory) : (s.setMem x).status = s.status := rfl
@[simp] theorem State.setMem_results (s : State) (x : Memory) : (s.setMem x).results = s.results := rfl
@[simp] theorem State.setMem_lms (s : State) (x : Memory) : (s.setMem x).lms = s.lms := rfl
@[simp] theorem State.setMem_seq (s : State) (x : Memory) : (s.setMem x).seq = s.seq := rfl
@[simp] theorem State.setMem_regs (s : State) (x : Memory) : (s.setMem x).regs = s.regs := rfl
@[simp] theorem State.setMem_dp (s : State) (x : Memory) : (s.setMem x).dp = s.dp := rfl
@[simp] theorem State.setMem_busData (s : State) (x : Memory) : (s.setMem x).busData = s.busData := rfl
@[simp] theorem State.setMem_hostByte (s : State) (x : Memory) : (s.setMem x).hostByte = s.hostByte := rfl
@[simp] theorem State.setMem_schedule (s : State) (x : Memory) : (s.setMem x).schedule = s.schedule := rfl
@[simp] theorem State.setMem_probe (s : State) (x : Memory) : (s.setMem x).probe = s.probe := rfl
@[simp] theorem State.setMem_freeCtr (s : State) (x : Memory) : (s.setMem x).freeCtr = s.freeCtr := rfl

@[simp] theorem State.setArgs_params (s : State) (x : ArgRegs) : (s.setArgs x).params = s.params := rfl
@[simp] theorem State.setArgs_mem (s : State) (x : ArgRegs) : (s.setArgs x).mem = s.mem := rfl
@[simp] theorem State.setArgs_args (s : State) (x : ArgRegs) : (s.setArgs x).args = x := rfl
@[simp] theorem State.setArgs_status (s : State) (x : ArgRegs) : (s.setArgs x).status = s.status := rfl
@[simp] theorem State.setArgs_results (s : State) (x : ArgRegs) : (s.setArgs x).results = s.results := rfl
@[simp] theorem State.setArgs_lms (s : State) (x : ArgRegs) : (s.setArgs x).lms = s.lms := rfl
@[simp] theorem State.setArgs_seq (s : State) (x : ArgRegs) : (s.setArgs x).seq = s.seq := rfl
@[simp] theorem State.setArgs_regs (s : State) (x : ArgRegs) : (s.setArgs x).regs = s.regs := rfl
@[simp] theorem State.setArgs_dp (s : State) (x : ArgRegs) : (s.setArgs x).dp = s.dp := rfl
@[simp] theorem State.setArgs_busData (s : State) (x : ArgRegs) : (s.setArgs x).busData = s.busData := rfl
@[simp] theorem State.setArgs_hostByte (s : State) (x : ArgRegs) : (s.setArgs x).hostByte = s.hostByte := rfl
@[simp] theorem State.setArgs_schedule (s : State) (x : ArgRegs) : (s.setArgs x).schedule = s.schedule := rfl
@[simp] theorem State.setArgs_probe (s : State) (x : ArgRegs) : (s.setArgs x).probe = s.probe := rfl
@[simp] theorem State.setArgs_freeCtr (s : State) (x : ArgRegs) : (s.setArgs x).freeCtr = s.freeCtr := rfl

@[simp] theorem State.setStatus_params (s : State) (x : Status) : (s.setStatus x).params = s.params := rfl
@[simp] theorem State.setStatus_mem (s : State) (x : Status) : (s.setStatus x).mem = s.mem := rfl
@[simp] theorem State.setStatus_args (s : State) (x : Status) : (s.setStatus x).args = s.args := rfl
@[simp] theorem State.setStatus_status (s : State) (x : Status) : (s.setStatus x).status = x := rfl
@[simp] theorem State.setStatus_results (s : State) (x : Status) : (s.setStatus x).results = s.results := rfl
@[simp] theorem State.setStatus_lms (s : State) (x : Status) : (s.setStatus x).lms = s.lms := rfl
@[simp] theorem State.setStatus_seq (s : State) (x : Status) : (s.setStatus x).seq = s.seq := rfl
@[simp] theorem State.setStatus_regs (s : State) (x : Status) : (s.setStatus x).regs = s.regs := rfl
@[simp] theorem State.setStatus_dp (s : State) (x : Status) : (s.setStatus x).dp = s.dp := rfl
@[simp] theorem State.setStatus_busData (s : State) (x : Status) : (s.setStatus x).busData = s.busData := rfl
@[simp] theorem State.setStatus_hostByte (s : State) (x : Status) : (s.setStatus x).hostByte = s.hostByte := rfl
@[simp] theorem State.setStatus_schedule (s : State) (x : Status) : (s.setStatus x).schedule = s.schedule := rfl
@[simp] theorem State.setStatus_probe (s : State) (x : Status) : (s.setStatus x).probe = s.probe := rfl
@[simp] theorem State.setStatus_freeCtr (s : State) (x : Status) : (s.setStatus x).freeCtr = s.freeCtr := rfl

@[simp] theorem State.setResults_params (s : State) (x : Results) : (s.setResults x).params = s.params := rfl
@[simp] theorem State.setResults_mem (s : State) (x : Results) : (s.setResults x).mem = s.mem := rfl
@[simp] theorem State.setResults_args (s : State) (x : Results) : (s.setResults x).args = s.args := rfl
@[simp] theorem State.setResults_status (s : State) (x : Results) : (s.setResults x).status = s.status := rfl
@[simp] theorem State.setResults_results (s : State) (x : Results) : (s.setResults x).results = x := rfl
@[simp] theorem State.setResults_lms (s : State) (x : Results) : (s.setResults x).lms = s.lms := rfl
@[simp] theorem State.setResults_seq (s : State) (x : Results) : (s.setResults x).seq = s.seq := rfl
@[simp] theorem State.setResults_regs (s : State) (x : Results) : (s.setResults x).regs = s.regs := rfl
@[simp] theorem State.setResults_dp (s : State) (x : Results) : (s.setResults x).dp = s.dp := rfl
@[simp] theorem State.setResults_busData (s : State) (x : Results) : (s.setResults x).busData = s.busData := rfl
@[simp] theorem State.setResults_hostByte (s : State) (x : Results) : (s.setResults x).hostByte = s.hostByte := rfl
@[simp] theorem State.setResults_schedule (s : State) (x : Results) : (s.setResults x).schedule = s.schedule := rfl
@[simp] theorem State.setResults_probe (s : State) (x : Results) : (s.setResults x).probe = s.probe := rfl
@[simp] theorem State.setResults_freeCtr (s : State) (x : Results) : (s.setResults x).freeCtr = s.freeCtr := rfl

@[simp] theorem State.setLms_params (s : State) (x : Vector Lms 8) : (s.setLms x).params = s.params := rfl
@[simp] theorem State.setLms_mem (s : State) (x : Vector Lms 8) : (s.setLms x).mem = s.mem := rfl
@[simp] theorem State.setLms_args (s : State) (x : Vector Lms 8) : (s.setLms x).args = s.args := rfl
@[simp] theorem State.setLms_status (s : State) (x : Vector Lms 8) : (s.setLms x).status = s.status := rfl
@[simp] theorem State.setLms_results (s : State) (x : Vector Lms 8) : (s.setLms x).results = s.results := rfl
@[simp] theorem State.setLms_lms (s : State) (x : Vector Lms 8) : (s.setLms x).lms = x := rfl
@[simp] theorem State.setLms_seq (s : State) (x : Vector Lms 8) : (s.setLms x).seq = s.seq := rfl
@[simp] theorem State.setLms_regs (s : State) (x : Vector Lms 8) : (s.setLms x).regs = s.regs := rfl
@[simp] theorem State.setLms_dp (s : State) (x : Vector Lms 8) : (s.setLms x).dp = s.dp := rfl
@[simp] theorem State.setLms_busData (s : State) (x : Vector Lms 8) : (s.setLms x).busData = s.busData := rfl
@[simp] theorem State.setLms_hostByte (s : State) (x : Vector Lms 8) : (s.setLms x).hostByte = s.hostByte := rfl
@[simp] theorem State.setLms_schedule (s : State) (x : Vector Lms 8) : (s.setLms x).schedule = s.schedule := rfl
@[simp] theorem State.setLms_probe (s : State) (x : Vector Lms 8) : (s.setLms x).probe = s.probe := rfl
@[simp] theorem State.setLms_freeCtr (s : State) (x : Vector Lms 8) : (s.setLms x).freeCtr = s.freeCtr := rfl

@[simp] theorem State.setSeq_params (s : State) (x : Seq) : (s.setSeq x).params = s.params := rfl
@[simp] theorem State.setSeq_mem (s : State) (x : Seq) : (s.setSeq x).mem = s.mem := rfl
@[simp] theorem State.setSeq_args (s : State) (x : Seq) : (s.setSeq x).args = s.args := rfl
@[simp] theorem State.setSeq_status (s : State) (x : Seq) : (s.setSeq x).status = s.status := rfl
@[simp] theorem State.setSeq_results (s : State) (x : Seq) : (s.setSeq x).results = s.results := rfl
@[simp] theorem State.setSeq_lms (s : State) (x : Seq) : (s.setSeq x).lms = s.lms := rfl
@[simp] theorem State.setSeq_seq (s : State) (x : Seq) : (s.setSeq x).seq = x := rfl
@[simp] theorem State.setSeq_regs (s : State) (x : Seq) : (s.setSeq x).regs = s.regs := rfl
@[simp] theorem State.setSeq_dp (s : State) (x : Seq) : (s.setSeq x).dp = s.dp := rfl
@[simp] theorem State.setSeq_busData (s : State) (x : Seq) : (s.setSeq x).busData = s.busData := rfl
@[simp] theorem State.setSeq_hostByte (s : State) (x : Seq) : (s.setSeq x).hostByte = s.hostByte := rfl
@[simp] theorem State.setSeq_schedule (s : State) (x : Seq) : (s.setSeq x).schedule = s.schedule := rfl
@[simp] theorem State.setSeq_probe (s : State) (x : Seq) : (s.setSeq x).probe = s.probe := rfl
@[simp] theorem State.setSeq_freeCtr (s : State) (x : Seq) : (s.setSeq x).freeCtr = s.freeCtr := rfl

@[simp] theorem State.setRegs_params (s : State) (x : SeqRegs) : (s.setRegs x).params = s.params := rfl
@[simp] theorem State.setRegs_mem (s : State) (x : SeqRegs) : (s.setRegs x).mem = s.mem := rfl
@[simp] theorem State.setRegs_args (s : State) (x : SeqRegs) : (s.setRegs x).args = s.args := rfl
@[simp] theorem State.setRegs_status (s : State) (x : SeqRegs) : (s.setRegs x).status = s.status := rfl
@[simp] theorem State.setRegs_results (s : State) (x : SeqRegs) : (s.setRegs x).results = s.results := rfl
@[simp] theorem State.setRegs_lms (s : State) (x : SeqRegs) : (s.setRegs x).lms = s.lms := rfl
@[simp] theorem State.setRegs_seq (s : State) (x : SeqRegs) : (s.setRegs x).seq = s.seq := rfl
@[simp] theorem State.setRegs_regs (s : State) (x : SeqRegs) : (s.setRegs x).regs = x := rfl
@[simp] theorem State.setRegs_dp (s : State) (x : SeqRegs) : (s.setRegs x).dp = s.dp := rfl
@[simp] theorem State.setRegs_busData (s : State) (x : SeqRegs) : (s.setRegs x).busData = s.busData := rfl
@[simp] theorem State.setRegs_hostByte (s : State) (x : SeqRegs) : (s.setRegs x).hostByte = s.hostByte := rfl
@[simp] theorem State.setRegs_schedule (s : State) (x : SeqRegs) : (s.setRegs x).schedule = s.schedule := rfl
@[simp] theorem State.setRegs_probe (s : State) (x : SeqRegs) : (s.setRegs x).probe = s.probe := rfl
@[simp] theorem State.setRegs_freeCtr (s : State) (x : SeqRegs) : (s.setRegs x).freeCtr = s.freeCtr := rfl

@[simp] theorem State.setDp_params (s : State) (x : Datapath) : (s.setDp x).params = s.params := rfl
@[simp] theorem State.setDp_mem (s : State) (x : Datapath) : (s.setDp x).mem = s.mem := rfl
@[simp] theorem State.setDp_args (s : State) (x : Datapath) : (s.setDp x).args = s.args := rfl
@[simp] theorem State.setDp_status (s : State) (x : Datapath) : (s.setDp x).status = s.status := rfl
@[simp] theorem State.setDp_results (s : State) (x : Datapath) : (s.setDp x).results = s.results := rfl
@[simp] theorem State.setDp_lms (s : State) (x : Datapath) : (s.setDp x).lms = s.lms := rfl
@[simp] theorem State.setDp_seq (s : State) (x : Datapath) : (s.setDp x).seq = s.seq := rfl
@[simp] theorem State.setDp_regs (s : State) (x : Datapath) : (s.setDp x).regs = s.regs := rfl
@[simp] theorem State.setDp_dp (s : State) (x : Datapath) : (s.setDp x).dp = x := rfl
@[simp] theorem State.setDp_busData (s : State) (x : Datapath) : (s.setDp x).busData = s.busData := rfl
@[simp] theorem State.setDp_hostByte (s : State) (x : Datapath) : (s.setDp x).hostByte = s.hostByte := rfl
@[simp] theorem State.setDp_schedule (s : State) (x : Datapath) : (s.setDp x).schedule = s.schedule := rfl
@[simp] theorem State.setDp_probe (s : State) (x : Datapath) : (s.setDp x).probe = s.probe := rfl
@[simp] theorem State.setDp_freeCtr (s : State) (x : Datapath) : (s.setDp x).freeCtr = s.freeCtr := rfl

@[simp] theorem State.setBusData_params (s : State) (x : Word) : (s.setBusData x).params = s.params := rfl
@[simp] theorem State.setBusData_mem (s : State) (x : Word) : (s.setBusData x).mem = s.mem := rfl
@[simp] theorem State.setBusData_args (s : State) (x : Word) : (s.setBusData x).args = s.args := rfl
@[simp] theorem State.setBusData_status (s : State) (x : Word) : (s.setBusData x).status = s.status := rfl
@[simp] theorem State.setBusData_results (s : State) (x : Word) : (s.setBusData x).results = s.results := rfl
@[simp] theorem State.setBusData_lms (s : State) (x : Word) : (s.setBusData x).lms = s.lms := rfl
@[simp] theorem State.setBusData_seq (s : State) (x : Word) : (s.setBusData x).seq = s.seq := rfl
@[simp] theorem State.setBusData_regs (s : State) (x : Word) : (s.setBusData x).regs = s.regs := rfl
@[simp] theorem State.setBusData_dp (s : State) (x : Word) : (s.setBusData x).dp = s.dp := rfl
@[simp] theorem State.setBusData_busData (s : State) (x : Word) : (s.setBusData x).busData = x := rfl
@[simp] theorem State.setBusData_hostByte (s : State) (x : Word) : (s.setBusData x).hostByte = s.hostByte := rfl
@[simp] theorem State.setBusData_schedule (s : State) (x : Word) : (s.setBusData x).schedule = s.schedule := rfl
@[simp] theorem State.setBusData_probe (s : State) (x : Word) : (s.setBusData x).probe = s.probe := rfl
@[simp] theorem State.setBusData_freeCtr (s : State) (x : Word) : (s.setBusData x).freeCtr = s.freeCtr := rfl

@[simp] theorem State.setHostByte_params (s : State) (x : Byte) : (s.setHostByte x).params = s.params := rfl
@[simp] theorem State.setHostByte_mem (s : State) (x : Byte) : (s.setHostByte x).mem = s.mem := rfl
@[simp] theorem State.setHostByte_args (s : State) (x : Byte) : (s.setHostByte x).args = s.args := rfl
@[simp] theorem State.setHostByte_status (s : State) (x : Byte) : (s.setHostByte x).status = s.status := rfl
@[simp] theorem State.setHostByte_results (s : State) (x : Byte) : (s.setHostByte x).results = s.results := rfl
@[simp] theorem State.setHostByte_lms (s : State) (x : Byte) : (s.setHostByte x).lms = s.lms := rfl
@[simp] theorem State.setHostByte_seq (s : State) (x : Byte) : (s.setHostByte x).seq = s.seq := rfl
@[simp] theorem State.setHostByte_regs (s : State) (x : Byte) : (s.setHostByte x).regs = s.regs := rfl
@[simp] theorem State.setHostByte_dp (s : State) (x : Byte) : (s.setHostByte x).dp = s.dp := rfl
@[simp] theorem State.setHostByte_busData (s : State) (x : Byte) : (s.setHostByte x).busData = s.busData := rfl
@[simp] theorem State.setHostByte_hostByte (s : State) (x : Byte) : (s.setHostByte x).hostByte = x := rfl
@[simp] theorem State.setHostByte_schedule (s : State) (x : Byte) : (s.setHostByte x).schedule = s.schedule := rfl
@[simp] theorem State.setHostByte_probe (s : State) (x : Byte) : (s.setHostByte x).probe = s.probe := rfl
@[simp] theorem State.setHostByte_freeCtr (s : State) (x : Byte) : (s.setHostByte x).freeCtr = s.freeCtr := rfl

@[simp] theorem State.setSchedule_params (s : State) (x : List Turn) : (s.setSchedule x).params = s.params := rfl
@[simp] theorem State.setSchedule_mem (s : State) (x : List Turn) : (s.setSchedule x).mem = s.mem := rfl
@[simp] theorem State.setSchedule_args (s : State) (x : List Turn) : (s.setSchedule x).args = s.args := rfl
@[simp] theorem State.setSchedule_status (s : State) (x : List Turn) : (s.setSchedule x).status = s.status := rfl
@[simp] theorem State.setSchedule_results (s : State) (x : List Turn) : (s.setSchedule x).results = s.results := rfl
@[simp] theorem State.setSchedule_lms (s : State) (x : List Turn) : (s.setSchedule x).lms = s.lms := rfl
@[simp] theorem State.setSchedule_seq (s : State) (x : List Turn) : (s.setSchedule x).seq = s.seq := rfl
@[simp] theorem State.setSchedule_regs (s : State) (x : List Turn) : (s.setSchedule x).regs = s.regs := rfl
@[simp] theorem State.setSchedule_dp (s : State) (x : List Turn) : (s.setSchedule x).dp = s.dp := rfl
@[simp] theorem State.setSchedule_busData (s : State) (x : List Turn) : (s.setSchedule x).busData = s.busData := rfl
@[simp] theorem State.setSchedule_hostByte (s : State) (x : List Turn) : (s.setSchedule x).hostByte = s.hostByte := rfl
@[simp] theorem State.setSchedule_schedule (s : State) (x : List Turn) : (s.setSchedule x).schedule = x := rfl
@[simp] theorem State.setSchedule_probe (s : State) (x : List Turn) : (s.setSchedule x).probe = s.probe := rfl
@[simp] theorem State.setSchedule_freeCtr (s : State) (x : List Turn) : (s.setSchedule x).freeCtr = s.freeCtr := rfl

@[simp] theorem State.setProbe_params (s : State) (x : Option Probe) : (s.setProbe x).params = s.params := rfl
@[simp] theorem State.setProbe_mem (s : State) (x : Option Probe) : (s.setProbe x).mem = s.mem := rfl
@[simp] theorem State.setProbe_args (s : State) (x : Option Probe) : (s.setProbe x).args = s.args := rfl
@[simp] theorem State.setProbe_status (s : State) (x : Option Probe) : (s.setProbe x).status = s.status := rfl
@[simp] theorem State.setProbe_results (s : State) (x : Option Probe) : (s.setProbe x).results = s.results := rfl
@[simp] theorem State.setProbe_lms (s : State) (x : Option Probe) : (s.setProbe x).lms = s.lms := rfl
@[simp] theorem State.setProbe_seq (s : State) (x : Option Probe) : (s.setProbe x).seq = s.seq := rfl
@[simp] theorem State.setProbe_regs (s : State) (x : Option Probe) : (s.setProbe x).regs = s.regs := rfl
@[simp] theorem State.setProbe_dp (s : State) (x : Option Probe) : (s.setProbe x).dp = s.dp := rfl
@[simp] theorem State.setProbe_busData (s : State) (x : Option Probe) : (s.setProbe x).busData = s.busData := rfl
@[simp] theorem State.setProbe_hostByte (s : State) (x : Option Probe) : (s.setProbe x).hostByte = s.hostByte := rfl
@[simp] theorem State.setProbe_schedule (s : State) (x : Option Probe) : (s.setProbe x).schedule = s.schedule := rfl
@[simp] theorem State.setProbe_probe (s : State) (x : Option Probe) : (s.setProbe x).probe = x := rfl
@[simp] theorem State.setProbe_freeCtr (s : State) (x : Option Probe) : (s.setProbe x).freeCtr = s.freeCtr := rfl

@[simp] theorem State.setFreeCtr_params (s : State) (x : Nat) : (s.setFreeCtr x).params = s.params := rfl
@[simp] theorem State.setFreeCtr_mem (s : State) (x : Nat) : (s.setFreeCtr x).mem = s.mem := rfl
@[simp] theorem State.setFreeCtr_args (s : State) (x : Nat) : (s.setFreeCtr x).args = s.args := rfl
@[simp] theorem State.setFreeCtr_status (s : State) (x : Nat) : (s.setFreeCtr x).status = s.status := rfl
@[simp] theorem State.setFreeCtr_results (s : State) (x : Nat) : (s.setFreeCtr x).results = s.results := rfl
@[simp] theorem State.setFreeCtr_lms (s : State) (x : Nat) : (s.setFreeCtr x).lms = s.lms := rfl
@[simp] theorem State.setFreeCtr_seq (s : State) (x : Nat) : (s.setFreeCtr x).seq = s.seq := rfl
@[simp] theorem State.setFreeCtr_regs (s : State) (x : Nat) : (s.setFreeCtr x).regs = s.regs := rfl
@[simp] theorem State.setFreeCtr_dp (s : State) (x : Nat) : (s.setFreeCtr x).dp = s.dp := rfl
@[simp] theorem State.setFreeCtr_busData (s : State) (x : Nat) : (s.setFreeCtr x).busData = s.busData := rfl
@[simp] theorem State.setFreeCtr_hostByte (s : State) (x : Nat) : (s.setFreeCtr x).hostByte = s.hostByte := rfl
@[simp] theorem State.setFreeCtr_schedule (s : State) (x : Nat) : (s.setFreeCtr x).schedule = s.schedule := rfl
@[simp] theorem State.setFreeCtr_probe (s : State) (x : Nat) : (s.setFreeCtr x).probe = s.probe := rfl
@[simp] theorem State.setFreeCtr_freeCtr (s : State) (x : Nat) : (s.setFreeCtr x).freeCtr = x := rfl

end Sys2Proof.Machine
end

