-- ==== Sys2Proof/Laws/Memory.lean ====
section
/-! SUPPORT. Memory: a read after a write, what a write leaves alone, and that every memory operation keeps the
canonical form and stays inside MEM. -/

namespace Sys2Proof.Machine

open Sys2Proof

theorem memByte_filter (m : Memory) (x a : Nat) :
    memByte (m.filter fun c => c.1 != x) a = if a = x then unlistedByte else memByte m a := by
  induction m with
  | nil => simp [memByte]
  | cons c m ih =>
    obtain ⟨b, v⟩ := c
    by_cases hb : b = x
    · subst hb
      rw [List.filter_cons_of_neg (by simp), ih]
      by_cases ha : a = b
      · simp [ha]
      · simp [memByte, ha, Ne.symm ha]
    · rw [List.filter_cons_of_pos (by simpa using hb)]
      simp only [memByte, ih]
      by_cases ha : b = a
      · have : a ≠ x := ha ▸ hb
        simp [ha, this]
      · simp [ha]

theorem memByte_memInsert (m : Memory) (x a : Nat) (v : Byte) (h : ∀ c ∈ m, c.1 ≠ x) :
    memByte (memInsert m x v) a = if a = x then v else memByte m a := by
  induction m with
  | nil =>
    by_cases ha : a = x
    · simp [memInsert, memByte, ha]
    · simp [memInsert, memByte, ha, Ne.symm ha]
  | cons c m ih =>
    obtain ⟨b, w⟩ := c
    have hb : b ≠ x := h (b, w) (by simp)
    have ih := ih fun c hc => h c (by simp [hc])
    simp only [memInsert]
    split
    · simp only [memByte, ih]
      by_cases ha : b = a
      · have : a ≠ x := ha ▸ hb
        simp [ha, this]
      · simp [ha]
    · by_cases ha : a = x
      · simp [memByte, ha]
      · simp [memByte, ha, Ne.symm ha]

theorem mem_filter_ne (m : Memory) (x : Nat) : ∀ c ∈ (m.filter fun c => c.1 != x), c.1 ≠ x := by
  intro c hc
  simpa using (List.mem_filter.mp hc).2

/-- A read after a write: the written byte there, the old byte elsewhere. -/
theorem memByte_memSet (m : Memory) (x a : Nat) (v : Byte) :
    memByte (memSet m x v) a = if a = x then v else memByte m a := by
  unfold memSet
  split
  · next h => rw [memByte_filter, h]
  · rw [memByte_memInsert _ _ _ _ (mem_filter_ne m x), memByte_filter]
    split <;> simp [*]

theorem memWf_filter (m : Memory) (x : Nat) (h : m.wf = true) : (Memory.wf (m.filter fun c => c.1 != x)) = true := by
  induction m with
  | nil => exact h
  | cons c m ih =>
    obtain ⟨b, v⟩ := c
    simp only [Memory.wf, Bool.and_eq_true] at h
    by_cases hb : b = x
    · rw [List.filter_cons_of_neg (by simp [hb])]
      exact ih h.2
    · rw [List.filter_cons_of_pos (by simpa using hb)]
      simp only [Memory.wf, Bool.and_eq_true, ih h.2, h.1.1, true_and, and_true]
      rw [List.all_eq_true] at h ⊢
      exact fun c hc => h.1.2 c (List.mem_filter.mp hc).1

theorem mem_memInsert (m : Memory) (x : Nat) (v : Byte) (c : Host.Cell) (h : c ∈ memInsert m x v) :
    c = (x, v) ∨ c ∈ m := by
  induction m with
  | nil => simpa [memInsert] using h
  | cons d m ih =>
    simp only [memInsert] at h
    split at h
    · rcases List.mem_cons.mp h with h | h
      · exact .inr (by simp [h])
      · rcases ih h with h | h
        · exact .inl h
        · exact .inr (by simp [h])
    · simpa using h

theorem memWf_memInsert (m : Memory) (x : Nat) (v : Byte) (hv : v ≠ unlistedByte) (hx : ∀ c ∈ m, c.1 ≠ x)
    (h : m.wf = true) : (memInsert m x v).wf = true := by
  induction m with
  | nil => simpa [memInsert, Memory.wf] using hv
  | cons c m ih =>
    obtain ⟨b, w⟩ := c
    have hb : b ≠ x := hx (b, w) (by simp)
    have h' := h
    simp only [Memory.wf, Bool.and_eq_true, List.all_eq_true, decide_eq_true_eq] at h
    simp only [memInsert]
    split
    · next hlt =>
      simp only [Memory.wf, Bool.and_eq_true, List.all_eq_true, decide_eq_true_eq,
        ih (fun c hc => hx c (by simp [hc])) h.2, h.1.1, true_and, and_true]
      intro c hc
      rcases mem_memInsert _ _ _ _ hc with rfl | hc
      · exact hlt
      · exact h.1.2 c hc
    · next hge =>
      rw [Memory.wf, h', Bool.and_eq_true, Bool.and_eq_true]
      refine ⟨⟨by simpa using hv, ?_⟩, rfl⟩
      simp only [List.all_eq_true, decide_eq_true_eq]
      intro c hc
      rcases List.mem_cons.mp hc with rfl | hc
      · exact lt_of_le_of_ne (Nat.le_of_not_lt hge) hb.symm
      · exact lt_trans (lt_of_le_of_ne (Nat.le_of_not_lt hge) hb.symm) (h.1.2 c hc)

/-- A byte write keeps the canonical form. -/
theorem memWf_memSet (m : Memory) (x : Nat) (v : Byte) (h : m.wf = true) : (memSet m x v).wf = true := by
  unfold memSet
  split
  · exact memWf_filter m x h
  · next hv => exact memWf_memInsert _ x v hv (mem_filter_ne m x) (memWf_filter m x h)

theorem memWf_memStore (m : Memory) (x : Nat) (bs : List Byte) (h : m.wf = true) : (memStore m x bs).wf = true := by
  induction bs generalizing m x with
  | nil => exact h
  | cons b bs ih => exact ih _ _ (memWf_memSet m x b h)

theorem memWf_memWrite16 (o : Config.ByteOrder) (m : Memory) (x : Nat) (v : Sample) (h : m.wf = true) :
    (memWrite16 o m x v).wf = true := memWf_memStore m x _ h

theorem memWf_memFree (m : Memory) (x k n : Nat) (h : m.wf = true) : (memFree m x k n).wf = true := by
  induction n generalizing m x k with
  | zero => exact h
  | succ n ih => exact ih _ _ _ (memWf_memSet m x _ h)

/-- Where every listed address lies, an address written into being no exception. -/
theorem mem_memSet (m : Memory) (x : Nat) (v : Byte) (c : Host.Cell) (h : c ∈ memSet m x v) :
    c.1 = x ∨ c ∈ m := by
  unfold memSet at h
  split at h
  · exact .inr (List.mem_filter.mp h).1
  · rcases mem_memInsert _ _ _ _ h with rfl | h
    · exact .inl rfl
    · exact .inr (List.mem_filter.mp h).1

theorem mem_memStore (m : Memory) (x : Nat) (bs : List Byte) (c : Host.Cell) (h : c ∈ memStore m x bs) :
    (x ≤ c.1 ∧ c.1 < x + bs.length) ∨ c ∈ m := by
  induction bs generalizing m x with
  | nil => exact .inr h
  | cons b bs ih =>
    rcases ih _ _ h with h | h
    · exact .inl ⟨by omega, by simp only [List.length_cons]; omega⟩
    · rcases mem_memSet _ _ _ _ h with h | h
      · exact .inl ⟨by omega, by simp only [List.length_cons]; omega⟩
      · exact .inr h

theorem mem_memFree (m : Memory) (x k n : Nat) (c : Host.Cell) (h : c ∈ memFree m x k n) :
    (x ≤ c.1 ∧ c.1 < x + n) ∨ c ∈ m := by
  induction n generalizing m x k with
  | zero => exact .inr h
  | succ n ih =>
    rcases ih _ _ _ h with h | h
    · exact .inl ⟨by omega, by omega⟩
    · rcases mem_memSet _ _ _ _ h with h | h
      · exact .inl ⟨by omega, by omega⟩
      · exact .inr h

/-- A store changes no byte outside its own. -/
theorem memByte_memStore_outside (m : Memory) (x a : Nat) (bs : List Byte) (h : a < x ∨ x + bs.length ≤ a) :
    memByte (memStore m x bs) a = memByte m a := by
  induction bs generalizing m x with
  | nil => rfl
  | cons b bs ih =>
    simp only [List.length_cons] at h
    rw [memStore, ih _ _ (by omega), memByte_memSet, if_neg (by omega)]

/-- A store's own bytes. -/
theorem memByte_memStore_inside (m : Memory) (x i : Nat) (bs : List Byte) (h : i < bs.length) :
    memByte (memStore m x bs) (x + i) = bs[i] := by
  induction bs generalizing m x i with
  | nil => simp at h
  | cons b bs ih =>
    cases i with
    | zero => rw [memStore, memByte_memStore_outside _ _ _ _ (by omega), memByte_memSet]; simp
    | succ i =>
      have := ih (memSet m x b) (x + 1) i (by simpa using h)
      rw [memStore, show x + (i + 1) = x + 1 + i by omega, this]
      simp

/-- Freed bytes leave the others alone. -/
theorem memByte_memFree_outside (m : Memory) (x k n a : Nat) (h : a < x ∨ x + n ≤ a) :
    memByte (memFree m x k n) a = memByte m a := by
  induction n generalizing m x k with
  | zero => rfl
  | succ n ih => rw [memFree, ih _ _ _ (by omega), memByte_memSet, if_neg (by omega)]

/-- A freed byte holds its free value. -/
theorem memByte_memFree_inside (m : Memory) (x k n i : Nat) (h : i < n) :
    memByte (memFree m x k n) (x + i) = Config.freeByte (k + i) := by
  induction n generalizing m x k i with
  | zero => omega
  | succ n ih =>
    cases i with
    | zero => rw [memFree, memByte_memFree_outside _ _ _ _ _ (by omega), memByte_memSet]; simp
    | succ i =>
      rw [memFree, show x + (i + 1) = x + 1 + i by omega, ih _ _ _ _ (by omega)]
      congr 1; omega

@[simp] theorem sampleBytes_length (o : Config.ByteOrder) (v : Sample) : (sampleBytes o v).length = 2 := by
  cases o <;> rfl

/-- MemWrite changes its two bytes alone. -/
theorem memByte_memWrite16_outside (o : Config.ByteOrder) (m : Memory) (x a : Nat) (v : Sample)
    (h : a < x ∨ x + 2 ≤ a) : memByte (memWrite16 o m x v) a = memByte m a :=
  memByte_memStore_outside m x a _ (by simpa using h)

@[simp] theorem memBytes_length (m : Memory) (a n : Nat) : (memBytes m a n).length = n := by
  induction n generalizing a with
  | zero => rfl
  | succ n ih => simp [memBytes, ih]

/-- Reads of bytes that agree agree. -/
theorem memBytes_congr (m m' : Memory) (a n : Nat) (h : ∀ x, a ≤ x → x < a + n → memByte m x = memByte m' x) :
    memBytes m a n = memBytes m' a n := by
  induction n generalizing a with
  | zero => rfl
  | succ n ih =>
    rw [memBytes, memBytes, h a (by omega) (by omega), ih (a + 1) fun x h1 h2 => h x (by omega) (by omega)]

end Sys2Proof.Machine
end

