-- ==== Sys2Proof/Laws/Ops.lean ====
section
/-! SUPPORT. What each shared operation can do, said once: completion and failure, START, the LMS register file, register
reads and writes, and an outcome followed by another. -/

namespace Sys2Proof.Machine

open Sys2Proof

/-! Outcomes. -/

@[simp] theorem andThen_next (s : State) (f : State → Host.Outcome State Fault Refusal) :
    andThen (.next s) f = f s := rfl

@[simp] theorem andThen_fault (r : Fault) (f : State → Host.Outcome State Fault Refusal) :
    andThen (.fault r) f = .fault r := rfl

@[simp] theorem andThen_refused (r : Refusal) (f : State → Host.Outcome State Fault Refusal) :
    andThen (.refused r) f = .refused r := rfl

/-- A next state of a sequence comes from a next state of its first part. -/
theorem andThen_eq_next {o : Host.Outcome State Fault Refusal} {f : State → Host.Outcome State Fault Refusal} {t : State}
    (h : andThen o f = .next t) : ∃ u, o = .next u ∧ f u = .next t := by
  cases o with
  | next u => exact ⟨u, rfl, h⟩
  | fault r => simp at h
  | refused r => simp at h

/-! Freed output bytes, failure, success, START. -/

/-- How many output bytes are freed: none beyond MEM. -/
def freedBytes (n : Nat) (s : State) : Nat := min n (s.params.memSize - s.args.outOffset.toNat)

/-- The state after freeing output bytes, field by field. -/
theorem freeOutput_eq (n : Nat) (s : State) :
    freeOutput n s =
      { s with mem := memFree s.mem s.args.outOffset.toNat s.freeCtr (freedBytes n s)
               freeCtr := s.freeCtr + freedBytes n s } := rfl

/-- The state after a raise, field by field (R243, R244). -/
theorem raiseFault_eq (k : ErrKind) (n : Nat) (s : State) :
    raiseFault k n s =
      { s with mem := memFree s.mem s.args.outOffset.toNat s.freeCtr (freedBytes n s)
               freeCtr := s.freeCtr + freedBytes n s
               results := Results.reset
               status := statusFailed k
               seq := .idle } := rfl

/-- The state after a success, field by field (R188). -/
theorem completeSuccess_eq (n : Word) (ch : BitVec 4) (rate : BitVec 24) (s : State) :
    completeSuccess n ch rate s =
      { s with results := ⟨n, ch, rate⟩, status := statusSucceeded, seq := .idle } := rfl

/-- The state after START, field by field (R210). -/
theorem startDecode_eq (s : State) :
    startDecode s = { s with status := statusStarted, results := Results.reset, seq := .streamHdr } := rfl

/-- A raise changes no byte outside the window. -/
theorem raiseFault_memByte (k : ErrKind) (n : Nat) (s : State) (a : Nat)
    (h : a < s.args.outOffset.toNat ∨ s.args.outOffset.toNat + n ≤ a) :
    memByte (raiseFault k n s).mem a = memByte s.mem a := by
  rw [raiseFault_eq]
  exact memByte_memFree_outside _ _ _ _ _ (by unfold freedBytes; omega)

theorem freeOutput_wf (n : Nat) (s : State) (h : s.mem.wf = true) : (freeOutput n s).mem.wf = true :=
  memWf_memFree _ _ _ _ h

theorem freeOutput_inside (n : Nat) (s : State) (h : ∀ c ∈ s.mem, c.1 < s.params.memSize) :
    ∀ c ∈ (freeOutput n s).mem, c.1 < s.params.memSize := by
  intro c hc
  rw [freeOutput_eq] at hc
  rcases mem_memFree _ _ _ _ _ hc with hc | hc
  · unfold freedBytes at hc
    omega
  · exact h c hc

/-- What a write to CTRL does (R22, R210): START on an idle block, else nothing. -/
theorem writeCtrl_cases (v : Word) (s : State) :
    (v.getLsbD 0 = true ∧ s.status.busy = false ∧ writeCtrl v s = startDecode s) ∨
    ((v.getLsbD 0 = false ∨ s.status.busy = true) ∧ writeCtrl v s = s) := by
  unfold writeCtrl
  cases v.getLsbD 0 <;> cases s.status.busy <;> simp

/-- What WR_ARG does (R220): the write on an idle block, else nothing. -/
theorem writeArgs_cases (x : ArgRegs) (s : State) :
    (s.status.busy = false ∧ writeArgs x s = { s with args := x }) ∨ (s.status.busy = true ∧ writeArgs x s = s) := by
  unfold writeArgs State.setArgs
  cases s.status.busy <;> simp

/-! The LMS register file. -/

theorem channel_isSome (s : State) (c : Nat) (h : c < 8) : ∃ l, channel s c = some l :=
  ⟨s.lms[c], by simp [channel, h]⟩

theorem channel_eq_none (s : State) (c : Nat) : channel s c = none ↔ 8 ≤ c := by
  simp [channel]

theorem lt_of_channel {s : State} {c : Nat} {l : Lms} (h : channel s c = some l) : c < 8 := by
  by_contra hc
  rw [(channel_eq_none s c).mpr (by omega)] at h
  exact absurd h (by simp)

/-- A channel after a channel is written. -/
theorem channel_setChannel (s : State) (c d : Nat) (l : Lms) (h : c < 8) :
    channel (setChannel s c l) d = if d = c then some l else channel s d := by
  unfold channel setChannel
  rw [State.setLms_lms, Vector.getElem?_setIfInBounds]
  by_cases hd : d = c
  · subst hd; simp [h]
  · simp [hd, Ne.symm hd]

/-- Writing a channel changes nothing but the register file. -/
theorem setChannel_eq (s : State) (c : Nat) (l : Lms) :
    setChannel s c l = { s with lms := s.lms.setIfInBounds c l } := rfl

end Sys2Proof.Machine
end

