-- ==== Sys2Proof/Laws/Step.lean ====
section
/-! SUPPORT. What each sequencer step, host move and step can do, said once (one inversion lemma each). -/

namespace Sys2Proof.Machine

open Sys2Proof

/-! Running a selector's record. -/

@[simp] theorem runDecoded_ok (i : Instr) (s : State) : runDecoded (.ok i) s = exec i s := rfl

@[simp] theorem runDecoded_error (e : DecodeError) (s : State) :
    runDecoded (.error e) s = .refused (.badEncoding e) := rfl

theorem runOp_ok {sel : Selector} {bs : List Byte} {i : Instr} (h : decode sel bs = .ok i) (s : State) :
    runOp sel bs s = exec i s := by
  rw [runOp, h, runDecoded_ok]

theorem runOp_loopHead (s : State) : runOp .loopHead [] s = execStreamLoop s := rfl

theorem runOp_loopExit (s : State) : runOp .loopExit [] s = execStreamFinish s := rfl

theorem runOp_frameLast (s : State) : runOp .frameLast [] s = execFrameEnd s := rfl

theorem runOp_emittedSample (s : State) : runOp .emittedSample [] s = execFrameOut s := rfl

theorem runOp_slot (bs : List Byte) (h : bs.length = 8) (s : State) : runOp .slot bs s = execSampleStep s := by
  simp [runOp, runDecoded, decode_of_length _ _ (show bs.length = Selector.slot.width from h), decodeValue, exec]

theorem runOp_streamHeader (bs : List Byte) (h : bs.length = 8) (s : State) :
    runOp .streamHeader bs s = execStreamHdr (streamHeaderOf (BitVec.ofNat 64 (beNat bs))) s := by
  simp [runOp, runDecoded, decode_of_length _ _ (show bs.length = Selector.streamHeader.width from h), decodeValue, exec]

theorem runOp_frameHeader (bs : List Byte) (h : bs.length = 8) (s : State) :
    runOp .frameHeader bs s = execFrameHdr (frameHeaderOf (BitVec.ofNat 64 (beNat bs))) s := by
  simp [runOp, runDecoded, decode_of_length _ _ (show bs.length = Selector.frameHeader.width from h), decodeValue, exec]

theorem runOp_lmsRecord (bs : List Byte) (h : bs.length = 16) (s : State) :
    runOp .lmsRecord bs s = execLmsLoad (lmsRecordOf (BitVec.ofNat 128 (beNat bs))) s := by
  simp [runOp, runDecoded, decode_of_length _ _ (show bs.length = Selector.lmsRecord.width from h), decodeValue, exec]

theorem runOp_sliceWord (bs : List Byte) (h : bs.length = 8) (s : State) :
    runOp .sliceWord bs s = execSliceLoad (BitVec.ofNat 64 (beNat bs)) s := by
  simp [runOp, runDecoded, decode_of_length _ _ (show bs.length = Selector.sliceWord.width from h), decodeValue, exec]

/-! The sequencer's steps. -/

/-- The stream header the engine reads at IN_OFFSET (R81). -/
def streamHeaderAt (s : State) : StreamHeader :=
  streamHeaderOf (BitVec.ofNat 64 (beNat (memBytes s.mem s.args.inOffset.toNat 8)))

/-- The frame header the engine reads at FBASE (R82). -/
def frameHeaderAt (s : State) : FrameHeader :=
  frameHeaderOf (BitVec.ofNat 64 (beNat (memBytes s.mem s.regs.fbase.toNat 8)))

/-- The predictor state record the engine reads for channel CH_IDX (R83, R85). -/
def lmsRecordAt (s : State) : LmsRecord :=
  lmsRecordOf (BitVec.ofNat 128
    (beNat (memBytes s.mem (lmsRecordAddr s.regs.fbase.toNat s.regs.chIdx.toNat) 16)))

/-- The address of the slice word (SL_IDX, CH_IDX) (R85, R130). -/
def sliceAddrAt (s : State) : Nat :=
  sliceWordAddr s.regs.fbase.toNat s.regs.fCh.toNat s.regs.slIdx.toNat s.regs.chIdx.toNat

/-- The slice word the engine reads (R84). -/
def sliceWordAt (s : State) : BitVec 64 := BitVec.ofNat 64 (beNat (memBytes s.mem (sliceAddrAt s) 8))

/-- STREAM_HDR (R212): a bounds check, the magic or the total fails, or the stream registers are set and SEQ moves on. -/
theorem stepStreamHdr_eq (s : State) (hs : s.seq = .streamHdr) :
    stepStreamHdr s = .next (
      if s.params.memSize < s.args.inOffset.toNat + s.args.inLength.toNat then raiseFault .bufferTooSmall 0 s
      else if s.args.inLength.toNat < 8 then raiseFault .truncatedHeader 0 s
      else if (streamHeaderAt s).magic ≠ s.params.magic then raiseFault .magicMismatch 0 s
      else if (streamHeaderAt s).total = 0#32 then
        raiseFault .totalSampleMismatch 0 (s.setRegs { s.regs with total := (streamHeaderAt s).total })
      else (s.setRegs (acceptStream (streamHeaderAt s) s.args s.regs)).setSeq .frameHdr) := by
  unfold stepStreamHdr
  by_cases h1 : s.params.memSize < s.args.inOffset.toNat + s.args.inLength.toNat
  · have hr : streamHeaderReadable s = false := by simp [streamHeaderReadable]; omega
    rw [if_neg (by simp [hr]), runOp_streamHeader _ (by simp [unreadRecord])]
    simp [execStreamHdr, streamCheckKind, h1, unlessEnded, raiseFault_eq]
  by_cases h2 : s.args.inLength.toNat < 8
  · have hr : streamHeaderReadable s = false := by simp [streamHeaderReadable]; omega
    rw [if_neg (by simp [hr]), runOp_streamHeader _ (by simp [unreadRecord])]
    simp [execStreamHdr, streamCheckKind, h1, h2, unlessEnded, raiseFault_eq]
  have hr : streamHeaderReadable s = true := by simp [streamHeaderReadable]; omega
  rw [if_pos hr, fetchAndRun, if_pos (by omega), runOp_streamHeader _ (by simp)]
  change andThen (execStreamHdr (streamHeaderAt s) s) _ = _
  by_cases h3 : (streamHeaderAt s).magic = s.params.magic
  · by_cases h4 : (streamHeaderAt s).total = 0#32
    · simp [execStreamHdr, streamCheckKind, h1, h2, h3, h4, unlessEnded, raiseFault_eq]
    · simp [execStreamHdr, streamCheckKind, h1, h2, h3, h4, unlessEnded, hs]
  · simp [execStreamHdr, streamCheckKind, h1, h2, h3, unlessEnded, raiseFault_eq]

/-- The registers after an accepted header at SEQ = FRAME_HDR: R150's and CH_IDX = 0 (R213). -/
def frameRegs (s : State) : SeqRegs := { acceptHeader (frameHeaderAt s) s.regs with chIdx := 0#4 }

/-- FRAME_HDR (R213): the loop ends, or the header is cut short, or its record lies outside MEM, or a check fails, or the
frame is accepted. -/
theorem stepFrameHdr_eq (s : State) (hs : s.seq = .frameHdr) :
    stepFrameHdr s =
      if frameFollows s = false then .next (s.setSeq .finish)
      else if headerTruncated s then .next (raiseFault .truncatedHeader (failureWindow s) s)
      else if s.params.memSize < s.regs.fbase.toNat + 8 then .fault (.outsideMem s.regs.fbase.toNat)
      else
        match frameCheckKind (frameHeaderAt s) s with
        | some k => .next (raiseFault k (failureWindow s) s)
        | none => .next ((s.setRegs (frameRegs s)).setSeq .lmsLoad) := by
  have hset : s.setSeq .frameHdr = s := by cases s; cases hs; rfl
  unfold stepFrameHdr
  rw [runOp_loopHead, execStreamLoop, andThen_next]
  cases hf : frameFollows s with
  | false => simp
  | true =>
    simp only [if_true, hset, hs, reduceCtorEq, if_false]
    cases ht : headerTruncated s with
    | true =>
      rw [if_pos rfl, runOp_frameHeader _ (by simp [unreadRecord])]
      simp [execFrameHdr, ht, unlessEnded, raiseFault_eq]
    | false =>
      simp only [Bool.false_eq_true, if_false]
      by_cases hm : s.regs.fbase.toNat + 8 ≤ s.params.memSize
      · rw [fetchAndRun, if_pos hm, runOp_frameHeader _ (by simp), if_neg (by omega)]
        change andThen (execFrameHdr (frameHeaderAt s) s) _ = _
        cases hk : frameCheckKind (frameHeaderAt s) s with
        | some k => simp [execFrameHdr, ht, hk, unlessEnded, raiseFault_eq]
        | none => simp [execFrameHdr, ht, hk, unlessEnded, hs, frameRegs]; rfl
      · rw [fetchAndRun, if_neg hm, if_pos (by omega)]
        rfl

/-- LMS_LOAD (R214): the record lies outside MEM, or channel CH_IDX does not exist, or its registers are loaded. -/
theorem stepLmsLoad_eq (s : State) :
    stepLmsLoad s =
      if s.params.memSize < lmsRecordAddr s.regs.fbase.toNat s.regs.chIdx.toNat + 16 then
        .fault (.outsideMem (lmsRecordAddr s.regs.fbase.toNat s.regs.chIdx.toNat))
      else if 8 ≤ s.regs.chIdx.toNat then .fault (.noSuchChannel s.regs.chIdx.toNat)
      else .next (afterLmsLoad (setChannel s s.regs.chIdx.toNat (loadRecord (lmsRecordAt s)))) := by
  unfold stepLmsLoad fetchAndRun
  by_cases hm : lmsRecordAddr s.regs.fbase.toNat s.regs.chIdx.toNat + 16 ≤ s.params.memSize
  · rw [if_pos hm, runOp_lmsRecord _ (by simp), if_neg (by omega)]
    change andThen (execLmsLoad (lmsRecordAt s) s) _ = _
    unfold execLmsLoad
    by_cases hc : 8 ≤ s.regs.chIdx.toNat
    · simp [(channel_eq_none s _).mpr hc, hc]
    · obtain ⟨l, hl⟩ := channel_isSome s s.regs.chIdx.toNat (by omega)
      simp [hl, hc]
  · rw [if_neg hm, if_pos (by omega)]
    rfl

/-- SLICE_LOAD (R215): the word lies outside MEM, or it is loaded. -/
theorem stepSliceLoad_eq (s : State) :
    stepSliceLoad s =
      if s.params.memSize < sliceAddrAt s + 8 then .fault (.outsideMem (sliceAddrAt s))
      else .next ((s.setRegs { s.regs with
        sliceWord := sliceWordAt s, sf := scaleFactor (sliceWordAt s), j := 0#5 }).setSeq .sample) := by
  unfold stepSliceLoad fetchAndRun
  change andThen (if sliceAddrAt s + 8 ≤ s.params.memSize then _ else _) _ = _
  by_cases hm : sliceAddrAt s + 8 ≤ s.params.memSize
  · rw [if_pos hm, runOp_sliceWord _ (by simp), if_neg (by omega)]
    rfl
  · rw [if_neg hm, if_pos (by omega)]
    rfl

/-- The state after SAMPLE_STEP on registers l (R133). -/
def afterSlot (l : Lms) (s : State) : State :=
  ((setChannel s s.regs.chIdx.toNat (update l (slotValues l s).s (slotValues l s).r)).setDp (slotValues l s)).setRegs
    { s.regs with j := s.regs.j + 1 }

/-- SAMPLE_STEP on a slot and a channel that exist (R133). -/
theorem execSampleStep_eq {s : State} {l : Lms} (hj : s.regs.j.toNat < 20)
    (hl : channel s s.regs.chIdx.toNat = some l) : execSampleStep s = .next (afterSlot l s) := by
  unfold execSampleStep
  rw [if_neg (by omega)]
  simp only [hl]
  rfl

/-- What FRAME_OUT can do (R160, R161, R79): nothing, the two bytes, or a stop. -/
theorem execFrameOut_cases (s : State) :
    (outputAddr s = none ∧ execFrameOut s = .next s) ∨
    ∃ a, outputAddr s = some a ∧
      ((s.params.memSize < a + 2 ∧ execFrameOut s = .fault (.outsideMem a)) ∨
       (a + 2 ≤ s.params.memSize ∧ (inInputRegion s a = true ∨ inInputRegion s (a + 1) = true) ∧
          execFrameOut s = .refused (.outputOverlapsInput a)) ∨
       (a + 2 ≤ s.params.memSize ∧ inInputRegion s a = false ∧ inInputRegion s (a + 1) = false ∧
          execFrameOut s = .next (s.setMem (memWrite16 s.params.outByteOrder s.mem a s.dp.s)))) := by
  unfold execFrameOut
  cases ha : outputAddr s with
  | none => exact .inl ⟨rfl, rfl⟩
  | some a =>
    refine .inr ⟨a, rfl, ?_⟩
    by_cases hm : s.params.memSize < a + 2
    · exact .inl ⟨hm, by simp [hm]⟩
    · cases h1 : inInputRegion s a <;> cases h2 : inInputRegion s (a + 1) <;> simp [hm, h1, h2] <;> omega

/-- FRAME_OUT changes memory alone. -/
theorem execFrameOut_next {s t : State} (h : execFrameOut s = .next t) : ∃ m, t = s.setMem m := by
  rcases execFrameOut_cases s with ⟨_, h'⟩ | ⟨a, _, ⟨_, h'⟩ | ⟨_, _, h'⟩ | ⟨_, _, _, h'⟩⟩
  · exact ⟨s.mem, by rw [h'] at h; cases h; rfl⟩
  · simp [h'] at h
  · simp [h'] at h
  · exact ⟨_, by rw [h'] at h; exact (Host.Outcome.next.inj h).symm⟩

/-- SAMPLE (R216) on a slot and a channel that exist: SAMPLE_STEP, FRAME_OUT, the next state. -/
theorem stepSample_eq {s : State} {l : Lms} (hj : s.regs.j.toNat < 20)
    (hl : channel s s.regs.chIdx.toNat = some l) :
    stepSample s = andThen (execFrameOut (afterSlot l s)) fun u => .next (afterSample u) := by
  unfold stepSample
  rw [runOp_slot _ (by simp), execSampleStep_eq hj hl, andThen_next]
  simp only [runOp_emittedSample]

theorem stepFrameEnd_eq (s : State) :
    stepFrameEnd s = .next ((s.setRegs { s.regs with
      cum := s.regs.cum + s.regs.fN.setWidth 33
      fbase := s.regs.fbase + s.regs.fSize.setWidth 33 }).setSeq .frameHdr) := rfl

theorem stepFinish_eq (s : State) :
    stepFinish s = .next (
      if finishCheckFails s then raiseFault .totalSampleMismatch (failureWindow s) s
      else completeSuccess (BitVec.ofNat 32 (min s.regs.cum.toNat s.regs.total.toNat)) s.regs.sCh s.regs.sRate s) := by
  unfold stepFinish
  rw [runOp_loopExit, execStreamFinish]
  split <;> rfl

/-! Register accesses. -/

/-- A BUS_41 value's six bytes decode as the value. -/
theorem decode_bus (w : BitVec 41) : decode .bus (beBytes 6 w.toNat) = decodeBus w := by
  have h : w.toNat < 256 ^ Selector.bus.width := lt_trans w.isLt (by decide)
  have := decode_beBytes .bus w.toNat h
  simp only [Selector.width] at this
  rw [this]
  simp [decodeValue, w.isLt]

theorem runOp_bus (w : BitVec 41) (s : State) : runOp .bus (beBytes 6 w.toNat) s = runDecoded (decodeBus w) s := by
  rw [runOp, decode_bus]

/-- The BUS_41 value of a register access (R96). -/
def accessWord (a : BusAccess) (s : State) : BitVec 41 :=
  busWord a.write (BitVec.ofNat 8 (a.addr - s.params.regBase)) a.data

/-- What the step of a register access does (R28, R92). -/
theorem busStep_cases (a : BusAccess) (s : State) :
    (a.bits ≠ 32 ∧ busStep a s = .refused (.badWidth a.bits)) ∨
    (a.bits = 32 ∧ (a.addr < s.params.regBase ∨ s.params.regBase + 256 ≤ a.addr) ∧
      busStep a s = .refused (.outsideWindow a.addr)) ∨
    (a.bits = 32 ∧ s.params.regBase ≤ a.addr ∧ a.addr < s.params.regBase + 256 ∧
      busStep a s = runDecoded (decodeBus (accessWord a s)) s) := by
  unfold busStep windowBytes
  by_cases h : a.bits = 32
  · by_cases h' : a.addr < s.params.regBase ∨ s.params.regBase + 256 ≤ a.addr
    · exact .inr (.inl ⟨h, h', by simp [h, h']⟩)
    · exact .inr (.inr ⟨h, by omega, by omega, by rw [if_neg (by simp [h]), if_neg h', runOp_bus]; rfl⟩)
  · exact .inl ⟨h, by simp [h]⟩

end Sys2Proof.Machine
end

