-- ==== Sys2Proof/Laws/Invariant.lean ====
section
/-! SUPPORT. The invariant, operation by operation: each sequencer step, each register write and each change of memory
keeps it. -/

namespace Sys2Proof.Machine

open Sys2Proof

/-- A failure keeps the invariant (R243). -/
theorem inv_raise {s : State} (h : Inv s) (k : ErrKind) (n : Nat) : Inv (raiseFault k n s) := by
  rw [raiseFault_eq]
  refine ⟨h.noProbe, h.memSize, memWf_memFree _ _ _ _ h.memCanonical, ?_, by simp [statusFailed], ?_, ?_, h.history, by simp [Seq.inStream], by simp, by simp [Seq.inFrame], trivial⟩
  · exact freeOutput_inside n s h.memInside
  · refine ⟨by simp [statusFailed], fun _ => ⟨rfl, ?_⟩, by simp [statusFailed]⟩
    cases k <;> simp [statusFailed, ErrKind.code]
  · exact ⟨fun _ => rfl, by simp [statusFailed]⟩

/-- A failure after a register update keeps the invariant (R180's last check). -/
theorem inv_setRegs_raise {s : State} (h : Inv s) (r : SeqRegs) (k : ErrKind) (n : Nat) : Inv (raiseFault k n (s.setRegs r)) := by
  rw [raiseFault_eq]
  refine ⟨h.noProbe, h.memSize, memWf_memFree _ _ _ _ h.memCanonical, ?_, by simp [statusFailed], ?_, ?_, h.history, by simp [Seq.inStream], by simp, by simp [Seq.inFrame], trivial⟩
  · exact freeOutput_inside n s h.memInside
  · refine ⟨by simp [statusFailed], fun _ => ⟨rfl, ?_⟩, by simp [statusFailed]⟩
    cases k <;> simp [statusFailed, ErrKind.code]
  · exact ⟨fun _ => rfl, by simp [statusFailed]⟩

/-- Outside IDLE the block is busy (R211). -/
theorem busy_of {s : State} (h : Inv s) (hs : s.seq ≠ .idle) : s.status.busy = true := by
  cases hb : s.status.busy with
  | true => rfl
  | false => exact absurd (h.idleIff.mpr hb) hs

/-- The sum of two 32-bit values does not wrap in 33 bits (R33). -/
theorem w33 (a b : BitVec 32) : (a.setWidth 33 + b.setWidth 33).toNat = a.toNat + b.toNat := by
  have := a.isLt; have := b.isLt
  simp [BitVec.toNat_add, BitVec.toNat_setWidth]; omega

/-- STREAM_HDR keeps the invariant. -/
theorem inv_streamHdr {s t : State} (h : Inv s) (hs : s.seq = .streamHdr) (ht : stepStreamHdr s = .next t) : Inv t := by
  rw [stepStreamHdr_eq s hs] at ht
  cases ht
  split
  · exact inv_raise h _ _
  split
  · exact inv_raise h _ _
  split
  · exact inv_raise h _ _
  split
  · exact inv_setRegs_raise h _ _ _
  rename_i h1 h2 h3 h4
  have hb := busy_of h (by simp [hs])
  have hi := s.args.inOffset.isLt
  have hl := s.args.inLength.isLt
  have e1 : (BitVec.setWidth 33 s.args.inOffset + BitVec.setWidth 33 s.args.inLength).toNat = s.args.inOffset.toNat + s.args.inLength.toNat := w33 _ _
  have e2 : (BitVec.setWidth 33 s.args.inOffset + 8#33).toNat = s.args.inOffset.toNat + 8 := w33 s.args.inOffset 8#32
  have ht : (streamHeaderAt s).total.toNat ≠ 0 := by
    intro hc; exact h4 (BitVec.eq_of_toNat_eq (by simpa using hc))
  refine ⟨h.noProbe, h.memSize, h.memCanonical, h.memInside, by simp [hb], h.status, h.results, h.history, fun _ => ?_, fun _ => ?_, by simp [Seq.inFrame], by simp [PositionInv]⟩
  · refine ⟨?_, ?_, ?_, ?_, ?_, ?_, ?_, ?_⟩ <;> simp only [State.setSeq_regs, State.setRegs_regs, State.setSeq_args, State.setRegs_args, State.setSeq_params, State.setRegs_params, acceptStream, e1, e2] <;> first | omega | simp
  · refine ⟨by simp [acceptStream], ?_⟩
    simp [acceptStream]

/-- What an accepted frame header satisfies (R151). -/
theorem frameCheck_none {h : FrameHeader} {s : State} (hk : frameCheckKind h s = none) :
    1 ≤ h.channels.toNat ∧ h.channels.toNat ≤ 8 ∧ 1 ≤ h.samples.toNat ∧ h.samples.toNat ≤ 5120 ∧
    h.size.toNat = frameSizeLaw h.channels.toNat h.samples.toNat ∧
    s.regs.fbase.toNat + h.size.toNat ≤ s.regs.endp.toNat ∧
    (s.regs.first = true → h.channels.toNat = s.regs.sCh.toNat ∧ h.rate = s.regs.sRate) ∧
    s.args.outOffset.toNat + 2 * h.channels.toNat * min (s.regs.cum.toNat + h.samples.toNat) s.regs.total.toNat ≤ s.params.memSize := by
  unfold frameCheckKind at hk
  simp only at hk
  split at hk; · cases hk
  split at hk; · cases hk
  split at hk; · cases hk
  split at hk; · cases hk
  split at hk; · cases hk
  split at hk; · cases hk
  rename_i a b c d e f
  refine ⟨by omega, by omega, by omega, by omega, by omega, by omega, ?_, by omega⟩
  intro hf
  simp only [hf, true_and, not_or, not_not, ne_eq] at e
  exact e

/-- FRAME_HDR keeps the invariant. -/
theorem inv_frameHdr {s t : State} (h : Inv s) (hs : s.seq = .frameHdr) (ht : stepFrameHdr s = .next t) : Inv t := by
  rw [stepFrameHdr_eq s hs] at ht
  have hst := h.stream (by simp [hs, Seq.inStream])
  have hbt := h.between (.inl hs)
  have hb := busy_of h (by simp [hs])
  split at ht
  · cases ht
    refine ⟨h.noProbe, h.memSize, h.memCanonical, h.memInside, by simp [hb], h.status, h.results, h.history, fun _ => ?_, fun _ => ?_, by simp [Seq.inFrame], by simp [PositionInv]⟩
    · exact ⟨hst.1, hst.2, hst.3, hst.4, hst.5, hst.6, hst.7, hst.8⟩
    · exact ⟨hbt.1, hbt.2⟩
  rename_i hff
  split at ht
  · cases ht; exact inv_raise h _ _
  split at ht
  · cases ht
  split at ht
  · cases ht; exact inv_raise h _ _
  rename_i h2 h3 hk
  cases ht
  have hff : frameFollows s = true := by simpa using hff
  simp only [frameFollows, Bool.and_eq_true, decide_eq_true_eq] at hff
  simp only [frameRegs]
  obtain ⟨c1, c2, n1, n2, sz, fits, same, out⟩ := frameCheck_none hk
  generalize frameHeaderAt s = hd at *
  have ec : (hd.channels.setWidth 4).toNat = hd.channels.toNat := by simp [BitVec.toNat_setWidth]; omega
  have esl : (BitVec.ofNat 9 (sliceCount hd.samples.toNat)).toNat = sliceCount hd.samples.toNat := by
    have : sliceCount hd.samples.toNat ≤ 256 := by unfold sliceCount; omega
    simp; omega
  have hsc : (if s.regs.first = true then s.regs.sCh else hd.channels.setWidth 4) = hd.channels.setWidth 4 := by
    split
    · next hf => exact BitVec.eq_of_toNat_eq (by rw [ec]; exact (same hf).1.symm)
    · rfl
  have hsr : (if s.regs.first = true then s.regs.sRate else hd.rate) = hd.rate := by
    split
    · next hf => exact (same hf).2.symm
    · rfl
  refine ⟨h.noProbe, h.memSize, h.memCanonical, h.memInside, by simp [hb], h.status, h.results, h.history, fun _ => ?_, by simp, fun _ => ?_, ?_⟩
  · refine ⟨hst.1, hst.2, hst.3, hst.4, hst.5, by simp [acceptHeader], fun _ => ?_, fun _ => ?_⟩
    · simp only [State.setSeq_regs, State.setRegs_regs, acceptHeader, hsc, ec]; omega
    · simp only [State.setSeq_regs, State.setRegs_regs, State.setSeq_args, State.setRegs_args, State.setSeq_params, State.setRegs_params, acceptHeader, hsc, ec]
      have : 2 * hd.channels.toNat * min s.regs.cum.toNat s.regs.total.toNat ≤ 2 * hd.channels.toNat * min (s.regs.cum.toNat + hd.samples.toNat) s.regs.total.toNat := Nat.mul_le_mul_left _ (by omega)
      omega
  · refine ⟨rfl, ?_, ?_, ⟨n1, n2⟩, esl, ?_, fits, hff.1, ?_⟩
    · simp only [State.setSeq_regs, State.setRegs_regs, acceptHeader, hsc]
    · simp only [State.setSeq_regs, State.setRegs_regs, acceptHeader, hsr]
    · simp only [State.setSeq_regs, State.setRegs_regs, acceptHeader, ec]; exact sz
    · simp only [State.setSeq_regs, State.setRegs_regs, State.setSeq_args, State.setRegs_args, State.setSeq_params, State.setRegs_params, acceptHeader, ec]; exact out
  · simp only [PositionInv, State.setSeq_regs, State.setSeq_seq, State.setRegs_regs, acceptHeader, ec]; simp; omega

/-- A sign-extended field is in the int16 range. -/
theorem sext16_range (v : Sample) : sampleRange (sext16 v) := by
  unfold sampleRange sext16
  rw [BitVec.toInt_signExtend]
  have := BitVec.toInt_lt (x := v); have := BitVec.le_toInt (x := v)
  norm_num at *
  rw [Int.bmod_eq_of_le] <;> omega

/-- Writing a channel whose history is in range keeps every history in range. -/
theorem history_setChannel {s : State} (h : ∀ c l, channel s c = some l → historyInRange l) (c : Nat) (l : Lms) (hl : historyInRange l) :
   ∀ d m, channel (setChannel s c l) d = some m → historyInRange m := by
  intro d m hm
  by_cases hc : c < 8
  · rw [channel_setChannel _ _ _ _ hc] at hm
    split at hm
    · cases hm; exact hl
    · exact h _ _ hm
  · have : setChannel s c l = s := by
      rw [setChannel_eq, Vector.setIfInBounds_eq_of_size_le (by omega)]
    rw [this] at hm; exact h _ _ hm

/-- LMS_LOAD keeps the invariant. -/
theorem inv_lmsLoad {s t : State} (h : Inv s) (hs : s.seq = .lmsLoad) (ht : stepLmsLoad s = .next t) : Inv t := by
  rw [stepLmsLoad_eq] at ht
  have hst := h.stream (by simp [hs, Seq.inStream])
  have hfr := h.frame (by simp [hs, Seq.inFrame])
  have hb := busy_of h (by simp [hs])
  have hp := h.position
  simp only [PositionInv, hs] at hp
  split at ht; · cases ht
  split at ht; · cases ht
  cases ht
  have hh := history_setChannel h.history s.regs.chIdx.toNat (loadRecord (lmsRecordAt s)) ⟨sext16_range _, sext16_range _, sext16_range _, sext16_range _⟩
  have hsc := hst.streamChannels hfr.first
  have hfs := hfr.slices
  have hfn := hfr.samples
  have hch := congrArg BitVec.toNat hfr.channels
  have hadd : (s.regs.chIdx + 1).toNat = s.regs.chIdx.toNat + 1 := by
    rw [BitVec.toNat_add]; simp; omega
  unfold afterLmsLoad
  simp only
  split
  · refine ⟨h.noProbe, h.memSize, h.memCanonical, h.memInside, by simp [setChannel_eq, hb], h.status, h.results, hh, fun _ => ?_, by simp, fun _ => ?_, ?_⟩
    · exact ⟨hst.1, hst.2, hst.3, hst.4, hst.5, hst.6, hst.7, hst.8⟩
    · exact ⟨hfr.1, hfr.2, hfr.3, hfr.4, hfr.5, hfr.6, hfr.7, hfr.8, hfr.9⟩
    · simp only [PositionInv, State.setSeq_seq, State.setSeq_regs, State.setRegs_regs, setChannel_eq]
      simp only [BitVec.toNat_ofNat, Nat.zero_mod]
      rw [hch, hfs]; unfold sliceCount; omega
  · rename_i hne
    refine ⟨h.noProbe, h.memSize, h.memCanonical, h.memInside, by simp [setChannel_eq, hb, hs], h.status, h.results, hh, fun _ => ?_, by simp [setChannel_eq, hs], fun _ => ?_, ?_⟩
    · exact ⟨hst.1, hst.2, hst.3, hst.4, hst.5, hst.6, hst.7, hst.8⟩
    · exact ⟨hfr.1, hfr.2, hfr.3, hfr.4, hfr.5, hfr.6, hfr.7, hfr.8, hfr.9⟩
    · simp only [PositionInv, State.setRegs_seq, State.setRegs_regs, setChannel_eq, hs] at hne ⊢
      rw [hadd]
      have : (s.regs.chIdx + 1).toNat ≠ s.regs.fCh.toNat := fun hc => hne (BitVec.eq_of_toNat_eq hc)
      omega

/-- SLICE_LOAD keeps the invariant. -/
theorem inv_sliceLoad {s t : State} (h : Inv s) (hs : s.seq = .sliceLoad) (ht : stepSliceLoad s = .next t) : Inv t := by
  rw [stepSliceLoad_eq] at ht
  have hst := h.stream (by simp [hs, Seq.inStream])
  have hfr := h.frame (by simp [hs, Seq.inFrame])
  have hb := busy_of h (by simp [hs])
  have hp := h.position
  simp only [PositionInv, hs] at hp
  split at ht; · cases ht
  cases ht
  refine ⟨h.noProbe, h.memSize, h.memCanonical, h.memInside, by simp [hb], h.status, h.results, h.history, fun _ => ?_, by simp, fun _ => ?_, ?_⟩
  · exact ⟨hst.1, hst.2, hst.3, hst.4, hst.5, hst.6, hst.7, hst.8⟩
  · exact ⟨hfr.1, hfr.2, hfr.3, hfr.4, hfr.5, hfr.6, hfr.7, hfr.8, hfr.9⟩
  · exact ⟨hp.1, hp.2, by simp, rfl⟩

/-- A sample inside the memory leaves every listed byte inside it. -/
theorem mem_write16_inside {P : Nat} (o) (m : Memory) (a : Nat) (v) (ha : a + 2 ≤ P) (h : ∀ c ∈ m, c.1 < P) : ∀ c ∈ memWrite16 o m a v, c.1 < P := by
  intro c hc
  rcases mem_memStore _ _ _ _ hc with hc | hc
  · simp at hc; omega
  · exact h c hc

/-- LMS_UPDATE keeps the history in the int16 range (R113). -/
theorem update_history (l : Lms) (x r : Sample) (h : historyInRange l) : historyInRange (update l x r) :=
  ⟨h.2.1, h.2.2.1, h.2.2.2, sext16_range _⟩

/-- SAMPLE keeps the invariant. -/
theorem inv_sample {s t : State} (h : Inv s) (hs : s.seq = .sample) (ht : stepSample s = .next t) : Inv t := by
  have hst := h.stream (by simp [hs, Seq.inStream])
  have hfr := h.frame (by simp [hs, Seq.inFrame])
  have hb := busy_of h (by simp [hs])
  have hp := h.position
  simp only [PositionInv, hs] at hp
  obtain ⟨p1, p2, p3, p4⟩ := hp
  have hsc := hst.streamChannels hfr.first
  have hch := congrArg BitVec.toNat hfr.channels
  obtain ⟨l, hl⟩ := channel_isSome s s.regs.chIdx.toNat (by omega)
  rw [stepSample_eq p3 hl] at ht
  obtain ⟨u, hu, hv⟩ := andThen_eq_next ht
  cases hv
  have hh : ∀ d m, channel (setChannel s s.regs.chIdx.toNat (update l (slotValues l s).s (slotValues l s).r)) d = some m → historyInRange m :=
    history_setChannel h.history _ _ (update_history _ _ _ (h.history _ _ hl))
  have hum : ∃ m, u = (afterSlot l s).setMem m ∧ m.wf = true ∧ ∀ c ∈ m, c.1 < s.params.memSize := by
    rcases execFrameOut_cases (afterSlot l s) with ⟨_, h'⟩ | ⟨a, _, ⟨_, h'⟩ | ⟨_, _, h'⟩ | ⟨ha, _, _, h'⟩⟩
    · rw [h'] at hu; cases hu; exact ⟨s.mem, rfl, h.memCanonical, h.memInside⟩
    · rw [h'] at hu; cases hu
    · rw [h'] at hu; cases hu
    · rw [h'] at hu; cases hu
      exact ⟨_, rfl, memWf_memWrite16 _ _ _ _ h.memCanonical, mem_write16_inside _ _ _ _ ha h.memInside⟩
  obtain ⟨m, rfl, hm1, hm2⟩ := hum
  have hj : (s.regs.j + 1).toNat = s.regs.j.toNat + 1 := by rw [BitVec.toNat_add]; simp; omega
  have hc1 : (s.regs.chIdx + 1).toNat = s.regs.chIdx.toNat + 1 := by rw [BitVec.toNat_add]; simp; omega
  have hfs := hfr.slices
  have hfn := hfr.samples
  have hsl : (s.regs.slIdx + 1).toNat = s.regs.slIdx.toNat + 1 := by
    have : s.regs.fSlices.toNat ≤ 256 := by rw [hfs]; unfold sliceCount; omega
    rw [BitVec.toNat_add]; simp; omega
  have hregs : ((afterSlot l s).setMem m).regs = { s.regs with j := s.regs.j + 1 } := rfl
  unfold afterSample
  rw [hregs]
  split
  · rename_i hj20
    simp only at hj20 ⊢
    split
    · rename_i hlast
      simp only
      split
      · refine ⟨h.noProbe, h.memSize, hm1, hm2, by simp [afterSlot, setChannel_eq, hb], h.status, h.results, hh, fun _ => ?_, by simp, fun _ => ?_, trivial⟩
        · exact ⟨hst.1, hst.2, hst.3, hst.4, hst.5, hst.6, hst.7, hst.8⟩
        · exact ⟨hfr.1, hfr.2, hfr.3, hfr.4, hfr.5, hfr.6, hfr.7, hfr.8, hfr.9⟩
      · rename_i hne
        refine ⟨h.noProbe, h.memSize, hm1, hm2, by simp [afterSlot, setChannel_eq, hb], h.status, h.results, hh, fun _ => ?_, by simp, fun _ => ?_, ?_⟩
        · exact ⟨hst.1, hst.2, hst.3, hst.4, hst.5, hst.6, hst.7, hst.8⟩
        · exact ⟨hfr.1, hfr.2, hfr.3, hfr.4, hfr.5, hfr.6, hfr.7, hfr.8, hfr.9⟩
        · have : (s.regs.slIdx + 1).toNat ≠ s.regs.fSlices.toNat := fun hc => hne (BitVec.eq_of_toNat_eq hc)
          constructor
          · show (0#4).toNat < s.regs.fCh.toNat
            rw [hch]; simp; omega
          · show (s.regs.slIdx + 1).toNat < s.regs.fSlices.toNat
            omega
    · rename_i hnl
      have hne1 : (s.regs.chIdx + 1).toNat ≠ s.regs.fCh.toNat := fun hc => hnl (BitVec.eq_of_toNat_eq hc)
      have hne2 : s.regs.slIdx ≠ s.regs.fSlices := fun hc => by rw [hc] at p2; omega
      simp only [hne2, if_false]
      refine ⟨h.noProbe, h.memSize, hm1, hm2, by simp [afterSlot, setChannel_eq, hb], h.status, h.results, hh, fun _ => ?_, by simp, fun _ => ?_, ?_⟩
      · exact ⟨hst.1, hst.2, hst.3, hst.4, hst.5, hst.6, hst.7, hst.8⟩
      · exact ⟨hfr.1, hfr.2, hfr.3, hfr.4, hfr.5, hfr.6, hfr.7, hfr.8, hfr.9⟩
      · constructor
        · show (s.regs.chIdx + 1).toNat < s.regs.fCh.toNat
          omega
        · exact p2
  · rename_i hj20
    simp only at hj20
    have hj' : (s.regs.j + 1).toNat ≠ 20 := fun hc => hj20 (BitVec.eq_of_toNat_eq (by simpa using hc))
    have hq : ((afterSlot l s).setMem m).seq = .sample := hs
    refine ⟨h.noProbe, h.memSize, hm1, hm2, ?_, h.status, h.results, hh, fun _ => ?_, by rw [hq]; simp, fun _ => ?_, ?_⟩
    · rw [hq]; show _ ↔ s.status.busy = false; simp [hb]
    · exact ⟨hst.1, hst.2, hst.3, hst.4, hst.5, hst.6, hst.7, hst.8⟩
    · exact ⟨hfr.1, hfr.2, hfr.3, hfr.4, hfr.5, hfr.6, hfr.7, hfr.8, hfr.9⟩
    · simp only [PositionInv, hq]
      refine ⟨p1, p2, ?_, p4⟩
      show (s.regs.j + 1).toNat < 20
      omega

/-- FRAME_END keeps the invariant. -/
theorem inv_frameEnd {s t : State} (h : Inv s) (hs : s.seq = .frameEnd) (ht : stepFrameEnd s = .next t) : Inv t := by
  rw [stepFrameEnd_eq] at ht
  have hst := h.stream (by simp [hs, Seq.inStream])
  have hfr := h.frame (by simp [hs, Seq.inFrame])
  have hb := busy_of h (by simp [hs])
  cases ht
  have b1 := s.regs.total.isLt
  have b2 := s.regs.endp.isLt
  have b3 := hfr.needed
  have b4 := hfr.inside
  have hfn := hfr.samples
  have hem := h.memSize
  have hei := hst.endInside
  have e1 : (s.regs.cum + s.regs.fN.setWidth 33).toNat = s.regs.cum.toNat + s.regs.fN.toNat := by
    rw [BitVec.toNat_add, BitVec.toNat_setWidth]; omega
  have e2 : (s.regs.fbase + s.regs.fSize.setWidth 33).toNat = s.regs.fbase.toNat + s.regs.fSize.toNat := by
    rw [BitVec.toNat_add, BitVec.toNat_setWidth]; omega
  refine ⟨h.noProbe, h.memSize, h.memCanonical, h.memInside, by simp [hb], h.status, h.results, h.history, fun _ => ?_, fun _ => ?_, by simp [Seq.inFrame], trivial⟩
  · refine ⟨hst.1, hst.2, ?_, ?_, hst.5, ?_, hst.7, fun hf => ?_⟩
    · have := hst.fbaseAfterHeader
      show _ ≤ (s.regs.fbase + s.regs.fSize.setWidth 33).toNat
      simp only [State.setSeq_args, State.setRegs_args]; omega
    · show (s.regs.fbase + s.regs.fSize.setWidth 33).toNat ≤ s.regs.endp.toNat
      omega
    · intro hc
      exact absurd (hfr.first.symm.trans hc) (by simp)
    · show s.args.outOffset.toNat + 2 * s.regs.sCh.toNat * min (s.regs.cum + s.regs.fN.setWidth 33).toNat s.regs.total.toNat ≤ s.params.memSize
      rw [e1, ← hfr.channels]; exact hfr.outputInside
  · constructor
    · intro _
      show 1 ≤ (s.regs.cum + s.regs.fN.setWidth 33).toNat
      omega
    · show (s.regs.cum + s.regs.fN.setWidth 33).toNat < s.regs.total.toNat + 5120
      omega

/-- FINISH keeps the invariant. -/
theorem inv_finish {s t : State} (h : Inv s) (hs : s.seq = .finish) (ht : stepFinish s = .next t) : Inv t := by
  rw [stepFinish_eq] at ht
  have hst := h.stream (by simp [hs, Seq.inStream])
  have hbt := h.between (.inr hs)
  cases ht
  split
  · exact inv_raise h _ _
  · rename_i hf
    have hfirst : s.regs.first = true := by
      simp only [finishCheckFails, Bool.or_eq_true, not_or] at hf
      simpa using hf.1
    have hsc := hst.streamChannels hfirst
    have b1 := s.regs.total.isLt
    refine ⟨h.noProbe, h.memSize, h.memCanonical, h.memInside, by simp [completeSuccess_eq, statusSucceeded], ?_, ?_, h.history, by simp [completeSuccess_eq, Seq.inStream], by simp [completeSuccess_eq], by simp [completeSuccess_eq, Seq.inFrame], trivial⟩
    · exact ⟨by simp [completeSuccess_eq, statusSucceeded], by simp [completeSuccess_eq, statusSucceeded], by simp [completeSuccess_eq, statusSucceeded]⟩
    · refine ⟨by simp [completeSuccess_eq, statusSucceeded], fun _ _ => ⟨hsc.1, hsc.2, ?_⟩⟩
      have := hbt.counted hfirst
      have := hst.totalPositive
      show 1 ≤ (BitVec.ofNat 32 (min s.regs.cum.toNat s.regs.total.toNat)).toNat
      rw [BitVec.toNat_ofNat]; omega

/-- Every engine step keeps the invariant. -/
theorem inv_engine {s t : State} (h : Inv s) (ht : engineStep s = .next t) : Inv t := by
  unfold engineStep at ht
  split at ht
  · cases ht; exact h
  · exact inv_streamHdr h ‹_› ht
  · exact inv_frameHdr h ‹_› ht
  · exact inv_lmsLoad h ‹_› ht
  · exact inv_sliceLoad h ‹_› ht
  · exact inv_sample h ‹_› ht
  · exact inv_frameEnd h ‹_› ht
  · exact inv_finish h ‹_› ht

-- no fault
/-- The schedule is no part of the invariant. -/
theorem inv_setSchedule {s : State} (h : Inv s) (r : List Turn) : Inv (s.setSchedule r) :=
  ⟨h.1, h.2, h.3, h.4, h.5, h.6, h.7, h.8, fun a => let ⟨a,b,c,d,e,f,g,i⟩ := h.9 a; ⟨a,b,c,d,e,f,g,i⟩, fun a => ⟨(h.10 a).1, (h.10 a).2⟩, fun a => let ⟨a,b,c,d,e,f,g,i,j⟩ := h.11 a; ⟨a,b,c,d,e,f,g,i,j⟩, h.12⟩

/-- A register read keeps the invariant. -/
theorem inv_setBusData {s : State} (h : Inv s) (r) : Inv (s.setBusData r) :=
  ⟨h.1, h.2, h.3, h.4, h.5, h.6, h.7, h.8, fun a => let ⟨a,b,c,d,e,f,g,i⟩ := h.9 a; ⟨a,b,c,d,e,f,g,i⟩, fun a => ⟨(h.10 a).1, (h.10 a).2⟩, fun a => let ⟨a,b,c,d,e,f,g,i,j⟩ := h.11 a; ⟨a,b,c,d,e,f,g,i,j⟩, h.12⟩

/-- START keeps the invariant. -/
theorem inv_start {s : State} (h : Inv s) : Inv (startDecode s) := by
  rw [startDecode_eq]
  refine ⟨h.1, h.2, h.3, h.4, by simp [statusStarted], ⟨by simp [statusStarted], by simp [statusStarted], by simp [statusStarted]⟩, ⟨fun _ => rfl, by simp [statusStarted]⟩, h.8, by simp [Seq.inStream], by simp, by simp [Seq.inFrame], trivial⟩

/-- A CTRL write keeps the invariant. -/
theorem inv_writeCtrl {s : State} (h : Inv s) (v) : Inv (writeCtrl v s) := by
  rcases writeCtrl_cases v s with ⟨_, _, e⟩ | ⟨_, e⟩
  · rw [e]; exact inv_start h
  · rw [e]; exact h

/-- An argument write keeps the invariant: it takes effect on an idle block only (R220). -/
theorem inv_writeArgs {s : State} (h : Inv s) (v) : Inv (writeArgs v s) := by
  rcases writeArgs_cases v s with ⟨hb, e⟩ | ⟨_, e⟩
  · rw [e]
    have hs := h.idleIff.mpr hb
    refine ⟨h.1, h.2, h.3, h.4, h.5, h.6, h.7, h.8, by simp [hs, Seq.inStream], by simp [hs], by simp [hs, Seq.inFrame], by simp [PositionInv, hs]⟩
  · rw [e]; exact h

/-- Every register access keeps the invariant. -/
theorem inv_decodeBus {s t : State} (h : Inv s) (w : BitVec 41) {i} (hi : decodeBus w = .ok i) (ht : exec i s = .next t) : Inv t := by
  unfold decodeBus at hi
  simp only at hi
  split at hi
  · cases hi
  split at hi
  · cases hi
    unfold decodeWrite at ht
    split at ht
    · split at ht <;> (cases ht; exact inv_writeCtrl h _)
    repeat' (split at ht)
    all_goals first
      | (cases ht; exact inv_writeArgs h _)
      | (cases ht; exact h)
  · cases hi
    unfold decodeRead at ht
    repeat' (split at ht)
    all_goals (cases ht; exact inv_setBusData h _)

/-- A change of memory that keeps its form and stays inside MEM keeps the invariant. -/
theorem inv_mem {s : State} (h : Inv s) (m) (h1 : Memory.wf m = true) (h2 : ∀ c ∈ m, c.1 < s.params.memSize) (k b) : Inv {s with mem := m, freeCtr := k, hostByte := b} :=
  ⟨h.1, h.2, h1, h2, h.5, h.6, h.7, h.8, fun a => let ⟨a,b,c,d,e,f,g,i⟩ := h.9 a; ⟨a,b,c,d,e,f,g,i⟩, fun a => ⟨(h.10 a).1, (h.10 a).2⟩, fun a => let ⟨a,b,c,d,e,f,g,i,j⟩ := h.11 a; ⟨a,b,c,d,e,f,g,i,j⟩, h.12⟩

end Sys2Proof.Machine
end

