-- ==== Sys2Proof/Laws/Output.lean ====
section
/-! SUPPORT. The output never touches the input region: what FRAME_OUT's refusal (R79, log 16) keeps, operation by
operation. -/

namespace Sys2Proof.Machine

open Sys2Proof

/-- A state before the stream header's acceptance or after the decode has nothing accepted and nothing placed. -/
theorem outputInv_of_not_inStream {s : State} (h : s.seq.inStream = false) : OutputInv s := by
  refine ⟨fun hs => absurd hs (by simp [h]), fun n c he => ?_⟩
  unfold slotEmitted at he
  cases hq : s.seq <;> simp [hq, Seq.inStream] at h <;> simp [hq] at he

/-- A failure ends the decode. -/
theorem outputInv_raise (k : ErrKind) (n : Nat) (s : State) : OutputInv (raiseFault k n s) :=
  outputInv_of_not_inStream (by simp [raiseFault_eq, Seq.inStream])

theorem outputInv_streamHdr {s t : State} (hs : s.seq = .streamHdr) (ht : stepStreamHdr s = .next t) : OutputInv t := by
  rw [stepStreamHdr_eq s hs] at ht
  cases ht
  repeat' split
  all_goals first
    | exact outputInv_raise _ _ _
    | exact ⟨fun _ hf => absurd hf (by simp [acceptStream]), fun _ _ he => absurd he (by simp [slotEmitted])⟩

theorem outputInv_frameHdr {s t : State} (h : Inv s) (ho : OutputInv s) (hs : s.seq = .frameHdr)
    (ht : stepFrameHdr s = .next t) : OutputInv t := by
  rw [stepFrameHdr_eq s hs] at ht
  have hin : s.seq.inStream = true := by simp [hs, Seq.inStream]
  split at ht
  · cases ht
    exact ⟨fun _ hf => ho.accepted hin hf, fun _ _ he => absurd he (by simp [slotEmitted])⟩
  split at ht
  · cases ht; exact outputInv_raise _ _ _
  split at ht
  · cases ht
  split at ht
  · cases ht; exact outputInv_raise _ _ _
  cases ht
  refine ⟨fun _ _ x h1 h2 => ?_, fun _ _ he => absurd he (by simp [slotEmitted])⟩
  cases hf : s.regs.first with
  | false =>
    have hc := (h.stream hin).noFrameYet hf
    simp [frameRegs, acceptHeader, hc] at h1 h2
    omega
  | true =>
    simp only [frameRegs, acceptHeader, hf, if_true, State.setSeq_regs, State.setRegs_regs] at h1 h2
    exact ho.accepted hin hf x h1 h2

theorem outputInv_lmsLoad {s t : State} (ho : OutputInv s) (hs : s.seq = .lmsLoad)
    (ht : stepLmsLoad s = .next t) : OutputInv t := by
  rw [stepLmsLoad_eq] at ht
  have hin : s.seq.inStream = true := by simp [hs, Seq.inStream]
  split at ht; · cases ht
  split at ht; · cases ht
  cases ht
  unfold afterLmsLoad
  simp only
  split
  · exact ⟨fun _ hf => ho.accepted hin hf, fun _ _ he => absurd he (by simp [slotEmitted])⟩
  · exact ⟨fun _ hf => ho.accepted hin hf, fun _ _ he => absurd he (by simp [slotEmitted, setChannel_eq, hs])⟩

theorem outputInv_sliceLoad {s t : State} (ho : OutputInv s) (hs : s.seq = .sliceLoad)
    (ht : stepSliceLoad s = .next t) : OutputInv t := by
  rw [stepSliceLoad_eq] at ht
  split at ht; · cases ht
  cases ht
  refine ⟨fun _ hf => ho.accepted (by simp [hs, Seq.inStream]) hf, fun n c he => ho.placed n c ?_⟩
  simp only [slotEmitted, hs]
  simpa [slotEmitted] using he

/-- Every sample emitted after a step in SAMPLE was emitted before it, or is the one the step emits. -/
theorem slotEmitted_afterSample {s : State} {l : Lms} {m : Memory} (h : Inv s) (hs : s.seq = .sample) {n c : Nat}
    (he : slotEmitted (afterSample ((afterSlot l s).setMem m)) n c) (hn : n < s.regs.fN.toNat) (hc : c < s.regs.fCh.toNat) :
    slotEmitted s n c ∨ (n = s.regs.slIdx.toNat * 20 + s.regs.j.toNat ∧ c = s.regs.chIdx.toNat) := by
  have hfr := h.frame (by simp [hs, Seq.inFrame])
  have hsc := (h.stream (by simp [hs, Seq.inStream])).streamChannels hfr.first
  have hch := congrArg BitVec.toNat hfr.channels
  have hp := h.position
  simp only [PositionInv, hs] at hp
  obtain ⟨p1, p2, p3, -⟩ := hp
  have hfs := hfr.slices
  have hfn := hfr.samples
  have hj : (s.regs.j + 1).toNat = s.regs.j.toNat + 1 := by rw [BitVec.toNat_add]; simp; omega
  have hc1 : (s.regs.chIdx + 1).toNat = s.regs.chIdx.toNat + 1 := by rw [BitVec.toNat_add]; simp; omega
  have hsl : (s.regs.slIdx + 1).toNat = s.regs.slIdx.toNat + 1 := by
    have : s.regs.fSlices.toNat ≤ 256 := by rw [hfs]; unfold sliceCount; omega
    rw [BitVec.toNat_add]; simp; omega
  have hregs : ((afterSlot l s).setMem m).regs = { s.regs with j := s.regs.j + 1 } := rfl
  have hseq : ((afterSlot l s).setMem m).seq = .sample := hs
  simp only [slotEmitted, hs]
  unfold afterSample at he
  rw [hregs] at he
  simp only at he
  split at he
  · rename_i h20
    have h19 : s.regs.j.toNat + 1 = 20 := by rw [← hj, h20]; rfl
    split at he
    · rename_i hlast
      have hlast := congrArg BitVec.toNat hlast
      split at he
      · rename_i hend
        have hend : (s.regs.slIdx + 1).toNat = s.regs.fSlices.toNat := congrArg BitVec.toNat hend
        simp only [sliceCount] at hfs
        omega
      · simp only [slotEmitted, State.setSeq_seq, State.setSeq_regs, State.setRegs_regs] at he
        rw [hsl] at he
        simp only [BitVec.toNat_ofNat, Nat.zero_mod] at he
        omega
    · have hne : s.regs.slIdx ≠ s.regs.fSlices := fun hx => by rw [hx] at p2; omega
      simp only [hne, if_false, slotEmitted, State.setSeq_seq, State.setSeq_regs, State.setRegs_regs] at he
      omega
  · simp only [slotEmitted, hseq, hregs] at he
    omega

theorem outputInv_sample {s t : State} (h : Inv s) (ho : OutputInv s) (hs : s.seq = .sample)
    (ht : stepSample s = .next t) : OutputInv t := by
  have hin : s.seq.inStream = true := by simp [hs, Seq.inStream]
  have hfr := h.frame (by simp [hs, Seq.inFrame])
  have hsc := (h.stream hin).streamChannels hfr.first
  have hch := congrArg BitVec.toNat hfr.channels
  have hp := h.position
  simp only [PositionInv, hs] at hp
  obtain ⟨p1, p2, p3, -⟩ := hp
  obtain ⟨l, hl⟩ := channel_isSome s s.regs.chIdx.toNat (by omega)
  rw [stepSample_eq p3 hl] at ht
  obtain ⟨u, hu, hv⟩ := andThen_eq_next ht
  cases hv
  have hn16 : (slotValues l s).n.toNat = s.regs.slIdx.toNat * 20 + s.regs.j.toNat := by
    have := s.regs.slIdx.isLt
    simp only [slotValues, BitVec.toNat_ofNat]
    omega
  obtain ⟨m, rfl, hclear⟩ : ∃ m, u = (afterSlot l s).setMem m ∧
      ∀ a, outputAddr (afterSlot l s) = some a → inInputRegion s a = false ∧ inInputRegion s (a + 1) = false := by
    rcases execFrameOut_cases (afterSlot l s) with ⟨hnone, h'⟩ | ⟨a, ha, ⟨_, h'⟩ | ⟨_, _, h'⟩ | ⟨_, c1, c2, h'⟩⟩
    · rw [h'] at hu; cases hu
      exact ⟨s.mem, rfl, fun a ha => by rw [hnone] at ha; cases ha⟩
    · rw [h'] at hu; cases hu
    · rw [h'] at hu; cases hu
    · rw [h'] at hu; cases hu
      exact ⟨_, rfl, fun b hb => by rw [ha] at hb; cases hb; exact ⟨c1, c2⟩⟩
  have hregs : (afterSample ((afterSlot l s).setMem m)).regs =
      { s.regs with
        j := s.regs.j + 1
        chIdx := (afterSample ((afterSlot l s).setMem m)).regs.chIdx
        slIdx := (afterSample ((afterSlot l s).setMem m)).regs.slIdx } := by
    unfold afterSample
    simp only
    split
    · split <;> rfl
    · rfl
  have hargs : (afterSample ((afterSlot l s).setMem m)).args = s.args := by
    unfold afterSample
    split <;> rfl
  have hregion : ∀ x, inInputRegion (afterSample ((afterSlot l s).setMem m)) x = inInputRegion s x := by
    intro x; simp only [inInputRegion, hargs]
  refine ⟨fun _ _ x => ?_, fun n c he h1 h2 h3 => ?_⟩
  · rw [hargs, hregs, hregion]
    exact ho.accepted hin hfr.first x
  · rw [hregs] at h1 h2 h3
    rw [hargs, hregs, hregion, hregion]
    rcases slotEmitted_afterSample h hs he h1 h3 with hold | ⟨rfl, rfl⟩
    · exact ho.placed n c hold h1 h2 h3
    · refine hclear _ ?_
      have hdp : (afterSlot l s).dp = slotValues l s := rfl
      have hr : (afterSlot l s).regs = { s.regs with j := s.regs.j + 1 } := rfl
      have ha : (afterSlot l s).args = s.args := rfl
      have hcc : (slotValues l s).c = s.regs.chIdx := rfl
      simp only [outputAddr, hdp, hr, ha, hn16, hcc]
      rw [if_pos ⟨h1, h2⟩]

/-- At the end of a frame its samples join the accepted ones (R163). -/
theorem outputInv_frameEnd {s t : State} (h : Inv s) (ho : OutputInv s) (hs : s.seq = .frameEnd)
    (ht : stepFrameEnd s = .next t) : OutputInv t := by
  rw [stepFrameEnd_eq] at ht
  cases ht
  have hfr := h.frame (by simp [hs, Seq.inFrame])
  have hch := congrArg BitVec.toNat hfr.channels
  have hfn := hfr.samples
  have hneed := hfr.needed
  have b1 := s.regs.total.isLt
  have hcum : (s.regs.cum + s.regs.fN.setWidth 33).toNat = s.regs.cum.toNat + s.regs.fN.toNat := by
    rw [BitVec.toNat_add, BitVec.toNat_setWidth]; omega
  refine ⟨fun _ _ x h1 h2 => ?_, fun _ _ he => absurd he (by simp [slotEmitted])⟩
  simp only [State.setSeq_regs, State.setRegs_regs, State.setSeq_args, State.setRegs_args, hcum] at h1 h2
  change inInputRegion s x = false
  by_cases hold : x < s.args.outOffset.toNat + 2 * s.regs.sCh.toNat * min s.regs.cum.toNat s.regs.total.toNat
  · exact ho.accepted (by simp [hs, Seq.inStream]) hfr.first x h1 hold
  obtain ⟨k, hk⟩ : ∃ k, k = (x - s.args.outOffset.toNat) / 2 := ⟨_, rfl⟩
  have hpos : 0 < s.regs.sCh.toNat :=
    ((h.stream (by simp [hs, Seq.inStream])).streamChannels hfr.first).1
  have hdiv := Nat.div_add_mod k s.regs.sCh.toNat
  have hmod := Nat.mod_lt k hpos
  have hlt : k / s.regs.sCh.toNat < min (s.regs.cum.toNat + s.regs.fN.toNat) s.regs.total.toNat := by
    rw [Nat.div_lt_iff_lt_mul hpos, Nat.mul_comm]
    rw [Nat.mul_assoc] at h2
    omega
  have hge : s.regs.cum.toNat ≤ k / s.regs.sCh.toNat := by
    rw [Nat.le_div_iff_mul_le hpos, Nat.mul_comm]
    rw [min_eq_left (by omega), Nat.mul_assoc] at hold
    omega
  have hp := ho.placed (k / s.regs.sCh.toNat - s.regs.cum.toNat) (k % s.regs.sCh.toNat) (by simp [slotEmitted, hs])
    (by omega) (by omega) (by omega)
  have haddr : sampleAddr s.args.outOffset.toNat s.regs.cum.toNat s.regs.fCh.toNat
      (k / s.regs.sCh.toNat - s.regs.cum.toNat) (k % s.regs.sCh.toNat) = s.args.outOffset.toNat + 2 * k := by
    unfold sampleAddr
    rw [hch, Nat.add_sub_cancel' hge, Nat.mul_comm (k / _), hdiv]
  rw [haddr] at hp
  have hx : x = s.args.outOffset.toNat + 2 * k ∨ x = s.args.outOffset.toNat + 2 * k + 1 := by omega
  rcases hx with rfl | rfl
  · exact hp.1
  · exact hp.2

theorem outputInv_finish {s t : State} (ht : stepFinish s = .next t) : OutputInv t := by
  rw [stepFinish_eq] at ht
  cases ht
  split
  · exact outputInv_raise _ _ _
  · exact outputInv_of_not_inStream (by simp [completeSuccess_eq, Seq.inStream])

/-- An engine step keeps the output clear of the input region. -/
theorem outputInv_engine {s t : State} (h : Inv s) (ho : OutputInv s) (ht : engineStep s = .next t) : OutputInv t := by
  unfold engineStep at ht
  split at ht
  · cases ht; exact ho
  · exact outputInv_streamHdr ‹_› ht
  · exact outputInv_frameHdr h ho ‹_› ht
  · exact outputInv_lmsLoad ho ‹_› ht
  · exact outputInv_sliceLoad ho ‹_› ht
  · exact outputInv_sample h ho ‹_› ht
  · exact outputInv_frameEnd h ho ‹_› ht
  · exact outputInv_finish ht

/-- OutputInv depends on the sequencer registers and the argument registers alone. -/
theorem outputInv_congr {s t : State} (ho : OutputInv s) (hq : t.seq = s.seq) (hr : t.regs = s.regs)
    (ha : t.args = s.args) : OutputInv t := by
  have hregion : ∀ x, inInputRegion t x = inInputRegion s x := fun x => by simp only [inInputRegion, ha]
  refine ⟨fun h1 h2 x => ?_, fun n c he => ?_⟩
  · rw [ha, hr, hregion]
    exact ho.accepted (hq ▸ h1) (hr ▸ h2) x
  · rw [ha, hr, hregion, hregion]
    refine ho.placed n c ?_
    unfold slotEmitted at he ⊢
    rw [← hq, ← hr]
    exact he

/-- Where nothing is accepted and nothing placed, a change of the argument registers keeps OutputInv. -/
theorem outputInv_writeArgs {s : State} (h : Inv s) (ho : OutputInv s) (x : ArgRegs) : OutputInv (writeArgs x s) := by
  rcases writeArgs_cases x s with ⟨hb, e⟩ | ⟨_, e⟩
  · rw [e]
    exact outputInv_of_not_inStream (by simp [h.idleIff.mpr hb, Seq.inStream])
  · rw [e]; exact ho

theorem outputInv_writeCtrl {s : State} (ho : OutputInv s) (v : Word) : OutputInv (writeCtrl v s) := by
  rcases writeCtrl_cases v s with ⟨_, _, e⟩ | ⟨_, e⟩
  · rw [e, startDecode_eq]
    exact outputInv_of_not_inStream (by simp [Seq.inStream])
  · rw [e]; exact ho

end Sys2Proof.Machine
end

