-- ==== Sys2Proof/Laws/PerInstr.lean ====
section
/-! SUPPORT. What holds of every operation as syntax, one lemma per constructor: its encoded value fits in the bytes of its
selector's record (30_encoding.md R96). -/

namespace Sys2Proof.Laws.EncodedValueFits

open Sys2Proof

/-- The value of an operation's record fits in its selector's width. -/
def Statement (i : Instr) : Prop := (encodeValue i).2 < 256 ^ (encodeValue i).1.width

/-- A bit vector of at most 8·n bits fits in n bytes. -/
theorem toNat_lt_bytes {m : Nat} (x : BitVec m) (n : Nat) (h : m ≤ 8 * n) : x.toNat < 256 ^ n :=
  calc x.toNat < 2 ^ m := x.isLt
    _ ≤ 2 ^ (8 * n) := Nat.pow_le_pow_right (by omega) h
    _ = 256 ^ n := by rw [Nat.pow_mul]

/-- An operation without bits has the value 0. -/
theorem no_bits (sel : Selector) : 0 < 256 ^ sel.width := Nat.pow_pos (by decide)

/-- A register access fits in six bytes. -/
theorem bus_fits (x : BitVec 41) : x.toNat < 256 ^ Selector.bus.width := toNat_lt_bytes x 6 (by omega)

theorem dequant (sf : BitVec 4) (q : BitVec 3) : Statement (.dequant sf q) := toNat_lt_bytes _ 1 (by omega)

theorem lmsLoad (rec : LmsRecord) : Statement (.lmsLoad rec) := toNat_lt_bytes _ 16 (by omega)

theorem lmsPredict : Statement .lmsPredict := no_bits _

theorem lmsUpdate : Statement .lmsUpdate := no_bits _

theorem sliceLoad (word : BitVec 64) : Statement (.sliceLoad word) := toNat_lt_bytes _ 8 (by omega)

theorem sampleStep : Statement .sampleStep := no_bits _

theorem frameHdr (h : FrameHeader) : Statement (.frameHdr h) := toNat_lt_bytes _ 8 (by omega)

theorem frameCheck (h : FrameHeader) : Statement (.frameCheck h) := toNat_lt_bytes _ 8 (by omega)

theorem frameOut : Statement .frameOut := no_bits _

theorem frameEnd : Statement .frameEnd := no_bits _

theorem streamHdr (h : StreamHeader) : Statement (.streamHdr h) := toNat_lt_bytes _ 8 (by omega)

theorem streamLoop : Statement .streamLoop := no_bits _

theorem streamFinish : Statement .streamFinish := no_bits _

theorem start (v : Word) : Statement (.start v) := bus_fits _

theorem wrCtrlNop (v : Word) : Statement (.wrCtrlNop v) := bus_fits _

theorem rdStatus : Statement .rdStatus := bus_fits _

theorem rdArgInOffset : Statement .rdArgInOffset := bus_fits _

theorem rdArgInLength : Statement .rdArgInLength := bus_fits _

theorem rdArgOutOffset : Statement .rdArgOutOffset := bus_fits _

theorem rdResultSamples : Statement .rdResultSamples := bus_fits _

theorem rdResultChannels : Statement .rdResultChannels := bus_fits _

theorem rdResultRate : Statement .rdResultRate := bus_fits _

theorem rdCtrl : Statement .rdCtrl := bus_fits _

theorem rdReserved (off : BitVec 8) : Statement (.rdReserved off) := bus_fits _

theorem wrArgInOffset (v : Word) : Statement (.wrArgInOffset v) := bus_fits _

theorem wrArgInLength (v : Word) : Statement (.wrArgInLength v) := bus_fits _

theorem wrArgOutOffset (v : Word) : Statement (.wrArgOutOffset v) := bus_fits _

theorem wrIgnoredStatus (v : Word) : Statement (.wrIgnoredStatus v) := bus_fits _

theorem wrIgnoredSamples (v : Word) : Statement (.wrIgnoredSamples v) := bus_fits _

theorem wrIgnoredChannels (v : Word) : Statement (.wrIgnoredChannels v) := bus_fits _

theorem wrIgnoredRate (v : Word) : Statement (.wrIgnoredRate v) := bus_fits _

theorem wrIgnoredReserved (off : BitVec 8) (v : Word) : Statement (.wrIgnoredReserved off v) := bus_fits _

end Sys2Proof.Laws.EncodedValueFits
end

