-- ==== Sys2Proof/Tests/Slice0.lean ====
section
/-! SUPPORT. Tests: expected values are the spec's own (95_test_vectors.md, the encodings of 30_encoding.md), and for each
obligation with hypotheses a state and operands that meet them. -/

namespace Sys2Proof.Tests

open Sys2Proof Sys2Proof.Machine

/-! Helpers. -/

/-- The outcome is a next state with the property. -/
def nextIs (o : Host.Outcome State Fault Refusal) (p : State → Bool) : Bool :=
  match o with
  | .next t => p t
  | .fault _ => false
  | .refused _ => false

/-- The parameters' defaults with another MEM_SIZE. -/
def paramsOf (memSize : Nat) : Config.Params := { Config.Params.default with memSize := memSize }

/-- An idle block whose memory holds the bytes at inOff and whose argument registers describe them. -/
def fed (bs : List Byte) (inOff outOff memSize : Nat) : State :=
  { State.reset with
    params := paramsOf memSize
    mem := memStore [] inOff bs
    args := ⟨BitVec.ofNat 32 inOff, BitVec.ofNat 32 bs.length, BitVec.ofNat 32 outOff⟩ }

/-- The block busy in a sequencer state. -/
def busyAt (q : Seq) (r : SeqRegs) (s : State) : State := { s with status := statusStarted, seq := q, regs := r }

/-- The block with one channel's registers, CH_IDX on it. -/
def onChannel (c : Nat) (h w : List Int) : State :=
  let taps := fun (x : List Int) =>
    (⟨BitVec.ofInt 32 (x.getD 0 0), BitVec.ofInt 32 (x.getD 1 0), BitVec.ofInt 32 (x.getD 2 0),
      BitVec.ofInt 32 (x.getD 3 0)⟩ : Taps)
  setChannel { State.reset with regs := { SeqRegs.reset with chIdx := BitVec.ofNat 4 c } } c ⟨taps h, taps w⟩

/-- A channel's history and weights as lists. -/
def lmsOf (s : State) (c : Nat) : List Int × List Int :=
  match channel s c with
  | some l =>
    ([l.h.t0.toInt, l.h.t1.toInt, l.h.t2.toInt, l.h.t3.toInt], [l.w.t0.toInt, l.w.t1.toInt, l.w.t2.toInt, l.w.t3.toInt])
  | none => ([], [])

/-- Program P1's 40 bytes (95 L3). -/
def p1 : List Byte :=
  [0x71, 0x6F, 0x61, 0x66, 0x00, 0x00, 0x00, 0x14, 0x01, 0x00, 0xAC, 0x44, 0x00, 0x14, 0x00, 0x20] ++
  [0x00, 0x00, 0x00, 0x00, 0x00, 0x00, 0x00, 0x00, 0x00, 0x00, 0x00, 0x00, 0xE0, 0x00, 0x40, 0x00] ++
  [0x01, 0x23, 0x45, 0x67, 0x89, 0xAB, 0xCD, 0xEF]

/-- Program P2's 80 bytes (95 L3). -/
def p2 : List Byte :=
  [0x71, 0x6F, 0x61, 0x66, 0x00, 0x00, 0x00, 0x19, 0x02, 0x00, 0xBB, 0x80, 0x00, 0x19, 0x00, 0x48] ++
  [0x00, 0x00, 0x00, 0x00, 0x00, 0x00, 0x00, 0x00, 0x00, 0x00, 0x00, 0x00, 0xE0, 0x00, 0x40, 0x00] ++
  [0x00, 0x64, 0xFF, 0x9C, 0x00, 0xC8, 0xFF, 0x38, 0x00, 0x00, 0x00, 0x00, 0x00, 0x00, 0x00, 0x00] ++
  [0x34, 0x92, 0x49, 0x24, 0x92, 0x49, 0x24, 0x92, 0x36, 0xDB, 0x6D, 0xB6, 0xDB, 0x6D, 0xB6, 0xDB] ++
  [0x50, 0x53, 0x97, 0x70, 0x53, 0x97, 0x70, 0x53, 0x0F, 0xFF, 0xFF, 0xFF, 0xFF, 0xFF, 0xFF, 0xFF]

/-- P1 in memory, the block idle. -/
def s1 : State := fed p1 0 40 80

/-- P2 in memory at 16, the block idle. -/
def s2 : State := fed p2 16 256 512

/-- The stream registers after P1's stream header. -/
def r1Stream : SeqRegs := { SeqRegs.reset with endp := 40#33, fbase := 8#33, total := 20#32 }

/-- The sequencer registers inside P1's frame. -/
def r1Frame : SeqRegs :=
  { r1Stream with
    first := true, sCh := 1#4, sRate := 44100#24, fCh := 1#4, fRate := 44100#24, fN := 20#16, fSize := 32#16
    fSlices := 1#9 }

/-- The sequencer registers in slot j of P1's slice. -/
def r1Slot (j : Nat) : SeqRegs := { r1Frame with sliceWord := 0x0123456789ABCDEF#64, j := BitVec.ofNat 5 j }

/-- The sequencer registers after P1's frame. -/
def r1Done : SeqRegs := { r1Frame with cum := 20#33, fbase := 40#33 }

/-- The sequencer registers inside P2's frame. -/
def r2Frame : SeqRegs :=
  { SeqRegs.reset with
    endp := 96#33, fbase := 24#33, total := 25#32, first := true, sCh := 2#4, sRate := 48000#24, fCh := 2#4
    fRate := 48000#24, fN := 25#16, fSize := 72#16, fSlices := 2#9 }

/-- The sequencer registers in the last slot of P2's slice (s, c); the slice word is 0. -/
def r2Last (s c : Nat) : SeqRegs := { r2Frame with slIdx := BitVec.ofNat 9 s, chIdx := BitVec.ofNat 4 c, j := 19#5 }

/-- Every channel's history is in range where the LMS registers are as after reset. -/
theorem history_reset (s : State) (h : s.lms = Vector.replicate 8 Lms.reset) :
    ∀ (c : Nat) (l : Lms), channel s c = some l → historyInRange l := by
  intro c l hl
  rw [channel, h, Vector.getElem?_replicate] at hl
  split at hl
  · cases hl
    simp [historyInRange, sampleRange, Lms.reset]
  · cases hl

/-- Every channel's weights are 0 where the LMS registers are as after reset. -/
theorem weights_reset (s : State) (h : s.lms = Vector.replicate 8 Lms.reset) : WeightInv s := by
  intro c l _ hl
  rw [channel, h, Vector.getElem?_replicate] at hl
  split at hl
  · cases hl
    simp [weightInts, Ints4.within, Lms.reset]
  · cases hl

/-! WellFormed. -/

theorem test_wf_refuses_start_without_bit0 :
    (Instr.start 0#32).wellFormed = false ∧ (Instr.start 2#32).wellFormed = false ∧
      (Instr.start 0xFFFFFFFF#32).wellFormed = true := by
  decide

theorem test_wf_refuses_ctrl_nop_with_bit0 :
    (Instr.wrCtrlNop 1#32).wellFormed = false ∧ (Instr.wrCtrlNop 2#32).wellFormed = true := by
  decide

theorem test_wf_refuses_reserved_read_offsets :
    (Instr.rdReserved 0x1C#8).wellFormed = false ∧ (Instr.rdReserved 0x22#8).wellFormed = false ∧
      (Instr.rdReserved 0x20#8).wellFormed = true := by
  decide

theorem test_wf_refuses_reserved_write_offsets :
    (Instr.wrIgnoredReserved 0x1C#8 0#32).wellFormed = false ∧ (Instr.wrIgnoredReserved 0x21#8 0#32).wellFormed = false ∧
      (Instr.wrIgnoredReserved 0xFC#8 0#32).wellFormed = true := by
  decide

/-! Decoding: words written out from 30_encoding.md. -/

/-- R96 DQ_INDEX_7: 1111_110 is {sf 15, q 6}. -/
theorem test_decode_dequant : decode .dqIndex [0x7E] = .ok (.dequant 15#4 6#3) := by decide

theorem test_decode_refuses_index_bit7 : decode .dqIndex [0x80] = .error .badIndexBits := by decide

/-- R83 with the bytes of 95 PR. -/
theorem test_decode_lms_record :
    decode .lmsRecord [0xFF, 0xFF, 0x00, 0x01, 0x80, 0x00, 0x7F, 0xFF, 0xE0, 0x00, 0x40, 0x00, 0x00, 0x64, 0xFF, 0x9C] =
      .ok (.lmsLoad ⟨⟨-1, 1, -32768, 32767⟩, ⟨-8192, 16384, 100, -100⟩⟩) := by
  decide

theorem test_decode_slot_operations :
    decode .slotPredict [1, 2, 3, 4, 5, 6, 7, 8] = .ok .lmsPredict ∧
      decode .slotUpdate [1, 2, 3, 4, 5, 6, 7, 8] = .ok .lmsUpdate ∧
      decode .slot [1, 2, 3, 4, 5, 6, 7, 8] = .ok .sampleStep := by
  decide

theorem test_decode_slice_word :
    decode .sliceWord [0x01, 0x23, 0x45, 0x67, 0x89, 0xAB, 0xCD, 0xEF] = .ok (.sliceLoad 0x0123456789ABCDEF#64) := by
  decide

/-- 95 FR-2. -/
theorem test_decode_frame_header :
    decode .frameHeader [0x02, 0x00, 0xBB, 0x80, 0x00, 0x19, 0x00, 0x48] = .ok (.frameHdr ⟨2#8, 48000#24, 25#16, 72#16⟩) ∧
      decode .frameFields [0x02, 0x00, 0xBB, 0x80, 0x00, 0x19, 0x00, 0x48] =
        .ok (.frameCheck ⟨2#8, 48000#24, 25#16, 72#16⟩) := by
  decide

/-- 95 ST-2. -/
theorem test_decode_stream_header :
    decode .streamHeader [0x71, 0x6F, 0x61, 0x66, 0x00, 0x00, 0x14, 0x00] = .ok (.streamHdr ⟨0x716F6166#32, 5120#32⟩) := by
  decide

theorem test_decode_operations_without_bits :
    decode .emittedSample [] = .ok .frameOut ∧ decode .frameLast [] = .ok .frameEnd ∧
      decode .loopHead [] = .ok .streamLoop ∧ decode .loopExit [] = .ok .streamFinish := by
  decide

/-- R91: bit 0 of a CTRL write decides. -/
theorem test_decode_ctrl_writes :
    decode .bus [0x01, 0x00, 0xFF, 0xFF, 0xFF, 0xFF] = .ok (.start 0xFFFFFFFF#32) ∧
      decode .bus [0x01, 0x00, 0xFF, 0xFF, 0xFF, 0xFE] = .ok (.wrCtrlNop 0xFFFFFFFE#32) := by
  decide

theorem test_decode_reads :
    decode .bus [0x00, 0x00, 0, 0, 0, 7] = .ok .rdCtrl ∧ decode .bus [0x00, 0x04, 0, 0, 0, 0] = .ok .rdStatus ∧
      decode .bus [0x00, 0x08, 0, 0, 0, 0] = .ok .rdArgInOffset ∧
      decode .bus [0x00, 0x0C, 0, 0, 0, 0] = .ok .rdArgInLength ∧
      decode .bus [0x00, 0x10, 0, 0, 0, 0] = .ok .rdArgOutOffset ∧
      decode .bus [0x00, 0x14, 0, 0, 0, 0] = .ok .rdResultSamples ∧
      decode .bus [0x00, 0x18, 0, 0, 0, 0] = .ok .rdResultChannels ∧
      decode .bus [0x00, 0x1C, 0, 0, 0, 0] = .ok .rdResultRate ∧
      decode .bus [0x00, 0x24, 0, 0, 0, 0] = .ok (.rdReserved 0x24#8) := by
  decide

theorem test_decode_writes :
    decode .bus [0x01, 0x08, 0, 0, 1, 0] = .ok (.wrArgInOffset 0x100#32) ∧
      decode .bus [0x01, 0x0C, 0, 0, 0, 0x28] = .ok (.wrArgInLength 0x28#32) ∧
      decode .bus [0x01, 0x10, 0, 0, 0, 0x28] = .ok (.wrArgOutOffset 0x28#32) ∧
      decode .bus [0x01, 0x04, 0, 0, 0, 1] = .ok (.wrIgnoredStatus 1#32) ∧
      decode .bus [0x01, 0x14, 0, 0, 0, 7] = .ok (.wrIgnoredSamples 7#32) ∧
      decode .bus [0x01, 0x18, 0, 0, 0, 7] = .ok (.wrIgnoredChannels 7#32) ∧
      decode .bus [0x01, 0x1C, 0, 0, 0, 7] = .ok (.wrIgnoredRate 7#32) ∧
      decode .bus [0x01, 0x20, 0, 0, 0, 5] = .ok (.wrIgnoredReserved 0x20#8 5#32) := by
  decide

theorem test_decode_refuses_bus_values_outside :
    decode .bus [0x00, 0x06, 0, 0, 0, 0] = .error .misalignedOffset ∧
      decode .bus [0x02, 0x04, 0, 0, 0, 0] = .error .badBusBits ∧ decode .bus [0x00, 0x04] = .error .badLength := by
  decide

/-- R93, R94: P1's description assembles to its bytes. -/
theorem test_assemble_p1 :
    assemble Config.defaultMagic
      [ .stream 20, .frameAuto 1 44100 20, .lms 0 0 0 0 0 0 (-8192) 16384,
        .slice 0 [0, 4, 4, 3, 2, 1, 2, 6, 3, 6, 1, 1, 5, 2, 7, 4, 6, 7, 5, 7] ] = p1 := by
  decide

/-- R94: SLICEFILL 3 1 is the word of 95 SL-1. -/
theorem test_assemble_slicefill :
    assemble Config.defaultMagic [.sliceFill 3 1] = [0x32, 0x49, 0x24, 0x92, 0x49, 0x24, 0x92, 0x49] := by
  decide

/-! One operation on a small state. -/

/-- 95 DQ-7. -/
theorem test_dequant_largest : nextIs (exec (.dequant 15#4 6#3) State.reset) (fun t => t.dp.r.toInt == 14336) = true := by
  decide

/-- 95 DQ-3. -/
theorem test_dequant_row0_column7 : nextIs (exec (.dequant 0#4 7#3) State.reset) (fun t => t.dp.r.toInt == -7) = true := by
  decide

/-- 95 PR, LMS_LOAD sign extension. -/
theorem test_lmsLoad_sign_extends :
    nextIs (exec (.lmsLoad ⟨⟨-1, 1, -32768, 32767⟩, ⟨-8192, 16384, 100, -100⟩⟩) (onChannel 7 [] []))
      (fun t => lmsOf t 7 == ([-1, 1, -32768, 32767], [-8192, 16384, 100, -100])) = true := by
  decide

/-- 95 PR-8. -/
theorem test_lmsPredict_floors :
    nextIs (exec .lmsPredict (onChannel 0 [0, 0, 0, -1] [0, 0, 0, 8193])) (fun t => t.dp.p.toInt == -2) = true := by
  decide

/-- 95 PR-9. -/
theorem test_lmsPredict_wraps :
    nextIs (exec .lmsPredict (onChannel 0 [0, 0, 32767, 32767] [0, 0, 65536, 65536]))
      (fun t => t.dp.p.toInt == -16) = true := by
  decide

/-- 95 PR-15. -/
theorem test_lmsUpdate_sign_of_history :
    nextIs (exec .lmsUpdate
      { onChannel 3 [1, -1, 0, -5] [10, 10, 10, 10] with dp := { Datapath.reset with s := -300, r := -316 } })
      (fun t => lmsOf t 3 == ([-1, 0, -5, -300], [-10, 30, -10, 30])) = true := by
  decide

/-- 95 PR-17. -/
theorem test_lmsUpdate_wraps :
    nextIs (exec .lmsUpdate
      { onChannel 0 [0, 0, 0, 0] [2147483647, 0, 0, 0] with dp := { Datapath.reset with s := 100, r := 100 } })
      (fun t => lmsOf t 0 == ([0, 0, 0, 100], [-2147483643, 6, 6, 6])) = true := by
  decide

/-- 95 SL-1, third and eighth words. -/
theorem test_sliceLoad_scale_factor :
    nextIs (exec (.sliceLoad 0xFDB6DB6DB6DB6DB6#64) { State.reset with regs := { SeqRegs.reset with j := 20#5 } })
      (fun t => t.regs.sf == 15#4 && t.regs.j == 0#5 && t.regs.sliceWord == 0xFDB6DB6DB6DB6DB6#64) = true := by
  decide

/-- 95 P5, slot 0: the prediction wraps to -32, the sample is 14304, the weights move by 896. -/
theorem test_sampleStep_p5_slot0 :
    nextIs (exec .sampleStep
      { onChannel 0 [32767, 32767, 32767, 32767] [32767, 32767, 32767, 32767] with
        regs := { SeqRegs.reset with sliceWord := 0xFDB0000000000000#64, sf := 15#4 } })
      (fun t => t.dp.p.toInt == -32 && t.dp.s.toInt == 14304 && t.regs.j == 1#5 &&
        lmsOf t 0 == ([32767, 32767, 32767, 14304], [33663, 33663, 33663, 33663])) = true := by
  decide

/-- 95 P5, slot 1: the clamp at the lower end. -/
theorem test_sampleStep_p5_slot1 :
    nextIs (exec .sampleStep
      { onChannel 0 [32767, 32767, 32767, 14304] [33663, 33663, 33663, 33663] with
        regs := { SeqRegs.reset with sliceWord := 0xFDB0000000000000#64, sf := 15#4, j := 1#5 } })
      (fun t => t.dp.p.toInt == -61566 && t.dp.s.toInt == -32768 && t.dp.n == 1#16) = true := by
  decide

/-- 95 FR-2. -/
theorem test_frameHdr_fields :
    nextIs (exec (.frameHdr ⟨2#8, 48000#24, 25#16, 72#16⟩) (busyAt .frameHdr { r2Frame with first := false } s2))
      (fun t => t.regs.fCh == 2#4 && t.regs.fRate == 48000#24 && t.regs.fN == 25#16 && t.regs.fSize == 72#16 &&
        t.regs.fSlices == 2#9 && t.regs.first) = true := by
  decide

/-- 95 E-10: three bytes of a frame header. -/
theorem test_frameHdr_truncated :
    nextIs (exec (.frameHdr ⟨1#8, 0#24, 0#16, 0#16⟩) (busyAt .frameHdr { r1Stream with endp := 11#33 } s1))
      (fun t => t.status.word == 0x26#32 && t.seq == .idle) = true := by
  decide

/-- 95 E-7: the size law. -/
theorem test_frameCheck_size_law :
    nextIs (exec (.frameCheck ⟨1#8, 8000#24, 20#16, 33#16⟩) (busyAt .frameHdr { r1Stream with endp := 48#33 } s1))
      (fun t => t.status.word == 0x46#32) = true := by
  decide

/-- 95 P4: a later frame with another channel count; CUM is 0 here, so the failure window is empty. -/
theorem test_frameCheck_sequence :
    nextIs (exec (.frameCheck ⟨2#8, 44100#24, 20#16, 56#16⟩) (busyAt .frameHdr { r1Frame with endp := 64#33 } s1))
      (fun t => t.status.word == 0x56#32) = true := by
  decide

/-- 95 FR-4: the sample lands at MEM[350..351], the low byte first (R64). -/
theorem test_frameOut_address :
    nextIs (exec .frameOut
      { s2 with
        regs := { r2Frame with cum := 20#33, total := 100#32 }
        dp := { Datapath.reset with n := 3#16, c := 1#4, s := 0x1234#16 } })
      (fun t => memBytes t.mem 349 4 == [0x00, 0x34, 0x12, 0x00]) = true := by
  decide +kernel

/-- 95 FR-6 and FR-7: padding, and beyond the total. -/
theorem test_frameOut_discards :
    nextIs (exec .frameOut { s2 with regs := r2Frame, dp := { Datapath.reset with n := 25#16, s := 1#16 } })
        (fun t => t.mem == s2.mem) = true ∧
      nextIs (exec .frameOut { s1 with regs := { r1Frame with total := 15#32 }, dp := { Datapath.reset with n := 15#16, s := 1#16 } })
        (fun t => t.mem == s1.mem) = true := by
  decide +kernel

/-- 95 FR-8. -/
theorem test_frameEnd_moves_on :
    nextIs (exec .frameEnd (busyAt .frameEnd r1Frame s1)) (fun t => t.regs.cum == 20#33 && t.regs.fbase == 40#33) = true := by
  decide

/-- 95 ST-1. -/
theorem test_streamHdr_starts :
    nextIs (exec (.streamHdr ⟨0x716F6166#32, 20#32⟩) (busyAt .streamHdr SeqRegs.reset s1))
      (fun t => t.regs.total == 20#32 && t.regs.fbase == 8#33 && t.regs.endp == 40#33 && t.status.busy) = true := by
  decide

/-- 95 E-16: the magic before T = 0. -/
theorem test_streamHdr_magic_before_total :
    nextIs (exec (.streamHdr ⟨0#32, 0#32⟩) (busyAt .streamHdr SeqRegs.reset s1))
      (fun t => t.status.word == 0x16#32 && t.results == Results.reset && t.seq == .idle) = true := by
  decide

/-- 95 CT-13, steps 2 and 26. -/
theorem test_streamLoop_p1 :
    nextIs (exec .streamLoop (busyAt .frameHdr r1Stream s1)) (fun t => t.seq == .frameHdr) = true ∧
      nextIs (exec .streamLoop (busyAt .frameHdr r1Done s1)) (fun t => t.seq == .finish) = true := by
  decide

/-- 95 ST-5. -/
theorem test_streamFinish_within_slack :
    nextIs (exec .streamFinish (busyAt .finish { r1Done with total := 5140#32 } s1))
      (fun t => t.status.word == 2#32 && t.results == ⟨20#32, 1#4, 44100#24⟩) = true := by
  decide

/-- 95 ST-6; CUM is 0 less a frame here, so the failure window is empty. -/
theorem test_streamFinish_past_slack :
    nextIs (exec .streamFinish (busyAt .finish { r1Done with total := 5121#32, cum := 0#33 } s1))
      (fun t => t.status.word == 0x66#32) = true := by
  decide

/-- 95 CT-3. -/
theorem test_start_idle :
    nextIs (exec (.start 1#32) { s1 with status := ⟨false, true, true, 5#4⟩, results := ⟨1#32, 1#4, 1#24⟩ })
      (fun t => t.status.word == 1#32 && t.results == Results.reset && t.seq == .streamHdr) = true := by
  decide

/-- 95 CT-5. -/
theorem test_start_while_busy :
    nextIs (exec (.start 1#32) (busyAt .sample r1Frame s1)) (fun t => t.seq == .sample && t.regs == r1Frame) = true := by
  decide

/-- 95 CT-8. -/
theorem test_wrCtrlNop_idle : nextIs (exec (.wrCtrlNop 2#32) s1) (fun t => t.seq == .idle && !t.status.busy) = true := by
  decide

/-- 95 CT-10: DONE, ERROR, ERR_KIND 5. -/
theorem test_rdStatus_failure :
    nextIs (exec .rdStatus { s1 with status := statusFailed .frameSequenceMismatch }) (fun t => t.busData == 0x56#32) = true := by
  decide

/-- 95 CT-2. -/
theorem test_rdArg :
    nextIs (exec .rdArgInOffset { s1 with args := ⟨3#32, 0x28#32, 5#32⟩ }) (fun t => t.busData == 3#32) = true ∧
      nextIs (exec .rdArgInLength { s1 with args := ⟨3#32, 0x28#32, 5#32⟩ }) (fun t => t.busData == 0x28#32) = true ∧
      nextIs (exec .rdArgOutOffset { s1 with args := ⟨3#32, 0x28#32, 5#32⟩ }) (fun t => t.busData == 5#32) = true := by
  decide

/-- 95 CT-9. -/
theorem test_rdResult :
    nextIs (exec .rdResultSamples { s1 with results := ⟨20#32, 1#4, 44100#24⟩ }) (fun t => t.busData == 20#32) = true ∧
      nextIs (exec .rdResultChannels { s1 with results := ⟨20#32, 1#4, 44100#24⟩ }) (fun t => t.busData == 1#32) = true ∧
      nextIs (exec .rdResultRate { s1 with results := ⟨20#32, 1#4, 44100#24⟩ }) (fun t => t.busData == 44100#32) = true := by
  decide

/-- 95 CT-7. -/
theorem test_rdCtrl_rdReserved :
    nextIs (exec .rdCtrl { s1 with busData := 9#32 }) (fun t => t.busData == 0#32) = true ∧
      nextIs (exec (.rdReserved 0x24#8) { s1 with busData := 9#32 }) (fun t => t.busData == 0#32) = true := by
  decide

/-- 95 CT-2: the write while idle. -/
theorem test_wrArg_idle :
    nextIs (exec (.wrArgInOffset 1#32) State.reset) (fun t => t.args == ⟨1#32, 0#32, 0#32⟩) = true ∧
      nextIs (exec (.wrArgInLength 0x28#32) State.reset) (fun t => t.args == ⟨0#32, 0x28#32, 0#32⟩) = true ∧
      nextIs (exec (.wrArgOutOffset 1#32) State.reset) (fun t => t.args == ⟨0#32, 0#32, 1#32⟩) = true := by
  decide

/-- 95 CT-4. -/
theorem test_wrArg_busy :
    nextIs (exec (.wrArgInOffset 0x100#32) (busyAt .sample r1Frame s1)) (fun t => t.args == s1.args) = true := by
  decide

/-- 95 CT-6. -/
theorem test_wrIgnored :
    nextIs (exec (.wrIgnoredStatus 0xFFFFFFFF#32) s1) (fun t => t.status == s1.status) = true ∧
      nextIs (exec (.wrIgnoredSamples 7#32) s1) (fun t => t.results == s1.results) = true ∧
      nextIs (exec (.wrIgnoredChannels 7#32) s1) (fun t => t.results == s1.results) = true ∧
      nextIs (exec (.wrIgnoredRate 7#32) s1) (fun t => t.results == s1.results) = true ∧
      nextIs (exec (.wrIgnoredReserved 0x20#8 5#32) s1) (fun t => t.args == s1.args) = true := by
  decide

/-! Steps. -/

/-- 95 CT-1: STATUS reads 0 after reset, through the register window. -/
theorem test_step_reads_status :
    nextIs (step { State.reset with schedule := [.bus ⟨4, 32, false, 0#32⟩], busData := 1#32 })
      (fun t => t.busData == 0#32 && t.schedule == []) = true := by
  decide

/-- 95 CT-12: a 16-bit read of STATUS, and a 32-bit read at offset 0x06. -/
theorem test_step_refuses_accesses :
    step { State.reset with schedule := [.bus ⟨4, 16, false, 0#32⟩] } = .refused (.badWidth 16) ∧
      step { State.reset with schedule := [.bus ⟨6, 32, false, 0#32⟩] } = .refused (.badEncoding .misalignedOffset) :=
  ⟨rfl, rfl⟩

/-- 95 CT-13, step 1: the stream header of P1 is fetched, decoded and run. -/
theorem test_step_stream_header :
    nextIs (step (busyAt .streamHdr SeqRegs.reset s1)) (fun t => t.seq == .frameHdr && t.regs == r1Stream) = true := by
  decide

/-- A slice word placed as the next word is the one the step loads. -/
theorem test_withFetchWord_slice :
    nextIs (step (State.reset.withFetchWord 64 0x3249249249249249))
      (fun t => t.regs.sliceWord == 0x3249249249249249#64 && t.regs.sf == 3#4) = true := by
  decide

/-! States that meet the invariant, one in each sequencer state. -/

/-- An idle block with nothing decoded yet, whose memory is canonical and inside MEM. -/
structure Fresh (b : State) : Prop where
  noProbe : b.probe = none
  memSize : 1 ≤ b.params.memSize ∧ b.params.memSize ≤ 2 ^ 32
  memCanonical : b.mem.wf = true
  memInside : ∀ c ∈ b.mem, c.1 < b.params.memSize
  status : b.status = Status.reset
  results : b.results = Results.reset
  lms : b.lms = Vector.replicate 8 Lms.reset
  seq : b.seq = .idle

theorem fresh_s1 : Fresh s1 :=
  ⟨rfl, by decide, by decide, by decide, rfl, rfl, rfl, rfl⟩

theorem fresh_s2 : Fresh s2 :=
  ⟨rfl, by decide, by decide +kernel, by decide +kernel, rfl, rfl, rfl, rfl⟩

theorem inv_fresh {b : State} (h : Fresh b) : Inv b := by
  refine ⟨h.noProbe, h.memSize, h.memCanonical, h.memInside, by simp [h.seq, h.status, Status.reset],
    ?_, ?_, history_reset b h.lms, by simp [h.seq, Seq.inStream], by simp [h.seq], by simp [h.seq, Seq.inFrame],
    by simp [PositionInv, h.seq]⟩
  · exact ⟨by simp [h.status, Status.reset], by simp [h.status, Status.reset], by simp [h.status, Status.reset]⟩
  · exact ⟨fun _ => h.results, by simp [h.status, Status.reset]⟩

theorem inv_busyAt {b : State} (h : Fresh b) (q : Seq) (r : SeqRegs) (hq : q ≠ .idle)
    (hs : q.inStream = true → StreamInv (busyAt q r b))
    (hb : q = .frameHdr ∨ q = .finish → BetweenInv (busyAt q r b))
    (hf : q.inFrame = true → FrameInv (busyAt q r b)) (hp : PositionInv (busyAt q r b)) : Inv (busyAt q r b) := by
  refine ⟨h.noProbe, h.memSize, h.memCanonical, h.memInside, by simp [busyAt, hq, statusStarted], ?_, ?_,
    history_reset _ h.lms, hs, hb, hf, hp⟩
  · exact ⟨by simp [busyAt, statusStarted], by simp [busyAt, statusStarted], by simp [busyAt, statusStarted]⟩
  · exact ⟨fun _ => h.results, by simp [busyAt, statusStarted]⟩

theorem witness_inv_streamHdr : Inv (busyAt .streamHdr SeqRegs.reset s1) :=
  inv_busyAt fresh_s1 _ _ (by decide) (fun h => absurd h (by decide)) (fun h => absurd h (by decide))
    (fun h => absurd h (by decide)) trivial

theorem witness_inv_frameHdr : Inv (busyAt .frameHdr r1Stream s1) :=
  inv_busyAt fresh_s1 _ _ (by decide)
    (fun _ => ⟨by decide, by decide, by decide, by decide, by decide, by decide, by decide, by decide⟩)
    (fun _ => ⟨by decide, by decide⟩) (fun h => absurd h (by decide)) trivial

theorem stream_r1 (q : Seq) : StreamInv (busyAt q (r1Slot 0) s1) := by
  cases q <;>
  exact ⟨by decide, by decide, by decide, by decide, by decide, fun h => absurd h (by decide), fun _ => by decide,
    fun _ => by decide⟩

theorem frame_r1 (q : Seq) : FrameInv (busyAt q (r1Slot 0) s1) := by
  cases q <;>
  exact ⟨rfl, rfl, rfl, by decide, by decide, by decide, by decide, by decide, by decide⟩

theorem witness_inv_lmsLoad : Inv (busyAt .lmsLoad (r1Slot 0) s1) :=
  inv_busyAt fresh_s1 _ _ (by decide) (fun _ => stream_r1 _) (fun h => absurd h (by decide))
    (fun _ => frame_r1 _) (show _ < _ by decide)

theorem witness_inv_sliceLoad : Inv (busyAt .sliceLoad (r1Slot 0) s1) :=
  inv_busyAt fresh_s1 _ _ (by decide) (fun _ => stream_r1 _) (fun h => absurd h (by decide))
    (fun _ => frame_r1 _) ⟨by decide, by decide⟩

theorem witness_inv_sample : Inv (busyAt .sample (r1Slot 0) s1) :=
  inv_busyAt fresh_s1 _ _ (by decide) (fun _ => stream_r1 _) (fun h => absurd h (by decide))
    (fun _ => frame_r1 _) ⟨by decide, by decide, by decide, by decide⟩

theorem witness_inv_frameEnd : Inv (busyAt .frameEnd (r1Slot 0) s1) :=
  inv_busyAt fresh_s1 _ _ (by decide) (fun _ => stream_r1 _) (fun h => absurd h (by decide))
    (fun _ => frame_r1 _) trivial

theorem witness_inv_finish (total : Word) (h1 : 1 ≤ total.toNat) (h2 : 20 < total.toNat + 5120) :
    Inv (busyAt .finish { r1Done with total := total } s1) :=
  inv_busyAt fresh_s1 _ _ (by decide)
    (fun _ =>
      ⟨(rfl : 40 = 0 + 40), (by decide : 40 ≤ 80), (by decide : 0 + 8 ≤ 40), (by decide : 40 ≤ 40), h1,
        fun h => absurd h (show ¬true = false by decide), fun _ => (by decide : 1 ≤ 1 ∧ 1 ≤ 8),
        fun _ => by show 40 + 2 * 1 * min 20 total.toNat ≤ 80; omega⟩)
    (fun _ => ⟨fun _ => (by decide : 1 ≤ 20), h2⟩) (fun h => absurd h (by decide)) trivial

/-- The last slot of each of P2's four slices. -/
theorem witness_inv_last_slot (s c : Nat) (hs : s < 2) (hc : c < 2) : Inv (busyAt .sample (r2Last s c) s2) := by
  have hs' : s = 0 ∨ s = 1 := by omega
  have hc' : c = 0 ∨ c = 1 := by omega
  rcases hs' with rfl | rfl <;> rcases hc' with rfl | rfl <;>
  exact inv_busyAt fresh_s2 _ _ (by decide)
    (fun _ => ⟨by decide, by decide, by decide, by decide, by decide, fun h => absurd h (by decide), fun _ => by decide,
      fun _ => by decide⟩)
    (fun h => absurd h (by decide))
    (fun _ => ⟨rfl, rfl, rfl, by decide, by decide, by decide, by decide, by decide, by decide⟩)
    ⟨by decide, by decide, by decide, by decide⟩

/-- The first of P2's two predictor state records. -/
theorem witness_inv_two_channels : Inv (busyAt .lmsLoad r2Frame s2) :=
  inv_busyAt fresh_s2 _ _ (by decide)
    (fun _ => ⟨by decide, by decide, by decide, by decide, by decide, fun h => absurd h (by decide), fun _ => by decide,
      fun _ => by decide⟩)
    (fun h => absurd h (by decide))
    (fun _ => ⟨rfl, rfl, rfl, by decide, by decide, by decide, by decide, by decide, by decide⟩)
    (show _ < _ by decide)

/-! For each obligation with hypotheses: a state and operands that meet them, one for each clause. -/

theorem witness_DecodeOfEncodeIsTheOperation :
    (Instr.rdReserved 0x20#8).wellFormed = true ∧ (Instr.lmsLoad ⟨⟨-1, 1, -32768, 32767⟩, ⟨0, 0, 0, 0⟩⟩).wellFormed = true := by
  decide

theorem witness_EveryRecordBitIsAField :
    beNat [0x7F] < 128 ∧ [(0x7F : Byte)].length = Selector.dqIndex.width ∧
      p1.take 8 ≠ [] ∧ (p1.take 8).length = Selector.streamHeader.width ∧
      (p1.take 8).length = Selector.frameHeader.width ∧ (p1.take 8).length = Selector.frameFields.width ∧
      (p1.take 8).length = Selector.sliceWord.width ∧ (p1.take 16).length = Selector.lmsRecord.width := by
  decide

theorem witness_BusValueSelectsFirstTableRow :
    ((0x1FCFFFFFFFF#41).extractLsb' 32 8).toNat % 4 = 0 ∧ ((0x02000000000#41).extractLsb' 32 8).toNat % 4 = 0 := by
  decide

theorem witness_ResidualCodeOfSlot : 0 < 20 ∧ 19 < 20 := by decide

theorem witness_SliceWordIsItsFields :
    scaleFactor 7#64 = scaleFactor 7#64 ∧ ∀ j, j < 20 → residualCode 7#64 j = residualCode 7#64 j :=
  ⟨rfl, fun _ _ => rfl⟩

theorem witness_FrameRecordsLieApart : 7 < 8 ∧ 255 < sliceCount 5120 ∧ 0 < sliceCount 1 := by decide

theorem witness_DefaultTableFollowsItsLaw : 15 < 16 ∧ 3 < 4 ∧ 0 < 15 := by decide

theorem witness_LmsLoadSignExtendsTheRecord : (onChannel 7 [] []).regs.chIdx.toNat < 8 := by decide

theorem witness_LmsPredictShiftsTheWrappedSum :
    ∃ l, channel (onChannel 7 [1] [2]) (onChannel 7 [1] [2]).regs.chIdx.toNat = some l :=
  ⟨_, rfl⟩

theorem witness_LmsUpdateAdaptsThenShifts :
    ∃ l, channel (onChannel 0 [-1] [2]) (onChannel 0 [-1] [2]).regs.chIdx.toNat = some l :=
  ⟨_, rfl⟩

/-- Two states that differ in another channel's registers, for each of the three operations. -/
theorem witness_PredictorChannelsAreIndependent :
    let s := onChannel 1 [5] [6]
    let s' := setChannel s 2 ⟨⟨1, 2, 3, 4⟩, ⟨5, 6, 7, 8⟩⟩
    s' ≠ s ∧ s'.regs = s.regs ∧ s'.dp = s.dp ∧ s'.params = s.params ∧
      channel s' s.regs.chIdx.toNat = channel s s.regs.chIdx.toNat ∧
      (∃ t t', exec .lmsPredict s = .next t ∧ exec .lmsPredict s' = .next t') ∧
      (∃ t t', exec .lmsUpdate s = .next t ∧ exec .lmsUpdate s' = .next t') ∧
      (∃ t t', exec .sampleStep s = .next t ∧ exec .sampleStep s' = .next t') :=
  ⟨by decide +kernel, rfl, rfl, rfl, by decide, ⟨_, _, rfl, rfl⟩, ⟨_, _, rfl, rfl⟩, ⟨_, _, rfl, rfl⟩⟩

theorem witness_WeightBoundIsKept :
    let s := busyAt .sample (r1Slot 0) s1
    Inv s ∧ s.params.dequantTab = Config.defaultTab ∧ WeightInv s ∧ ∃ t, step s = .next t :=
  ⟨witness_inv_sample, rfl, weights_reset _ rfl, _, rfl⟩

theorem witness_WeightUpdatesNeverWrap :
    let s := busyAt .sample (r1Slot 0) s1
    Inv s ∧ s.params.dequantTab = Config.defaultTab ∧ WeightInv s ∧ s.seq = .sample ∧
      ∃ l t m, channel s s.regs.chIdx.toNat = some l ∧ exec .sampleStep s = .next t ∧
        channel t s.regs.chIdx.toNat = some m :=
  ⟨witness_inv_sample, rfl, weights_reset _ rfl, rfl, _, _, _, rfl, rfl, rfl⟩

theorem witness_SampleStepReconstructsTheSlot :
    let s := { onChannel 7 [1, 2, 3, 4] [5, 6, 7, 8] with regs := { SeqRegs.reset with chIdx := 7#4, j := 19#5 } }
    s.regs.j.toNat < 20 ∧ ∃ l, channel s s.regs.chIdx.toNat = some l :=
  ⟨by decide, _, rfl⟩

theorem witness_SliceIsDecodeSlice : ∃ l, channel s1 s1.regs.chIdx.toNat = some l := ⟨_, rfl⟩

/-- The words of 95 SL-8: the codes differ from slot 1 on. -/
theorem witness_PaddingCodesNeverReachRealSamples :
    (∃ l, channel s1 s1.regs.chIdx.toNat = some l) ∧ 1 ≤ 20 ∧
      scaleFactor 0x4600000000000000#64 = scaleFactor 0x47FFFFFFFFFFFFFF#64 ∧
      ∀ j, j < 1 → residualCode 0x4600000000000000#64 j = residualCode 0x47FFFFFFFFFFFFFF#64 j :=
  ⟨⟨_, rfl⟩, by decide, by decide, by decide⟩

theorem witness_MissingChannelOrSlotStops :
    (let s := { State.reset with regs := { SeqRegs.reset with chIdx := 8#4, j := 19#5 } }
     8 ≤ s.regs.chIdx.toNat ∧ s.regs.j.toNat < 20) ∧
    20 ≤ (busyAt .sample (r1Slot 20) s1).regs.j.toNat := by
  decide

/-- Each check of FRAME_CHECK decides somewhere, those before it passing; the last line passes all six. -/
theorem witness_FrameCheckFirstFailureDecides :
    let s := busyAt .frameHdr r1Stream s1
    let later := busyAt .frameHdr { r1Frame with endp := 64#33 } s1
    frameCheckKind ⟨9#8, 44100#24, 20#16, 32#16⟩ s = some .invalidChannelCount ∧
      frameCheckKind ⟨1#8, 44100#24, 5121#16, 32#16⟩ s = some .invalidFrameSize ∧
      frameCheckKind ⟨1#8, 44100#24, 20#16, 33#16⟩ s = some .invalidFrameSize ∧
      frameCheckKind ⟨1#8, 44100#24, 21#16, 40#16⟩ s = some .bufferTooSmall ∧
      frameCheckKind ⟨2#8, 44100#24, 20#16, 56#16⟩ later = some .frameSequenceMismatch ∧
      frameCheckKind ⟨1#8, 44100#24, 20#16, 32#16⟩ { s with params := paramsOf 79 } = some .bufferTooSmall ∧
      frameCheckKind ⟨1#8, 44100#24, 20#16, 32#16⟩ s = none := by
  decide

/-- Seven bytes left, eight bytes left; a header refused and a header accepted, first and later. -/
theorem witness_FrameHdrAcceptsCheckedHeader :
    let gap := fun s : State => (s.regs.endp.toNat : Int) - (s.regs.fbase.toNat : Int)
    gap (busyAt .frameHdr { r1Stream with endp := 15#33 } s1) < 8 ∧
      8 ≤ gap (busyAt .frameHdr { r1Stream with endp := 16#33 } s1) ∧
      (∃ t, exec (.frameCheck ⟨0#8, 0#24, 0#16, 0#16⟩) (busyAt .frameHdr { r1Stream with endp := 16#33 } s1) = .next t) ∧
      (busyAt .frameHdr r1Stream s1).regs.first = false ∧ (busyAt .frameHdr r1Frame s1).regs.first = true ∧
      (∃ t, exec (.frameCheck ⟨1#8, 44100#24, 20#16, 32#16⟩) (busyAt .frameHdr r1Stream s1) = .next t) ∧
      (∃ t, exec (.frameCheck ⟨1#8, 44100#24, 20#16, 32#16⟩) (busyAt .frameHdr r1Frame s1) = .next t) :=
  ⟨by decide, by decide, ⟨_, rfl⟩, rfl, rfl, ⟨_, rfl⟩, ⟨_, rfl⟩⟩

/-- The largest frame: eight channels, 5120 samples, 16520 bytes (R90), filling the input and MEM. -/
theorem witness_LegalHeaderCompletes :
    let h : FrameHeader := ⟨8#8, 0xFFFFFF#24, 5120#16, 16520#16⟩
    let s : State :=
      { State.reset with
        params := paramsOf 81920
        regs := { SeqRegs.reset with
          endp := 16528#33, fbase := 8#33, total := 5120#32, first := true, sCh := 8#4, sRate := 0xFFFFFF#24 } }
    1 ≤ h.channels.toNat ∧ h.channels.toNat ≤ 8 ∧ 1 ≤ h.samples.toNat ∧ h.samples.toNat ≤ 5120 ∧
      h.size.toNat = 8 + 16 * h.channels.toNat + 8 * h.channels.toNat * ((h.samples.toNat + 19) / 20) ∧
      s.regs.fbase.toNat + h.size.toNat ≤ s.regs.endp.toNat ∧
      (s.regs.first = true → h.channels.toNat = s.regs.sCh.toNat ∧ h.rate = s.regs.sRate) ∧
      s.args.outOffset.toNat + 2 * h.channels.toNat * min (s.regs.cum.toNat + h.samples.toNat) s.regs.total.toNat
        ≤ s.params.memSize := by
  decide

/-- P1's last sample at the end of MEM, in either byte order. -/
theorem witness_FrameOutPlacesTheSample :
    let s := { busyAt .sample (r1Slot 19) s1 with dp := { Datapath.reset with n := 19#16, s := -2#16 } }
    let a := s.args.outOffset.toNat + 2 * ((s.regs.cum.toNat + s.dp.n.toNat) * s.regs.fCh.toNat + s.dp.c.toNat)
    (s.dp.n.toNat < s.regs.fN.toNat ∧ s.regs.cum.toNat + s.dp.n.toNat < s.regs.total.toNat ∧ a + 2 = s.params.memSize ∧
      inInputRegion s a = false ∧ inInputRegion s (a + 1) = false) ∧
    s.params.outByteOrder = .little ∧
    ({ s with params := { s.params with outByteOrder := .big } } : State).params.outByteOrder = .big := by
  decide

theorem witness_FrameOutDiscardsPaddingAndExcess :
    (let s := { s1 with regs := r1Frame, dp := { Datapath.reset with n := 20#16 } }
     s.regs.fN.toNat ≤ s.dp.n.toNat) ∧
    (let s := { s1 with regs := { r1Frame with total := 15#32 }, dp := { Datapath.reset with n := 15#16 } }
     s.dp.n.toNat < s.regs.fN.toNat ∧ s.regs.total.toNat ≤ s.regs.cum.toNat + s.dp.n.toNat) ∧
    (let s := { s1 with regs := r1Frame, dp := { Datapath.reset with n := 19#16 } }
     (∃ t, exec .frameOut s = .next t) ∧ s.dp.c.toNat < s.regs.fCh.toNat) :=
  ⟨by decide, by decide, ⟨_, rfl⟩, by decide⟩

/-- The second byte past the end of MEM; the low byte inside the input region; the high byte alone, at its first byte. -/
theorem witness_FrameOutStopsOutsideItsContract :
    (let s := { s1 with regs := r1Frame, args := { s1.args with outOffset := 79#32 } }
     s.dp.n.toNat < s.regs.fN.toNat ∧ s.regs.cum.toNat + s.dp.n.toNat < s.regs.total.toNat ∧
       s.params.memSize < 79 + 2) ∧
    (let s := { s1 with regs := r1Frame, args := { s1.args with outOffset := 39#32 } }
     s.dp.n.toNat < s.regs.fN.toNat ∧ s.regs.cum.toNat + s.dp.n.toNat < s.regs.total.toNat ∧
       39 + 2 ≤ s.params.memSize ∧ inInputRegion s 39 = true) ∧
    (let s := { s1 with regs := r1Frame, args := ⟨16#32, 40#32, 15#32⟩ }
     s.dp.n.toNat < s.regs.fN.toNat ∧ s.regs.cum.toNat + s.dp.n.toNat < s.regs.total.toNat ∧
       15 + 2 ≤ s.params.memSize ∧ inInputRegion s 15 = false ∧ inInputRegion s (15 + 1) = true) := by
  decide

theorem witness_FrameEndMovesPastTheFrame :
    Inv (busyAt .frameEnd (r1Slot 0) s1) ∧ (busyAt .frameEnd (r1Slot 0) s1).seq = .frameEnd :=
  ⟨witness_inv_frameEnd, rfl⟩

/-- Each check of R180 decides somewhere, those before it passing; the last line passes all of them. -/
theorem witness_StreamHdrChecksThenStarts :
    let ok : StreamHeader := ⟨0x716F6166#32, 20#32⟩
    streamCheckKind ok { s1 with params := paramsOf 39 } = some .bufferTooSmall ∧
      streamCheckKind ok { s1 with args := ⟨0#32, 7#32, 40#32⟩ } = some .truncatedHeader ∧
      streamCheckKind ⟨0x706F6166#32, 20#32⟩ s1 = some .magicMismatch ∧
      (streamCheckKind ⟨0x716F6166#32, 0#32⟩ s1 = none ∧ (0#32).toNat = 0) ∧
      streamCheckKind ok { s1 with args := ⟨0#32, 8#32, 40#32⟩ } = none ∧ ok.total.toNat ≠ 0 := by
  decide

/-- A frame follows; the total is reached; the input ends first. -/
theorem witness_StreamLoopTestsTotalAndEnd :
    (r1Stream.cum.toNat < r1Stream.total.toNat ∧ r1Stream.fbase.toNat < r1Stream.endp.toNat) ∧
      r1Done.total.toNat ≤ r1Done.cum.toNat ∧
      (let r := { r1Done with total := 21#32 }
       r.cum.toNat < r.total.toNat ∧ r.endp.toNat ≤ r.fbase.toNat) := by
  decide

/-- No frame; too far by one; as far as the slack allows. -/
theorem witness_StreamFinishReportsTheTriple :
    r1Stream.first = false ∧
      (let s := busyAt .finish { r1Done with total := 5141#32 } s1
       (s.params.totalSlack : Int) < |(s.regs.cum.toNat : Int) - (s.regs.total.toNat : Int)|) ∧
      (let s := busyAt .finish { r1Done with total := 5140#32 } s1
       s.regs.first = true ∧ ¬(s.params.totalSlack : Int) < |(s.regs.cum.toNat : Int) - (s.regs.total.toNat : Int)|) := by
  decide

/-- A failure before any frame, and P8's failure after one frame (a window of 40 bytes). -/
theorem witness_FailureWindowIsUnspecified :
    (let s := busyAt .streamHdr SeqRegs.reset { s1 with params := { s1.params with magic := 0#32 } }
     s.seq ≠ .idle ∧ ∃ t, engineStep s = .next t ∧ t.status.error = true) ∧
    (let s := busyAt .finish { r1Done with total := 5141#32 } s1
     Inv s ∧ s.seq ≠ .idle ∧ failureWindow s = 40 ∧ ∃ t, engineStep s = .next t ∧ t.status.error = true) :=
  ⟨⟨by decide, _, rfl, rfl⟩, witness_inv_finish 5141#32 (by decide) (by decide), by decide, by decide, _, rfl, rfl⟩

theorem witness_StartBeginsADecodeOnAnIdleBlock :
    (0xFFFFFFFF#32).toNat % 2 = 1 ∧ s1.status.busy = false ∧ (busyAt .finish r1Done s1).status.busy = true ∧
      (0xFFFFFFFE#32).toNat % 2 = 0 := by
  decide

/-- The first and the last aligned offset of the window, at a REG_BASE other than 0. -/
theorem witness_BusReadReturnsTheRegister :
    let at_ := fun off : Nat =>
      { s1 with params := { s1.params with regBase := 0x1000 }, schedule := [.bus ⟨0x1000 + off, 32, false, 7#32⟩] }
    (0 < 256 ∧ 0 % 4 = 0 ∧ (at_ 0).probe = none ∧
      (at_ 0).schedule = .bus ⟨(at_ 0).params.regBase + 0, 32, false, 7#32⟩ :: []) ∧
    (252 < 256 ∧ 252 % 4 = 0 ∧ (at_ 252).probe = none ∧
      (at_ 252).schedule = .bus ⟨(at_ 252).params.regBase + 252, 32, false, 7#32⟩ :: []) := by
  decide

/-- A busy block with a result register's read next. -/
theorem witness_BusReadReturnsTheRegister_busy :
    let s := { busyAt .streamHdr SeqRegs.reset s1 with schedule := [.bus ⟨0x14, 32, false, 0#32⟩] }
    Inv s ∧ s.status.busy = true ∧ s.schedule = .bus ⟨s.params.regBase + 0x14, 32, false, 0#32⟩ :: [] := by
  have h := witness_inv_streamHdr
  exact ⟨⟨h.1, h.2, h.3, h.4, h.5, h.6, h.7, h.8, fun a => absurd a (by decide), fun a => absurd a (by decide),
    fun a => absurd a (by decide), trivial⟩, rfl, rfl⟩

theorem witness_ArgumentWritesOnlyWhileIdle :
    s1.status.busy = false ∧ (busyAt .lmsLoad r1Frame s1).status.busy = true := by
  decide

/-- Idle and busy, at an offset of each outcome of the statement. -/
theorem witness_BusWriteStartsWritesOrNothing :
    let at_ := fun (s : State) (off : Nat) (v : Word) => { s with schedule := [.bus ⟨off, 32, true, v⟩] }
    (∀ off ∈ [0x00, 0x04, 0x08, 0x0C, 0x10, 0x14, 0x20, 0xFC], off < 256 ∧ off % 4 = 0 ∧
      (at_ s1 off 1#32).probe = none ∧ (at_ s1 off 1#32).status.busy = false ∧
      (at_ s1 off 1#32).schedule = .bus ⟨s1.params.regBase + off, 32, true, 1#32⟩ :: []) ∧
    (at_ (busyAt .sample r1Frame s1) 0 1#32).status.busy = true := by
  decide

theorem witness_BusyBlockIgnoresEveryWrite :
    let s := { busyAt .sample (r1Slot 0) s1 with schedule := [.bus ⟨0, 32, true, 1#32⟩] }
    s.probe = none ∧ s.status.busy = true ∧ ∃ t, step s = .next t :=
  ⟨rfl, rfl, _, rfl⟩

/-- A 16-bit access, and 32-bit accesses at the first and the last misaligned offset. -/
theorem witness_AccessOutsideTheInterfaceIsRefused :
    (16 ≠ 32) ∧ s1.params.regBase ≤ 1 ∧ 255 < s1.params.regBase + 256 ∧ (1 - s1.params.regBase) % 4 ≠ 0 ∧
      (255 - s1.params.regBase) % 4 ≠ 0 := by
  decide

/-- The probe, a register access, a scheduled engine turn, and each sequencer state with its record. -/
theorem witness_StepRunsTheDecodedOperation :
    (∃ i, decode .slot [0, 0, 0, 0, 0, 0, 0, 0] = .ok i) ∧
    (∃ i, decodeBus (busWord true (BitVec.ofNat 8 (252 - s1.params.regBase)) 1#32) = .ok i) ∧
    (let s := busyAt .streamHdr SeqRegs.reset s1
     s.args.inOffset.toNat + s.args.inLength.toNat ≤ s.params.memSize ∧ 8 ≤ s.args.inLength.toNat ∧
       ∃ i, decode .streamHeader (memBytes s.mem s.args.inOffset.toNat 8) = .ok i) ∧
    (let s := busyAt .frameHdr r1Stream s1
     frameFollows s = true ∧ headerTruncated s = false ∧ s.regs.fbase.toNat + 8 ≤ s.params.memSize ∧
       ∃ i, decode .frameHeader (memBytes s.mem s.regs.fbase.toNat 8) = .ok i) ∧
    frameFollows (busyAt .frameHdr r1Done s1) = false ∧
    (let s := busyAt .lmsLoad (r1Slot 0) s1
     lmsRecordAddr s.regs.fbase.toNat s.regs.chIdx.toNat + 16 ≤ s.params.memSize ∧
       ∃ i, decode .lmsRecord (memBytes s.mem (lmsRecordAddr s.regs.fbase.toNat s.regs.chIdx.toNat) 16) = .ok i) ∧
    (let s := busyAt .sliceLoad (r1Slot 0) s1
     let a := sliceWordAddr s.regs.fbase.toNat s.regs.fCh.toNat s.regs.slIdx.toNat s.regs.chIdx.toNat
     a + 8 ≤ s.params.memSize ∧ ∃ i, decode .sliceWord (memBytes s.mem a 8) = .ok i) :=
  ⟨⟨_, rfl⟩, ⟨_, rfl⟩, ⟨by decide, by decide, _, rfl⟩, ⟨by decide, by decide, by decide, _, rfl⟩, by decide,
    ⟨by decide, _, rfl⟩, by decide, _, rfl⟩

/-- The header that is not read: a region past MEM by one byte, seven bytes of input, seven bytes before END. The record
past MEM by one byte, in each state that fetches one. -/
theorem witness_StepRunsTheDecodedOperation_unread :
    (let s := busyAt .streamHdr SeqRegs.reset { s1 with params := paramsOf 39 }
     s.params.memSize < s.args.inOffset.toNat + s.args.inLength.toNat) ∧
    (let s := busyAt .streamHdr SeqRegs.reset { s1 with args := ⟨0#32, 7#32, 40#32⟩ }
     s.args.inLength.toNat < 8) ∧
    (let s := busyAt .frameHdr { r1Stream with endp := 15#33 } s1
     frameFollows s = true ∧ headerTruncated s = true) ∧
    (let s := busyAt .frameHdr r1Stream { s1 with params := paramsOf 15 }
     frameFollows s = true ∧ headerTruncated s = false ∧ s.params.memSize < s.regs.fbase.toNat + 8) ∧
    (let s := busyAt .lmsLoad (r1Slot 0) { s1 with params := paramsOf 31 }
     s.params.memSize < lmsRecordAddr s.regs.fbase.toNat s.regs.chIdx.toNat + 16) ∧
    (let s := busyAt .sliceLoad (r1Slot 0) { s1 with params := paramsOf 39 }
     s.params.memSize < sliceWordAddr s.regs.fbase.toNat s.regs.fCh.toNat s.regs.slIdx.toNat s.regs.chIdx.toNat + 8) := by
  decide

/-- P1's only channel is the last; the first of P2's two is not. -/
theorem witness_LmsLoadCountsChannels :
    (let s := busyAt .lmsLoad (r1Slot 0) s1
     Inv s ∧ s.seq = .lmsLoad ∧ s.regs.chIdx.toNat + 1 = s.regs.fCh.toNat) ∧
    (let s := busyAt .lmsLoad r2Frame s2
     Inv s ∧ s.seq = .lmsLoad ∧ s.regs.chIdx.toNat + 1 ≠ s.regs.fCh.toNat) :=
  ⟨⟨witness_inv_lmsLoad, rfl, by decide⟩, witness_inv_two_channels, rfl, by decide⟩

/-- A slot before the last; the last slot before the last channel; of the last channel, before and at the last slice. -/
theorem witness_SampleCountsSlotsChannelsSlices :
    (let s := busyAt .sample (r1Slot 0) s1
     Inv s ∧ s.seq = .sample ∧ (∃ t, engineStep s = .next t) ∧ s.regs.j.toNat < 19) ∧
    (let s := busyAt .sample (r2Last 0 0) s2
     Inv s ∧ (∃ t, engineStep s = .next t) ∧ s.regs.j.toNat = 19 ∧ s.regs.chIdx.toNat + 1 < s.regs.fCh.toNat) ∧
    (let s := busyAt .sample (r2Last 0 1) s2
     Inv s ∧ (∃ t, engineStep s = .next t) ∧ s.regs.j.toNat = 19 ∧ s.regs.chIdx.toNat + 1 = s.regs.fCh.toNat ∧
       s.regs.slIdx.toNat + 1 < s.regs.fSlices.toNat) ∧
    (let s := busyAt .sample (r2Last 1 1) s2
     Inv s ∧ (∃ t, engineStep s = .next t) ∧ s.regs.j.toNat = 19 ∧ s.regs.chIdx.toNat + 1 = s.regs.fCh.toNat ∧
       s.regs.slIdx.toNat + 1 = s.regs.fSlices.toNat) :=
  ⟨⟨witness_inv_sample, rfl, ⟨_, rfl⟩, by decide⟩,
    ⟨witness_inv_last_slot 0 0 (by decide) (by decide), ⟨_, rfl⟩, by decide, by decide⟩,
    ⟨witness_inv_last_slot 0 1 (by decide) (by decide), ⟨_, rfl⟩, by decide, by decide, by decide⟩,
    ⟨witness_inv_last_slot 1 1 (by decide) (by decide), ⟨_, rfl⟩, by decide, by decide, by decide⟩⟩

theorem witness_EveryStepKeepsTheInvariant :
    let s := busyAt .frameHdr r1Stream s1
    Inv s ∧ ∃ t, step s = .next t ∧ t ≠ s :=
  ⟨witness_inv_frameHdr, _, rfl, by decide +kernel⟩

theorem witness_EngineNeverFaults :
    (let s := { s1 with schedule := [.hostWrite 80 1#8] }
     Inv s ∧ step s = .fault (.outsideMem 80)) ∧
    (let s := { s1 with schedule := [.hostRead 80] }
     Inv s ∧ step s = .fault (.outsideMem 80)) := by
  have h := inv_fresh fresh_s1
  exact ⟨⟨⟨h.1, h.2, h.3, h.4, h.5, h.6, h.7, h.8, fun a => absurd a (by decide), fun a => absurd a (by decide),
      fun a => absurd a (by decide), trivial⟩, rfl⟩,
    ⟨⟨h.1, h.2, h.3, h.4, h.5, h.6, h.7, h.8, fun a => absurd a (by decide), fun a => absurd a (by decide),
      fun a => absurd a (by decide), trivial⟩, rfl⟩⟩

/-- Between accepted frames the window of P1's forty bytes lies past its input. -/
theorem outputInv_p1_finish (total : Word) : OutputInv (busyAt .finish { r1Done with total := total } s1) := by
  refine ⟨fun _ _ x h1 _ => ?_, fun _ _ he => absurd he (by simp [slotEmitted, busyAt])⟩
  have h1' : 40 ≤ x := h1
  have hi : (s1.args.inOffset.toNat, s1.args.inLength.toNat) = (0, 40) := by decide
  have h2 := congrArg Prod.fst hi
  have h3 := congrArg Prod.snd hi
  simp only at h2 h3
  simp only [inInputRegion, busyAt, h2, h3]
  simp
  omega

/-- In the first slot of P1 nothing is accepted and nothing placed. -/
theorem outputInv_p1_sample : OutputInv (busyAt .sample (r1Slot 0) s1) := by
  refine ⟨fun _ _ x h1 h2 => ?_, fun n c he => ?_⟩
  · have h1' : 40 ≤ x := h1
    have h2' : x < 40 + 2 * 1 * min 0 20 := h2
    omega
  · have he' : n / 20 < 0 ∨ (n / 20 = 0 ∧ (c < 0 ∨ (c = 0 ∧ n % 20 < 0))) := he
    omega

/-- P1's first slot, whose sample is stored. -/
theorem witness_EngineWritesOnlyTheOutputWindow :
    let s := busyAt .sample (r1Slot 0) s1
    Inv s ∧ OutputInv s ∧ ∃ t, engineStep s = .next t ∧ t.status.error = false ∧ t.mem ≠ s.mem :=
  ⟨witness_inv_sample, outputInv_p1_sample, _, rfl, rfl, by decide⟩

/-- P8's failure after one frame, with a window of 40 bytes: a step that ends the decode in failure. -/
theorem witness_EngineWritesOnlyTheOutputWindow_failure :
    let s := busyAt .finish { r1Done with total := 5141#32 } s1
    Inv s ∧ OutputInv s ∧ ∃ t, engineStep s = .next t ∧ t.status.error = true :=
  ⟨witness_inv_finish 5141#32 (by decide) (by decide), outputInv_p1_finish _, _, rfl, rfl⟩

theorem witness_EveryStepKeepsTheOutputClear :
    let s := busyAt .sample (r1Slot 0) s1
    Inv s ∧ OutputInv s ∧ ∃ t, step s = .next t ∧ slotEmitted t 0 0 :=
  ⟨witness_inv_sample, outputInv_p1_sample, _, rfl, .inr ⟨rfl, .inr ⟨rfl, by decide⟩⟩⟩

theorem witness_OnlyStartLeavesIdle :
    Inv s1 ∧ s1.seq = .idle ∧
      (let s := { s1 with schedule := [.bus ⟨0, 32, true, 3#32⟩] }
       ∃ t, step s = .next t ∧ t.seq ≠ .idle) :=
  ⟨inv_fresh fresh_s1, rfl, _, rfl, by decide⟩

theorem witness_ArgumentsStandWhileBusy :
    let s := { busyAt .sample (r1Slot 0) s1 with schedule := [.bus ⟨8, 32, true, 3#32⟩] }
    (∃ t, step s = .next t) ∧ s.status.busy = true ∧ s.probe = none ∧ ∀ rest, s.schedule ≠ .hardReset :: rest :=
  ⟨⟨_, rfl⟩, rfl, rfl, fun _ h => by cases h⟩

theorem witness_SuccessIsNeverTheSentinel :
    let s := busyAt .finish { r1Done with total := 20#32 } s1
    Inv s ∧ s.seq = .finish ∧ ∃ t, engineStep s = .next t ∧ t.status.error = false :=
  ⟨witness_inv_finish 20#32 (by decide) (by decide), rfl, _, rfl, rfl⟩

theorem witness_FramesAdvanceWithinTheInput :
    Inv (busyAt .frameEnd (r1Slot 0) s1) ∧ (busyAt .frameEnd (r1Slot 0) s1).seq = .frameEnd :=
  ⟨witness_inv_frameEnd, rfl⟩

theorem witness_EveryDecodeEnds :
    let s := busyAt .streamHdr SeqRegs.reset s1
    Inv s ∧ s.status.busy = true ∧ s.schedule = [] :=
  ⟨witness_inv_streamHdr, rfl, rfl⟩

/-- P1 at 40 with its output from outOff, the block about to read the stream header. -/
def p1At40 (outOff : Nat) : State := busyAt .streamHdr SeqRegs.reset (fed p1 40 outOff 80)

theorem fresh_p1At40 (outOff : Nat) : Fresh (fed p1 40 outOff 80) :=
  ⟨rfl, (by decide : 1 ≤ 80 ∧ 80 ≤ 2 ^ 32), (by decide : (memStore [] 40 p1).wf = true),
    (by decide : ∀ c ∈ memStore [] 40 p1, c.1 < 80), rfl, rfl, rfl, rfl⟩

theorem inv_p1At40 (outOff : Nat) : Inv (p1At40 outOff) :=
  inv_busyAt (fresh_p1At40 outOff) _ _ (by decide) (fun h => absurd h (by decide)) (fun h => absurd h (by decide))
    (fun h => absurd h (by decide)) trivial

/-- A mono decode whose 40 output bytes end where its input begins. -/
theorem witness_SequencerComputesDecodeStream :
    let s := p1At40 0
    Inv s ∧ s.seq = .streamHdr ∧ s.schedule = [] ∧ outputClearOfInput s := by
  refine ⟨inv_p1At40 0, rfl, rfl, fun x _ h2 => ?_⟩
  have hw : (p1At40 0).args.outOffset.toNat +
      (refDecodeStream (p1At40 0).params (p1At40 0).args (p1At40 0).mem).outputWindow = 40 := by
    decide +kernel
  rw [hw] at h2
  have hi : (p1At40 0).args.inOffset.toNat = 40 := by decide
  simp only [inInputRegion, hi]
  simp
  omega

/-- A decode that fails at the magic: its window is empty, wherever OUT_OFFSET points. -/
theorem witness_SequencerComputesDecodeStream_failure :
    let s := { busyAt .streamHdr SeqRegs.reset s1 with params := { s1.params with magic := 0#32 }, args := ⟨0#32, 40#32, 0#32⟩ }
    s.seq = .streamHdr ∧ s.schedule = [] ∧ outputClearOfInput s := by
  refine ⟨rfl, rfl, fun x h1 h2 => ?_⟩
  have h2' : x < 0 + 0 := h2
  omega

/-- The last output byte of P1 on the first byte of its input. -/
theorem witness_OverlappingDecodeIsRefused :
    let s := p1At40 1
    Inv s ∧ s.seq = .streamHdr ∧ s.schedule = [] ∧ ¬outputClearOfInput s := by
  refine ⟨inv_p1At40 1, rfl, rfl, fun h => ?_⟩
  have h40 : inInputRegion (p1At40 1) 40 = false := h 40 (by decide) (by decide +kernel)
  exact absurd h40 (by decide)

/-- Two different states with the same live part. -/
theorem witness_DeadRegistersNeverMatter :
    let s := busyAt .streamHdr SeqRegs.reset s1
    let t := busyAt .streamHdr r1Frame s1
    Inv s ∧ Inv t ∧ liveView s = liveView t ∧ s ≠ t :=
  ⟨witness_inv_streamHdr,
    inv_busyAt fresh_s1 _ _ (by decide) (fun h => absurd h (by decide)) (fun h => absurd h (by decide))
      (fun h => absurd h (by decide)) trivial,
    rfl, by decide +kernel⟩

theorem witness_HardwareResetRestoresTheRegisters :
    let s := { busyAt .sample (r1Slot 0) s1 with schedule := [.hardReset] }
    s.probe = none ∧ s.schedule = .hardReset :: [] :=
  ⟨rfl, rfl⟩

/-- While busy: a byte of the input; the last byte of MEM. While idle: a byte of the input. -/
theorem witness_HostWritesStoreOrAreRefused :
    (let s := { busyAt .sample (r1Slot 0) s1 with schedule := [.hostWrite 39 1#8] }
     s.probe = none ∧ 39 < s.params.memSize ∧ s.status.busy = true ∧ inInputRegion s 39 = true) ∧
    (let s := { busyAt .sample (r1Slot 0) s1 with schedule := [.hostWrite 79 1#8] }
     79 < s.params.memSize ∧ inInputRegion s 79 = false) ∧
    (let s := { s1 with schedule := [.hostWrite 39 1#8] }
     39 < s.params.memSize ∧ s.status.busy = false) := by
  decide

/-- Idle; while BUSY a byte of the input, and the first byte of the output region. -/
theorem witness_HostReadsReturnTheByteWhenIdle :
    (let s := { s1 with schedule := [.hostRead 79] }
     s.probe = none ∧ 79 < s.params.memSize ∧ s.status.busy = false) ∧
    (let s := { busyAt .sample (r1Slot 0) s1 with schedule := [.hostRead 39] }
     s.probe = none ∧ 39 < s.params.memSize ∧ s.status.busy = true ∧ inOutputRegion s 39 = false) ∧
    (let s := { busyAt .sample (r1Slot 0) s1 with schedule := [.hostRead 40] }
     s.probe = none ∧ 40 < s.params.memSize ∧ inOutputRegion s 40 = true) := by
  decide

end Sys2Proof.Tests
end

/-! SUPPORT. What one step can be, whichever turn it takes: the host moves and the slot step inverted once. -/

namespace Sys2Proof.Machine

open Sys2Proof

/-! What each move answers when it answers a next state. -/

/-- Without an operation presented alone, a step is one turn: the schedule's first, else the engine's (log 3). -/
theorem step_eq_takeTurn {s : State} (hp : s.probe = none) :
    step s = takeTurn (s.schedule.headD .engine) (s.setSchedule s.schedule.tail) := by
  unfold step
  rw [hp]
  cases hs : s.schedule with
  | nil =>
    have hsame : s.setSchedule [] = s := by rw [← hs]; rfl
    change engineStep s = engineStep (s.setSchedule [])
    rw [hsame]
  | cons t rest => rfl

/-- A record that runs to a next state is an operation's. -/
theorem runDecoded_next {d : Except DecodeError Instr} {s t : State} (h : runDecoded d s = .next t) :
    ∃ i, d = .ok i ∧ exec i s = .next t := by
  cases d with
  | ok i => exact ⟨i, rfl, h⟩
  | error e => cases h

/-- A register access that completes ran the operation its direction and offset name (R92). -/
theorem busStep_next {a : BusAccess} {s t : State} (h : busStep a s = .next t) :
    ∃ i, decodeBus (accessWord a s) = .ok i ∧ exec i s = .next t := by
  rcases busStep_cases a s with ⟨_, h'⟩ | ⟨_, _, h'⟩ | ⟨_, _, _, h'⟩ <;> rw [h'] at h
  · cases h
  · cases h
  · exact runDecoded_next h

/-- A host write that completes stored its byte, inside MEM. -/
theorem hostWriteStep_next {a : Nat} {v : Byte} {s t : State} (h : hostWriteStep a v s = .next t) :
    a < s.params.memSize ∧ t = s.setMem (memSet s.mem a v) := by
  unfold hostWriteStep at h
  split at h
  · cases h
  split at h
  · cases h
  · cases h; exact ⟨by omega, rfl⟩

/-- A host read that completes changed nothing but the byte it returned and the free-value counter. -/
theorem hostReadStep_next {a : Nat} {s t : State} (h : hostReadStep a s = .next t) :
    ∃ k b, t = { s with freeCtr := k, hostByte := b } := by
  unfold hostReadStep at h
  split at h
  · cases h
  split at h <;> (cases h; exact ⟨_, _, rfl⟩)

/-- A step in SAMPLE that completes ran a slot and a channel that exist, FRAME_OUT changing memory alone (R216). -/
theorem stepSample_next {s t : State} (h : stepSample s = .next t) :
    ∃ l m, channel s s.regs.chIdx.toNat = some l ∧ t = afterSample ((afterSlot l s).setMem m) := by
  by_cases hj : s.regs.j.toNat < 20
  · cases hl : channel s s.regs.chIdx.toNat with
    | none =>
      rw [stepSample, runOp_slot _ (by simp), execSampleStep, if_neg (by omega)] at h
      simp [hl] at h
    | some l =>
      rw [stepSample_eq hj hl] at h
      obtain ⟨u, hu, h⟩ := andThen_eq_next h
      obtain ⟨m, rfl⟩ := execFrameOut_next hu
      cases h
      exact ⟨l, m, rfl, rfl⟩
  · rw [stepSample, runOp_slot _ (by simp), execSampleStep, if_pos (by omega)] at h
    cases h

/-- What an operation of a register access does, in every state: a write to CTRL, WR_ARG, nothing, or a register read
(R91, R92). -/
def busMeaning (i : Instr) : Prop :=
  (∃ v, ∀ s, exec i s = .next (writeCtrl v s)) ∨
  (∃ f : ArgRegs → ArgRegs, ∀ s, exec i s = .next (writeArgs (f s.args) s)) ∨
  (∀ s, exec i s = .next s) ∨
  (∃ g : Status → ArgRegs → Results → Word, ∀ s, exec i s = .next (respond (g s.status s.args s.results) s))

theorem busMeaning_decodeWrite (off : BitVec 8) (v : Word) : busMeaning (decodeWrite off v) := by
  unfold decodeWrite
  split
  · split <;> exact .inl ⟨v, fun _ => rfl⟩
  split
  · exact .inr (.inr (.inl fun _ => rfl))
  split
  · exact .inr (.inl ⟨fun x => { x with inOffset := v }, fun _ => rfl⟩)
  split
  · exact .inr (.inl ⟨fun x => { x with inLength := v }, fun _ => rfl⟩)
  split
  · exact .inr (.inl ⟨fun x => { x with outOffset := v }, fun _ => rfl⟩)
  repeat' split
  all_goals exact .inr (.inr (.inl fun _ => rfl))

theorem busMeaning_decodeRead (off : BitVec 8) : busMeaning (decodeRead off) := by
  unfold decodeRead
  repeat' split
  all_goals refine .inr (.inr (.inr ?_))
  · exact ⟨fun _ _ _ => 0#32, fun _ => rfl⟩
  · exact ⟨fun t _ _ => t.word, fun _ => rfl⟩
  · exact ⟨fun _ x _ => x.inOffset, fun _ => rfl⟩
  · exact ⟨fun _ x _ => x.inLength, fun _ => rfl⟩
  · exact ⟨fun _ x _ => x.outOffset, fun _ => rfl⟩
  · exact ⟨fun _ _ r => r.samples, fun _ => rfl⟩
  · exact ⟨fun _ _ r => r.channels.setWidth 32, fun _ => rfl⟩
  · exact ⟨fun _ _ r => r.rate.setWidth 32, fun _ => rfl⟩
  · exact ⟨fun _ _ _ => 0#32, fun _ => rfl⟩

/-- What decodes from a BUS_41 value is the operation of a register access. -/
theorem busMeaning_of_decodeBus {w : BitVec 41} {i : Instr} (h : decodeBus w = .ok i) : busMeaning i := by
  unfold decodeBus at h
  dsimp only at h
  split at h
  · cases h
  split at h
  · cases h; exact busMeaning_decodeWrite _ _
  · cases h; exact busMeaning_decodeRead _

end Sys2Proof.Machine

/-! The invariant at reset and over every step (O45, O46), and what the reset state reads as (O41). -/

namespace Sys2Proof.Machine

open Sys2Proof

/-- The registers at their reset values meet the invariant over a canonical memory inside MEM (R38, R270). -/
theorem inv_resetWith (p : Config.Params) (m : Memory) (turns : List Turn) (k : Nat)
    (hsize : 1 ≤ p.memSize ∧ p.memSize ≤ 2 ^ 32) (hwf : m.wf = true) (hin : ∀ c ∈ m, c.1 < p.memSize) :
    Inv { State.reset with params := p, mem := m, schedule := turns, freeCtr := k } where
  noProbe := rfl
  memSize := hsize
  memCanonical := hwf
  memInside := hin
  idleIff := ⟨fun _ => rfl, fun _ => rfl⟩
  status := ⟨fun h => absurd h.1 Bool.false_ne_true, fun h => absurd h Bool.false_ne_true, fun _ => rfl⟩
  results := ⟨fun _ => rfl, fun h => absurd h Bool.false_ne_true⟩
  history c l h := by
    have hl : l = Lms.reset := by
      have hc := lt_of_channel h
      simpa [channel, State.reset, hc] using h.symm
    subst hl
    unfold historyInRange sampleRange
    decide
  stream h := absurd h Bool.false_ne_true
  between h := h.elim (fun h => Seq.noConfusion h) fun h => Seq.noConfusion h
  frame h := absurd h Bool.false_ne_true
  position := trivial

/-- Hardware reset keeps the invariant: the memory it leaves is canonical and inside MEM (R271). -/
theorem inv_hardReset {s : State} (h : Inv s) : Inv (hardResetState s) :=
  inv_resetWith _ _ _ _ h.memSize (freeOutput_wf _ s h.memCanonical) (freeOutput_inside _ s h.memInside)

/-- A host write inside MEM keeps the invariant. -/
theorem inv_hostWrite {s t : State} {a : Nat} {v : Byte} (h : Inv s) (ht : hostWriteStep a v s = .next t) : Inv t := by
  obtain ⟨ha, rfl⟩ := hostWriteStep_next ht
  refine inv_mem h _ (memWf_memSet _ _ _ h.memCanonical) (fun c hc => ?_) s.freeCtr s.hostByte
  rcases mem_memSet _ _ _ _ hc with hca | hold
  · exact hca ▸ ha
  · exact h.memInside c hold

/-- Whatever the turn, it keeps the invariant. -/
theorem inv_takeTurn {s t : State} {turn : Turn} (h : Inv s) (ht : takeTurn turn s = .next t) : Inv t := by
  cases turn with
  | engine => exact inv_engine h ht
  | bus a =>
    obtain ⟨i, hi, he⟩ := busStep_next ht
    exact inv_decodeBus h _ hi he
  | hostWrite a v => exact inv_hostWrite h ht
  | hostRead a =>
    obtain ⟨k, b, rfl⟩ := hostReadStep_next ht
    exact inv_mem h _ h.memCanonical h.memInside k b
  | hardReset =>
    cases ht
    exact inv_hardReset h

/-- Settles O46: a step from a state without an operation presented alone is one turn, and each turn keeps the
invariant. -/
theorem everyStepKeepsTheInvariant : Obligations.EveryStepKeepsTheInvariant := by
  intro s t h ht
  rw [step_eq_takeTurn h.noProbe] at ht
  exact inv_takeTurn (inv_setSchedule h _) ht

/-- Settles O45: at reset SEQ is IDLE, so nothing is placed and no channel is live. -/
theorem resetMeetsTheInvariant : Obligations.ResetMeetsTheInvariant := by
  refine ⟨?_, outputInv_of_not_inStream rfl, fun c l hlive => absurd hlive (by simp [liveChannel, State.reset])⟩
  exact inv_resetWith Config.Params.default [] [] 0 (by decide) rfl (by simp)

/-- Settles O41: at each offset of R21's table the register's reset value is 0, and the others read 0. -/
theorem resetStateReadsZero : Obligations.ResetStateReadsZero := by
  refine ⟨rfl, rfl, rfl, rfl, fun off => ?_⟩
  unfold registerNumber
  repeat' split
  all_goals rfl

end Sys2Proof.Machine

/-! Setup that stands during a decode (O50), and the stops on a channel or a slot that does not exist (O20). -/

namespace Sys2Proof.Machine

open Sys2Proof

/-- The parameters and the argument registers are the same. -/
def sameSetup (s t : State) : Prop := t.params = s.params ∧ t.args = s.args

/-- What stays the same stays the same while BUSY. -/
theorem sameSetup.whileBusy {s t : State} (h : sameSetup s t) :
    t.params = s.params ∧ (s.status.busy = true → t.args = s.args) := h.imp_right fun e _ => e

/-- A failure leaves the parameters and the argument registers (R243). -/
theorem sameSetup_raise (k : ErrKind) (n : Nat) (s : State) : sameSetup s (raiseFault k n s) := ⟨rfl, rfl⟩

theorem sameSetup_setRegs_raise (k : ErrKind) (n : Nat) (s : State) (r : SeqRegs) :
    sameSetup s (raiseFault k n (s.setRegs r)) := ⟨rfl, rfl⟩

/-- START and WR_CTRL_NOP leave the parameters and the argument registers (R210). -/
theorem sameSetup_writeCtrl (v : Word) (s : State) : sameSetup s (writeCtrl v s) := by
  rcases writeCtrl_cases v s with ⟨_, _, e⟩ | ⟨_, e⟩ <;> (rw [e]; exact ⟨rfl, rfl⟩)

/-- The next-state assignments leave the parameters and the argument registers (R214, R216). -/
theorem sameSetup_afterLmsLoad (s : State) : sameSetup s (afterLmsLoad s) := by
  unfold afterLmsLoad
  dsimp only
  split <;> exact ⟨rfl, rfl⟩

theorem sameSetup_afterSample (s : State) : sameSetup s (afterSample s) := by
  unfold afterSample
  split <;> exact ⟨rfl, rfl⟩

/-- No engine step changes the parameters or the argument registers. -/
theorem sameSetup_engine {s t : State} (h : engineStep s = .next t) : sameSetup s t := by
  unfold engineStep at h
  cases hs : s.seq <;> simp only [hs] at h
  case idle => cases h; exact ⟨rfl, rfl⟩
  case streamHdr =>
    rw [stepStreamHdr_eq s hs] at h
    cases h
    split
    · exact sameSetup_raise _ _ s
    split
    · exact sameSetup_raise _ _ s
    split
    · exact sameSetup_raise _ _ s
    split
    · exact sameSetup_setRegs_raise _ _ s _
    · exact ⟨rfl, rfl⟩
  case frameHdr =>
    rw [stepFrameHdr_eq s hs] at h
    split at h
    · cases h; exact ⟨rfl, rfl⟩
    split at h
    · cases h; exact sameSetup_raise _ _ s
    split at h
    · cases h
    split at h
    · cases h; exact sameSetup_raise _ _ s
    · cases h; exact ⟨rfl, rfl⟩
  case lmsLoad =>
    rw [stepLmsLoad_eq] at h
    split at h
    · cases h
    split at h
    · cases h
    · cases h; exact sameSetup_afterLmsLoad (setChannel s _ _)
  case sliceLoad =>
    rw [stepSliceLoad_eq] at h
    split at h
    · cases h
    · cases h; exact ⟨rfl, rfl⟩
  case sample =>
    obtain ⟨l, m, _, rfl⟩ := stepSample_next h
    exact sameSetup_afterSample ((afterSlot l s).setMem m)
  case frameEnd => cases h; exact ⟨rfl, rfl⟩
  case finish =>
    rw [stepFinish_eq] at h
    cases h
    split
    · exact sameSetup_raise _ _ s
    · exact ⟨rfl, rfl⟩

/-- WR_ARG leaves the parameters, and on a busy block the argument registers too (R220). -/
theorem writeArgs_keeps_setup (x : ArgRegs) (s : State) :
    (writeArgs x s).params = s.params ∧ (s.status.busy = true → (writeArgs x s).args = s.args) := by
  rcases writeArgs_cases x s with ⟨hb, e⟩ | ⟨_, e⟩ <;> rw [e]
  · exact ⟨rfl, fun h => absurd (hb.symm.trans h) Bool.false_ne_true⟩
  · exact ⟨rfl, fun _ => rfl⟩

/-- No operation but WR_ARG changes the parameters or the argument registers, and WR_ARG does so only on an idle block. -/
theorem exec_keeps_setup {i : Instr} {s t : State} (h : exec i s = .next t) :
    t.params = s.params ∧ (s.status.busy = true → t.args = s.args) := by
  cases i with
  | wrArgInOffset v | wrArgInLength v | wrArgOutOffset v => cases h; exact writeArgs_keeps_setup _ s
  | start v | wrCtrlNop v => cases h; exact (sameSetup_writeCtrl v s).whileBusy
  | frameOut => obtain ⟨m, rfl⟩ := execFrameOut_next h; exact ⟨rfl, fun _ => rfl⟩
  | lmsLoad rec =>
    rw [exec, execLmsLoad] at h
    split at h
    · cases h
    · cases h; exact ⟨rfl, fun _ => rfl⟩
  | lmsPredict =>
    rw [exec, execLmsPredict] at h
    split at h
    · cases h
    · cases h; exact ⟨rfl, fun _ => rfl⟩
  | lmsUpdate =>
    rw [exec, execLmsUpdate] at h
    split at h
    · cases h
    · cases h; exact ⟨rfl, fun _ => rfl⟩
  | sampleStep =>
    rw [exec, execSampleStep] at h
    split at h
    · cases h
    split at h
    · cases h
    · cases h; exact ⟨rfl, fun _ => rfl⟩
  | frameHdr hd =>
    rw [exec, execFrameHdr] at h
    split at h
    · cases h; exact (sameSetup_raise _ _ s).whileBusy
    split at h
    · cases h; exact (sameSetup_raise _ _ s).whileBusy
    · cases h; exact ⟨rfl, fun _ => rfl⟩
  | frameCheck hd =>
    rw [exec, execFrameCheck] at h
    split at h
    · cases h; exact (sameSetup_raise _ _ s).whileBusy
    · cases h; exact ⟨rfl, fun _ => rfl⟩
  | streamHdr hd =>
    rw [exec, execStreamHdr] at h
    split at h
    · cases h; exact (sameSetup_raise _ _ s).whileBusy
    split at h
    · cases h; exact (sameSetup_setRegs_raise _ _ s _).whileBusy
    · cases h; exact ⟨rfl, fun _ => rfl⟩
  | streamFinish =>
    rw [exec, execStreamFinish] at h
    split at h
    · cases h; exact (sameSetup_raise _ _ s).whileBusy
    · cases h; exact ⟨rfl, fun _ => rfl⟩
  | dequant | sliceLoad | frameEnd | streamLoop | rdStatus | rdArgInOffset | rdArgInLength | rdArgOutOffset
  | rdResultSamples | rdResultChannels | rdResultRate | rdCtrl | rdReserved | wrIgnoredStatus | wrIgnoredSamples
  | wrIgnoredChannels | wrIgnoredRate | wrIgnoredReserved => cases h; exact ⟨rfl, fun _ => rfl⟩

/-- A turn leaves the parameters; on a busy block, hardware reset apart, it leaves the argument registers too. -/
theorem takeTurn_keeps_setup {turn : Turn} {s t : State} (h : takeTurn turn s = .next t) :
    t.params = s.params ∧ (s.status.busy = true → turn ≠ .hardReset → t.args = s.args) := by
  cases turn with
  | engine => exact (sameSetup_engine h).imp_right fun e _ _ => e
  | bus a =>
    obtain ⟨i, _, he⟩ := busStep_next h
    exact (exec_keeps_setup he).imp_right fun e hb _ => e hb
  | hostWrite a v =>
    obtain ⟨_, rfl⟩ := hostWriteStep_next h
    exact ⟨rfl, fun _ _ => rfl⟩
  | hostRead a =>
    obtain ⟨k, b, rfl⟩ := hostReadStep_next h
    exact ⟨rfl, fun _ _ => rfl⟩
  | hardReset => cases h; exact ⟨rfl, fun _ hne => absurd rfl hne⟩

/-- Settles O50: a step is an operation presented alone or one turn, and neither changes what it must not. -/
theorem argumentsStandWhileBusy : Obligations.ArgumentsStandWhileBusy := by
  intro s t h
  cases hp : s.probe with
  | some p =>
    unfold step at h
    rw [hp] at h
    obtain ⟨i, _, he⟩ := runDecoded_next h
    exact ⟨(exec_keeps_setup he).1, by simp⟩
  | none =>
    rw [step_eq_takeTurn hp] at h
    obtain ⟨hparams, hargs⟩ := takeTurn_keeps_setup h
    refine ⟨hparams, fun hb _ hreset => hargs hb fun hturn => ?_⟩
    cases hs : s.schedule with
    | nil => simp [hs] at hturn
    | cons turn rest =>
      have hfirst : turn = .hardReset := by simpa [hs] using hturn
      exact hreset rest (by rw [hs, hfirst])

/-- Settles O20: each of the four operations asks for channel CH_IDX, and SAMPLE_STEP for slot J before it. -/
theorem missingChannelOrSlotStops : Obligations.MissingChannelOrSlotStops := by
  refine ⟨fun s rec hc => ?_, fun s hj => if_pos hj⟩
  have hnone := (channel_eq_none s s.regs.chIdx.toNat).mpr hc
  refine ⟨?_, ?_, ?_, fun hj => ?_⟩
  · simp [exec, execLmsLoad, hnone]
  · simp [exec, execLmsPredict, hnone]
  · simp [exec, execLmsUpdate, hnone]
  · simp [exec, execSampleStep, hnone, Nat.not_le.mpr hj]

end Sys2Proof.Machine

/-! Live registers (O55). `liveView s` puts every register the decode has not written at its reset value; a step of
`liveView s` and a step of `s` answer outcomes with the same live part, so two states with one live view step alike. -/

namespace Sys2Proof.Machine

open Sys2Proof

/-! The live view, field by field. -/

@[simp] theorem liveView_params (s : State) : (liveView s).params = s.params := rfl
@[simp] theorem liveView_mem (s : State) : (liveView s).mem = s.mem := rfl
@[simp] theorem liveView_args (s : State) : (liveView s).args = s.args := rfl
@[simp] theorem liveView_status (s : State) : (liveView s).status = s.status := rfl
@[simp] theorem liveView_results (s : State) : (liveView s).results = s.results := rfl
@[simp] theorem liveView_seq (s : State) : (liveView s).seq = s.seq := rfl
@[simp] theorem liveView_schedule (s : State) : (liveView s).schedule = s.schedule := rfl
@[simp] theorem liveView_freeCtr (s : State) : (liveView s).freeCtr = s.freeCtr := rfl

theorem liveView_setMem (s : State) (m : Memory) : (liveView s).setMem m = liveView (s.setMem m) := rfl
theorem liveView_setArgs (s : State) (x : ArgRegs) : (liveView s).setArgs x = liveView (s.setArgs x) := rfl
theorem liveView_setBusData (s : State) (v : Word) : (liveView s).setBusData v = liveView (s.setBusData v) := rfl
theorem liveView_setHostByte (s : State) (b : Byte) : (liveView s).setHostByte b = liveView (s.setHostByte b) := rfl
theorem liveView_setFreeCtr (s : State) (k : Nat) : (liveView s).setFreeCtr k = liveView (s.setFreeCtr k) := rfl
theorem liveView_setSchedule (s : State) (x : List Turn) : (liveView s).setSchedule x = liveView (s.setSchedule x) := rfl

@[simp] theorem inInputRegion_liveView (s : State) (a : Nat) : inInputRegion (liveView s) a = inInputRegion s a := rfl

theorem liveView_regs {s : State} {q : Seq} (hs : s.seq = q) : (liveView s).regs = liveRegs q s.regs := hs ▸ rfl

theorem liveRegs_idem (q : Seq) (r : SeqRegs) : liveRegs q (liveRegs q r) = liveRegs q r := by
  cases q <;> cases hf : r.first <;> simp [liveRegs, hf]

/-! Live channels. -/

/-- While the records load, the channels before CH_IDX are live (R214). -/
theorem liveChannel_loading {s : State} (hs : s.seq = .lmsLoad) (c : Nat) :
    liveChannel s c = true ↔ c < s.regs.chIdx.toNat := by
  simp [liveChannel, hs]

/-- While the slices run, the frame's channels are live (R215, R216). -/
theorem liveChannel_slices {s : State} {q : Seq} (hs : s.seq = q) (hq : q = .sliceLoad ∨ q = .sample) (c : Nat) :
    liveChannel s c = true ↔ c < s.regs.fCh.toNat := by
  rcases hq with rfl | rfl <;> simp [liveChannel, hs]

/-- Elsewhere no channel is live. -/
theorem not_liveChannel {s : State} {q : Seq} (hs : s.seq = q)
    (hq : q = .idle ∨ q = .streamHdr ∨ q = .frameHdr ∨ q = .frameEnd ∨ q = .finish) (c : Nat) :
    ¬liveChannel s c = true := by
  rcases hq with rfl | rfl | rfl | rfl | rfl <;> simp [liveChannel, hs]

/-- Which channels are live is itself live. -/
theorem liveChannel_congr {s t : State} (hq : t.seq = s.seq) (hr : liveRegs s.seq t.regs = liveRegs s.seq s.regs)
    (c : Nat) : liveChannel t c = liveChannel s c := by
  rw [Bool.eq_iff_iff]
  cases hs : s.seq with
  | lmsLoad =>
    have hc : t.regs.chIdx = s.regs.chIdx := by simpa [hs, liveRegs] using congrArg SeqRegs.chIdx hr
    rw [liveChannel_loading hs, liveChannel_loading (hq.trans hs), hc]
  | sliceLoad | sample =>
    have hf : t.regs.fCh = s.regs.fCh := by simpa [hs, liveRegs] using congrArg SeqRegs.fCh hr
    rw [liveChannel_slices hs (by simp), liveChannel_slices (hq.trans hs) (by simp), hf]
  | idle | streamHdr | frameHdr | frameEnd | finish =>
    exact iff_of_false (not_liveChannel (hq.trans hs) (by simp) c) (not_liveChannel hs (by simp) c)

/-- A live channel stands in the live view as it is. -/
theorem channel_liveView {s : State} {c : Nat} (h : liveChannel s c = true) : channel (liveView s) c = channel s c := by
  by_cases hc : c < 8
  · simp [channel, liveView, hc, h]
  · rw [(channel_eq_none _ c).mpr (by omega), (channel_eq_none _ c).mpr (by omega)]

/-! The LMS register file beside the other registers. -/

@[simp] theorem channel_setMem (s : State) (m : Memory) (c : Nat) : channel (s.setMem m) c = channel s c := rfl
@[simp] theorem channel_setSeq (s : State) (q : Seq) (c : Nat) : channel (s.setSeq q) c = channel s c := rfl
@[simp] theorem channel_setRegs (s : State) (r : SeqRegs) (c : Nat) : channel (s.setRegs r) c = channel s c := rfl
@[simp] theorem setChannel_regs (s : State) (c : Nat) (l : Lms) : (setChannel s c l).regs = s.regs := rfl
@[simp] theorem setChannel_seq (s : State) (c : Nat) (l : Lms) : (setChannel s c l).seq = s.seq := rfl

/-! States with one live view. -/

/-- The state without its LMS registers, sequencer registers and values between operations: what is always live. -/
def visible (s : State) : State :=
  { s with lms := Vector.replicate 8 Lms.reset, regs := SeqRegs.reset, dp := Datapath.reset }

@[simp] theorem visible_liveView (s : State) : visible (liveView s) = visible s := rfl
@[simp] theorem visible_setMem (s : State) (m : Memory) : visible (s.setMem m) = (visible s).setMem m := rfl
@[simp] theorem visible_setSeq (s : State) (q : Seq) : visible (s.setSeq q) = (visible s).setSeq q := rfl
@[simp] theorem visible_setRegs (s : State) (r : SeqRegs) : visible (s.setRegs r) = visible s := rfl
@[simp] theorem visible_setChannel (s : State) (c : Nat) (l : Lms) : visible (setChannel s c l) = visible s := rfl
@[simp] theorem visible_raiseFault (k : ErrKind) (n : Nat) (s : State) :
    visible (raiseFault k n s) = raiseFault k n (visible s) := rfl
@[simp] theorem visible_completeSuccess (n : Word) (ch : BitVec 4) (rate : BitVec 24) (s : State) :
    visible (completeSuccess n ch rate s) = completeSuccess n ch rate (visible s) := rfl
@[simp] theorem visible_startDecode (s : State) : visible (startDecode s) = startDecode (visible s) := rfl

/-- States that differ in registers which are not live, or in the values between operations, have one live view. -/
theorem liveView_congr {s t : State} (hv : visible t = visible s)
    (hr : liveRegs s.seq t.regs = liveRegs s.seq s.regs)
    (hl : ∀ c, liveChannel s c = true → channel t c = channel s c) : liveView t = liveView s := by
  have hq : (visible t).seq = (visible s).seq := by rw [hv]
  change t.seq = s.seq at hq
  have hlms : (liveView t).lms = (liveView s).lms := by
    refine Vector.ext fun c hc => ?_
    simp only [liveView, Vector.getElem_ofFn, liveChannel_congr hq hr]
    split
    · next h => simpa [channel, hc] using hl c h
    · rfl
  calc liveView t = { visible t with lms := (liveView t).lms, regs := liveRegs t.seq t.regs } := rfl
    _ = { visible s with lms := (liveView s).lms, regs := liveRegs s.seq s.regs } := by rw [hv, hlms, hq, hr]
    _ = liveView s := rfl

/-- The live view is its own live view. -/
theorem liveView_idem (s : State) : liveView (liveView s) = liveView s :=
  liveView_congr rfl (liveRegs_idem _ _) fun _ => channel_liveView

/-- A move to position q is one of the live view if the new registers agree on what is live there and no channel becomes
live. -/
theorem liveView_moveTo {s : State} {q : Seq} {r r' : SeqRegs} (hr : liveRegs q r' = liveRegs q r)
    (hl : ∀ c, liveChannel ((s.setRegs r).setSeq q) c = true → liveChannel s c = true) :
    liveView (((liveView s).setRegs r').setSeq q) = liveView ((s.setRegs r).setSeq q) :=
  liveView_congr rfl hr fun c h => channel_liveView (hl c h)

/-- A failure leaves nothing live, whatever the registers it starts from. -/
theorem liveView_raise_setRegs (k : ErrKind) (n : Nat) (s : State) (r r' : SeqRegs) :
    liveView (raiseFault k n ((liveView s).setRegs r)) = liveView (raiseFault k n (s.setRegs r')) :=
  liveView_congr (by simp) rfl fun c h => absurd h (not_liveChannel (q := .idle) rfl (by simp) c)

theorem liveView_raise (k : ErrKind) (n : Nat) (s : State) :
    liveView (raiseFault k n (liveView s)) = liveView (raiseFault k n s) :=
  liveView_raise_setRegs k n s (liveView s).regs s.regs

/-! Outcomes. -/

/-- The live part of an outcome. -/
def liveOutcome (o : Host.Outcome State Fault Refusal) : Host.Outcome State Fault Refusal :=
  match o with
  | .next s => .next (liveView s)
  | .fault f => .fault f
  | .refused r => .refused r

theorem liveOutcome_next_congr {s t : State} (h : liveView t = liveView s) :
    liveOutcome (.next t) = liveOutcome (.next s) :=
  congrArg Host.Outcome.next h

/-- Outcomes with one live part agree on what is live. -/
theorem agreeLive_of_liveOutcome_eq {o o' : Host.Outcome State Fault Refusal} (h : liveOutcome o = liveOutcome o') :
    agreeLive o o' := by
  cases o <;> cases o' <;> simp_all [liveOutcome, agreeLive]

/-! The sequencer's steps read live registers alone: each `live_` lemma says that the step of the live view has the live
part of the step. -/

/-- The failure window is read from live registers (R244). -/
theorem failureWindow_liveView {s : State} (h : s.seq.inStream = true) :
    failureWindow (liveView s) = failureWindow s := by
  unfold failureWindow
  rw [liveView_regs rfl]
  cases hs : s.seq <;> cases hf : s.regs.first <;> simp [hs, Seq.inStream] at h <;> simp [liveRegs, hf]

theorem live_streamHdr {s : State} (hs : s.seq = .streamHdr) :
    liveOutcome (stepStreamHdr (liveView s)) = liveOutcome (stepStreamHdr s) := by
  have hhead : streamHeaderAt (liveView s) = streamHeaderAt s := rfl
  rw [stepStreamHdr_eq s hs, stepStreamHdr_eq (liveView s) hs, hhead, liveView_params, liveView_args]
  refine liveOutcome_next_congr ?_
  split
  · exact liveView_raise _ _ s
  split
  · exact liveView_raise _ _ s
  split
  · exact liveView_raise _ _ s
  split
  · exact liveView_raise_setRegs _ _ s _ _
  · exact liveView_moveTo rfl fun c h => absurd h (not_liveChannel (q := .frameHdr) rfl (by simp) c)

/-- FRAME_CHECK reads live registers alone: S_CH and S_RATE once a frame is accepted (R151). -/
theorem frameCheckKind_liveView {s : State} (hs : s.seq = .frameHdr) (h : FrameHeader) :
    frameCheckKind h (liveView s) = frameCheckKind h s := by
  unfold frameCheckKind
  rw [liveView_regs hs]
  cases hf : s.regs.first <;> simp [liveRegs, hf]

theorem live_frameHdr {s : State} (hs : s.seq = .frameHdr) :
    liveOutcome (stepFrameHdr (liveView s)) = liveOutcome (stepFrameHdr s) := by
  have hregs := liveView_regs hs
  have hfollows : frameFollows (liveView s) = frameFollows s := by rw [frameFollows, hregs]; rfl
  have htrunc : headerTruncated (liveView s) = headerTruncated s := by rw [headerTruncated, hregs]; rfl
  have hfbase : (liveView s).regs.fbase = s.regs.fbase := by rw [hregs]; rfl
  have hhead : frameHeaderAt (liveView s) = frameHeaderAt s := by rw [frameHeaderAt, hfbase]; rfl
  have hwindow := failureWindow_liveView (s := s) (by simp [hs, Seq.inStream])
  rw [stepFrameHdr_eq s hs, stepFrameHdr_eq (liveView s) hs, hfollows, htrunc, hfbase, hhead,
    frameCheckKind_liveView hs, hwindow, liveView_params]
  split
  · refine liveOutcome_next_congr (liveView_moveTo (r := s.regs) (r' := liveRegs s.seq s.regs) ?_ fun c h => ?_)
    · rw [hs]; exact liveRegs_idem .finish s.regs
    · exact absurd h (not_liveChannel (q := .finish) rfl (by simp) c)
  split
  · exact liveOutcome_next_congr (liveView_raise _ _ s)
  split
  · rfl
  split
  · exact liveOutcome_next_congr (liveView_raise _ _ s)
  · refine liveOutcome_next_congr (liveView_moveTo ?_ fun c h => ?_)
    · simp only [frameRegs, hregs, hhead]
      cases hf : s.regs.first <;> simp [liveRegs, acceptHeader, hf]
    · exact absurd ((liveChannel_loading rfl c).mp h) (by simp [frameRegs])

/-- After the last channel LMS_LOAD goes on to slice 0 (R214). -/
theorem afterLmsLoad_last {s : State} (h : s.regs.chIdx + 1 = s.regs.fCh) :
    afterLmsLoad s = (s.setRegs { s.regs with slIdx := 0#9, chIdx := 0#4 }).setSeq .sliceLoad := if_pos h

/-- Before the last channel LMS_LOAD goes on to the next (R214). -/
theorem afterLmsLoad_more {s : State} (h : s.regs.chIdx + 1 ≠ s.regs.fCh) :
    afterLmsLoad s = s.setRegs { s.regs with chIdx := s.regs.chIdx + 1 } := if_neg h

/-- The record loaded into channel CH_IDX stands beside the channels loaded before it. -/
theorem channel_setChannel_liveView {s : State} (hs : s.seq = .lmsLoad) (h8 : s.regs.chIdx.toNat < 8) (l : Lms) {c : Nat}
    (hc : c < (s.regs.chIdx + 1).toNat) :
    channel (setChannel (liveView s) s.regs.chIdx.toNat l) c = channel (setChannel s s.regs.chIdx.toNat l) c := by
  have hnext : (s.regs.chIdx + 1).toNat ≤ s.regs.chIdx.toNat + 1 := by
    rw [BitVec.toNat_add]; exact Nat.mod_le _ _
  rw [channel_setChannel _ _ _ _ h8, channel_setChannel _ _ _ _ h8]
  split
  · rfl
  · exact channel_liveView ((liveChannel_loading hs c).mpr (by omega))

/-- The next state after LMS_LOAD is chosen on live registers, the channels loaded so far being live after it (R214). -/
theorem liveView_afterLmsLoad {s : State} (hs : s.seq = .lmsLoad) (h8 : s.regs.chIdx.toNat < 8) (l : Lms) :
    liveView (afterLmsLoad (setChannel (liveView s) s.regs.chIdx.toNat l)) =
      liveView (afterLmsLoad (setChannel s s.regs.chIdx.toNat l)) := by
  have hregs := liveView_regs hs
  have hch : (liveView s).regs.chIdx = s.regs.chIdx := by rw [hregs]; rfl
  have hfch : (liveView s).regs.fCh = s.regs.fCh := by rw [hregs]; rfl
  have hloaded := fun c => channel_setChannel_liveView hs h8 l (c := c)
  by_cases hlast : s.regs.chIdx + 1 = s.regs.fCh
  · rw [afterLmsLoad_last (by simpa only [setChannel_regs, hch, hfch] using hlast),
      afterLmsLoad_last (by simpa only [setChannel_regs] using hlast)]
    refine liveView_congr (by simp) ?_ fun c hc => ?_
    · simp only [setChannel_regs, hregs, State.setSeq_seq, State.setSeq_regs, State.setRegs_regs]
      cases hf : s.regs.first <;> simp [liveRegs, hf]
    · rw [liveChannel_slices (q := .sliceLoad) rfl (by simp), State.setSeq_regs, State.setRegs_regs, setChannel_regs,
        ← hlast] at hc
      simpa only [channel_setSeq, channel_setRegs] using hloaded c hc
  · rw [afterLmsLoad_more (by simpa only [setChannel_regs, hch, hfch] using hlast),
      afterLmsLoad_more (by simpa only [setChannel_regs] using hlast)]
    refine liveView_congr (by simp) ?_ fun c hc => ?_
    · simp only [setChannel_regs, setChannel_seq, hregs, hs, State.setRegs_seq, State.setRegs_regs]
      cases hf : s.regs.first <;> simp [liveRegs, hf]
    · rw [liveChannel_loading (by simpa using hs), State.setRegs_regs, setChannel_regs] at hc
      simpa only [channel_setRegs] using hloaded c hc

theorem live_lmsLoad {s : State} (hs : s.seq = .lmsLoad) :
    liveOutcome (stepLmsLoad (liveView s)) = liveOutcome (stepLmsLoad s) := by
  have hregs := liveView_regs hs
  have hfbase : (liveView s).regs.fbase = s.regs.fbase := by rw [hregs]; rfl
  have hch : (liveView s).regs.chIdx = s.regs.chIdx := by rw [hregs]; rfl
  have hrec : lmsRecordAt (liveView s) = lmsRecordAt s := by rw [lmsRecordAt, hfbase, hch]; rfl
  rw [stepLmsLoad_eq, stepLmsLoad_eq, hfbase, hch, hrec, liveView_params]
  split
  · rfl
  split
  · rfl
  next h8 => exact liveOutcome_next_congr (liveView_afterLmsLoad hs (Nat.lt_of_not_le h8) _)

theorem live_sliceLoad {s : State} (hs : s.seq = .sliceLoad) :
    liveOutcome (stepSliceLoad (liveView s)) = liveOutcome (stepSliceLoad s) := by
  have hregs := liveView_regs hs
  have haddr : sliceAddrAt (liveView s) = sliceAddrAt s := by rw [sliceAddrAt, hregs]; rfl
  have hword : sliceWordAt (liveView s) = sliceWordAt s := by rw [sliceWordAt, haddr]; rfl
  rw [stepSliceLoad_eq, stepSliceLoad_eq, haddr, hword, liveView_params]
  split
  · rfl
  · refine liveOutcome_next_congr (liveView_moveTo ?_ fun c hc => ?_)
    · rw [hregs]
      cases hf : s.regs.first <;> simp [liveRegs, hf]
    · rw [liveChannel_slices (q := .sample) rfl (by simp)] at hc
      exact (liveChannel_slices hs (by simp) c).mpr hc

/-- FRAME_OUT of two states that emit one sample to one place does the same (R160). -/
theorem execFrameOut_agree {s t : State} (haddr : outputAddr t = outputAddr s) (hparams : t.params = s.params)
    (hargs : t.args = s.args) (hmem : t.mem = s.mem) (hsample : t.dp.s = s.dp.s) :
    (∃ m, execFrameOut s = .next (s.setMem m) ∧ execFrameOut t = .next (t.setMem m)) ∨
    (∃ f, execFrameOut s = .fault f ∧ execFrameOut t = .fault f) ∨
    (∃ r, execFrameOut s = .refused r ∧ execFrameOut t = .refused r) := by
  have hregion : ∀ x, inInputRegion t x = inInputRegion s x := fun x => by rw [inInputRegion, hargs]; rfl
  unfold execFrameOut
  rw [haddr, hparams, hmem, hsample]
  simp only [hregion]
  cases outputAddr s with
  | none => exact .inl ⟨s.mem, rfl, by rw [← hmem]; rfl⟩
  | some a =>
    by_cases hin : s.params.memSize < a + 2
    · exact .inr (.inl ⟨.outsideMem a, if_pos hin, if_pos hin⟩)
    by_cases hover : (inInputRegion s a || inInputRegion s (a + 1)) = true
    · exact .inr (.inr ⟨.outputOverlapsInput a, by simp only [if_neg hin, if_pos hover],
        by simp only [if_neg hin, if_pos hover]⟩)
    · exact .inl ⟨memWrite16 s.params.outByteOrder s.mem a s.dp.s, by simp only [if_neg hin, if_neg hover],
        by simp only [if_neg hin, if_neg hover]⟩

/-- Before slot 20 the sequencer stays in SAMPLE (R216). -/
theorem afterSample_stay {s : State} (hj : s.regs.j ≠ 20#5) : afterSample s = s := if_neg hj

/-- After slot 19 of a channel that is not the last, the next channel's slice follows (R216). -/
theorem afterSample_nextChannel {s : State} (hj : s.regs.j = 20#5) (hc : s.regs.chIdx + 1 ≠ s.regs.fCh) :
    afterSample s = (s.setRegs { s.regs with chIdx := s.regs.chIdx + 1 }).setSeq
      (if s.regs.slIdx = s.regs.fSlices then .frameEnd else .sliceLoad) := by
  unfold afterSample
  simp only [if_pos hj, if_neg hc]

/-- After slot 19 of the last channel the next slice index follows, or the frame ends (R216). -/
theorem afterSample_nextSlice {s : State} (hj : s.regs.j = 20#5) (hc : s.regs.chIdx + 1 = s.regs.fCh) :
    afterSample s = (s.setRegs { s.regs with chIdx := 0#4, slIdx := s.regs.slIdx + 1 }).setSeq
      (if s.regs.slIdx + 1 = s.regs.fSlices then .frameEnd else .sliceLoad) := by
  unfold afterSample
  simp only [if_pos hj, if_pos hc]

/-- From SAMPLE to the next slice or to FRAME_END, with the position's registers read and written alike. -/
theorem liveView_afterSlice {s : State} (hs : s.seq = .sample) (ch : BitVec 4) (sl : BitVec 9) {q : Seq}
    (hq : q = .frameEnd ∨ q = .sliceLoad) :
    liveView (((liveView s).setRegs { (liveView s).regs with chIdx := ch, slIdx := sl }).setSeq q) =
      liveView ((s.setRegs { s.regs with chIdx := ch, slIdx := sl }).setSeq q) := by
  refine liveView_moveTo ?_ fun c hc => ?_
  · rw [liveView_regs hs]
    rcases hq with rfl | rfl <;> cases hf : s.regs.first <;> simp [liveRegs, hf]
  · rcases hq with rfl | rfl
    · exact absurd hc (not_liveChannel (q := .frameEnd) rfl (by simp) c)
    · rw [liveChannel_slices (q := .sliceLoad) rfl (by simp)] at hc
      exact (liveChannel_slices hs (by simp) c).mpr hc

/-- The next state after SAMPLE is chosen on live registers (R216). -/
theorem liveView_afterSample {s : State} (hs : s.seq = .sample) :
    liveView (afterSample (liveView s)) = liveView (afterSample s) := by
  have hregs := liveView_regs hs
  have hj : (liveView s).regs.j = s.regs.j := by rw [hregs]; rfl
  have hch : (liveView s).regs.chIdx = s.regs.chIdx := by rw [hregs]; rfl
  have hfch : (liveView s).regs.fCh = s.regs.fCh := by rw [hregs]; rfl
  have hsl : (liveView s).regs.slIdx = s.regs.slIdx := by rw [hregs]; rfl
  have hfsl : (liveView s).regs.fSlices = s.regs.fSlices := by rw [hregs]; rfl
  by_cases h20 : s.regs.j = 20#5
  · have h20' := hj.trans h20
    by_cases hlast : s.regs.chIdx + 1 = s.regs.fCh
    · have hlast' : (liveView s).regs.chIdx + 1 = (liveView s).regs.fCh := by rw [hch, hfch, hlast]
      rw [afterSample_nextSlice h20 hlast, afterSample_nextSlice h20' hlast', hsl, hfsl]
      exact liveView_afterSlice hs _ _ (by split <;> simp)
    · have hlast' : (liveView s).regs.chIdx + 1 ≠ (liveView s).regs.fCh := by rwa [hch, hfch]
      rw [afterSample_nextChannel h20 hlast, afterSample_nextChannel h20' hlast', hch, hsl, hfsl]
      have hmove := liveView_afterSlice hs (s.regs.chIdx + 1) s.regs.slIdx
        (q := if s.regs.slIdx = s.regs.fSlices then .frameEnd else .sliceLoad) (by split <;> simp)
      rw [← hmove, ← hsl]
  · rw [afterSample_stay h20, afterSample_stay (s := liveView s) (by rwa [hj]), liveView_idem]

/-- States in SAMPLE with one live view go on to one live view. -/
theorem liveView_afterSample_congr {s t : State} (hs : s.seq = .sample) (ht : t.seq = .sample)
    (h : liveView t = liveView s) : liveView (afterSample t) = liveView (afterSample s) := by
  rw [← liveView_afterSample ht, h, liveView_afterSample hs]

/-! SAMPLE_STEP's next state, field by field. -/

@[simp] theorem afterSlot_params (l : Lms) (s : State) : (afterSlot l s).params = s.params := rfl
@[simp] theorem afterSlot_mem (l : Lms) (s : State) : (afterSlot l s).mem = s.mem := rfl
@[simp] theorem afterSlot_args (l : Lms) (s : State) : (afterSlot l s).args = s.args := rfl
@[simp] theorem afterSlot_seq (l : Lms) (s : State) : (afterSlot l s).seq = s.seq := rfl
@[simp] theorem afterSlot_regs (l : Lms) (s : State) : (afterSlot l s).regs = { s.regs with j := s.regs.j + 1 } := rfl
@[simp] theorem afterSlot_dp (l : Lms) (s : State) : (afterSlot l s).dp = slotValues l s := rfl
@[simp] theorem visible_afterSlot (l : Lms) (s : State) : visible (afterSlot l s) = visible s := rfl

theorem channel_afterSlot (l : Lms) (s : State) (c : Nat) :
    channel (afterSlot l s) c =
      channel (setChannel s s.regs.chIdx.toNat (update l (slotValues l s).s (slotValues l s).r)) c := rfl

/-- The values SAMPLE_STEP computes come from live registers (R133). -/
theorem slotValues_liveView {s : State} (hs : s.seq = .sample) (l : Lms) :
    slotValues l (liveView s) = slotValues l s := by
  unfold slotValues
  rw [liveView_regs hs]
  rfl

/-- SAMPLE_STEP and a change of memory keep one live view. -/
theorem liveView_afterSlot {s : State} (hs : s.seq = .sample) (h8 : s.regs.chIdx.toNat < 8) (l : Lms) (m : Memory) :
    liveView ((afterSlot l (liveView s)).setMem m) = liveView ((afterSlot l s).setMem m) := by
  have hregs := liveView_regs hs
  have hch : (liveView s).regs.chIdx = s.regs.chIdx := by rw [hregs]; rfl
  refine liveView_congr (by simp) ?_ fun c hc => ?_
  · simp only [State.setMem_seq, State.setMem_regs, afterSlot_seq, afterSlot_regs, hs, hregs]
    cases hf : s.regs.first <;> simp [liveRegs, hf]
  · rw [liveChannel_slices (q := .sample) (by simpa using hs) (by simp)] at hc
    have hlive := (liveChannel_slices hs (by simp) c).mpr hc
    rw [channel_setMem, channel_setMem, channel_afterSlot, channel_afterSlot, slotValues_liveView hs, hch,
      channel_setChannel _ _ _ _ h8, channel_setChannel _ _ _ _ h8, channel_liveView hlive]

theorem live_sample {s : State} (h : Inv s) (hs : s.seq = .sample) :
    liveOutcome (stepSample (liveView s)) = liveOutcome (stepSample s) := by
  have hregs := liveView_regs hs
  have hch : (liveView s).regs.chIdx = s.regs.chIdx := by rw [hregs]; rfl
  have hpos := h.position
  simp only [PositionInv, hs] at hpos
  obtain ⟨hchan, _, hj, _⟩ := hpos
  have hfr := h.frame (by simp [hs, Seq.inFrame])
  have hsc := (h.stream (by simp [hs, Seq.inStream])).streamChannels hfr.first
  have h8 : s.regs.chIdx.toNat < 8 := by rw [← hfr.channels] at hsc; omega
  obtain ⟨l, hl⟩ := channel_isSome s s.regs.chIdx.toNat h8
  have hl' : channel (liveView s) (liveView s).regs.chIdx.toNat = some l := by
    rw [hch, channel_liveView ((liveChannel_slices hs (by simp) _).mpr hchan), hl]
  have hj' : (liveView s).regs.j.toNat < 20 := by rw [hregs]; exact hj
  have haddr : outputAddr (afterSlot l (liveView s)) = outputAddr (afterSlot l s) := by
    unfold outputAddr
    simp only [afterSlot_dp, afterSlot_regs, afterSlot_args, slotValues_liveView hs, hregs]
    rfl
  have hsample : (afterSlot l (liveView s)).dp.s = (afterSlot l s).dp.s := by
    rw [afterSlot_dp, afterSlot_dp, slotValues_liveView hs]
  rw [stepSample_eq hj hl, stepSample_eq hj' hl']
  rcases execFrameOut_agree haddr (by simp) (by simp) (by simp) hsample with
    ⟨m, e, e'⟩ | ⟨f, e, e'⟩ | ⟨r, e, e'⟩
  · rw [e, e', andThen_next, andThen_next]
    exact liveOutcome_next_congr
      (liveView_afterSample_congr (by simpa using hs) (by simpa using hs) (liveView_afterSlot hs h8 l m))
  · rw [e, e', andThen_fault]
  · rw [e, e', andThen_refused]

theorem live_frameEnd {s : State} (hs : s.seq = .frameEnd) :
    liveOutcome (stepFrameEnd (liveView s)) = liveOutcome (stepFrameEnd s) := by
  rw [stepFrameEnd_eq, stepFrameEnd_eq]
  refine liveOutcome_next_congr (liveView_moveTo ?_ fun c hc => ?_)
  · rw [liveView_regs hs]
    cases hf : s.regs.first <;> simp [liveRegs, hf]
  · exact absurd hc (not_liveChannel (q := .frameHdr) rfl (by simp) c)

theorem live_finish {s : State} (hs : s.seq = .finish) :
    liveOutcome (stepFinish (liveView s)) = liveOutcome (stepFinish s) := by
  have hregs := liveView_regs hs
  have hfails : finishCheckFails (liveView s) = finishCheckFails s := by rw [finishCheckFails, hregs]; rfl
  have hwindow := failureWindow_liveView (s := s) (by simp [hs, Seq.inStream])
  rw [stepFinish_eq, stepFinish_eq, hfails, hwindow]
  refine liveOutcome_next_congr ?_
  split
  · exact liveView_raise _ _ s
  · next hf =>
    have hfirst : s.regs.first = true := by
      simp only [finishCheckFails, Bool.or_eq_true, not_or] at hf
      simpa using hf.1
    simp only [hregs, liveRegs, hfirst, if_true]
    exact liveView_congr (by simp) rfl fun c hc => absurd hc (not_liveChannel (q := .idle) rfl (by simp) c)

theorem live_engine {s : State} (h : Inv s) : liveOutcome (engineStep (liveView s)) = liveOutcome (engineStep s) := by
  unfold engineStep
  rw [liveView_seq]
  cases hs : s.seq with
  | idle => exact liveOutcome_next_congr (liveView_idem s)
  | streamHdr => exact live_streamHdr hs
  | frameHdr => exact live_frameHdr hs
  | lmsLoad => exact live_lmsLoad hs
  | sliceLoad => exact live_sliceLoad hs
  | sample => exact live_sample h hs
  | frameEnd => exact live_frameEnd hs
  | finish => exact live_finish hs

/-! The host's moves and hardware reset. -/

/-- A write to CTRL leaves registers that are not live alone, and START begins a decode with nothing live. -/
theorem liveView_writeCtrl (v : Word) (s : State) : liveView (writeCtrl v (liveView s)) = liveView (writeCtrl v s) := by
  unfold writeCtrl
  rw [liveView_status]
  split
  · exact liveView_congr (by simp) rfl fun c h => absurd h (not_liveChannel (q := .streamHdr) rfl (by simp) c)
  · exact liveView_idem s

theorem liveView_writeArgs (x : ArgRegs) (s : State) :
    liveView (writeArgs x (liveView s)) = liveView (writeArgs x s) := by
  unfold writeArgs
  rw [liveView_status]
  split
  · exact liveView_idem s
  · rw [liveView_setArgs, liveView_idem]

/-- The operation of a register access does the same on the live view. -/
theorem live_busMeaning {i : Instr} (hi : busMeaning i) (s : State) :
    liveOutcome (exec i (liveView s)) = liveOutcome (exec i s) := by
  rcases hi with ⟨v, hi⟩ | ⟨f, hi⟩ | hi | ⟨g, hi⟩ <;> rw [hi, hi] <;> refine liveOutcome_next_congr ?_
  · exact liveView_writeCtrl v s
  · exact liveView_writeArgs (f s.args) s
  · exact liveView_idem s
  · rw [liveView_status, liveView_args, liveView_results, respond, liveView_setBusData, liveView_idem, respond]

theorem live_bus (a : BusAccess) (s : State) : liveOutcome (busStep a (liveView s)) = liveOutcome (busStep a s) := by
  unfold busStep
  rw [liveView_params]
  split
  · rfl
  split
  · rfl
  · rw [runOp_bus, runOp_bus]
    cases hd : decodeBus (busWord a.write (BitVec.ofNat 8 (a.addr - s.params.regBase)) a.data) with
    | error e => rfl
    | ok i => exact live_busMeaning (busMeaning_of_decodeBus hd) s

theorem live_hostWrite (a : Nat) (v : Byte) (s : State) :
    liveOutcome (hostWriteStep a v (liveView s)) = liveOutcome (hostWriteStep a v s) := by
  unfold hostWriteStep
  rw [liveView_params, liveView_status, inInputRegion_liveView, liveView_mem]
  split
  · rfl
  split
  · rfl
  · rw [liveView_setMem]
    exact liveOutcome_next_congr (liveView_idem _)

/-- While BUSY, TOTAL is live once the stream header has been read, so the output region is (R73, R282). -/
theorem inOutputRegion_liveView {s : State} (h : Inv s) (a : Nat) :
    inOutputRegion (liveView s) a = inOutputRegion s a := by
  unfold inOutputRegion
  rw [liveView_status, liveView_seq, inInputRegion_liveView, liveView_args, liveView_regs rfl]
  cases hs : s.seq with
  | idle => simp [h.idleIff.mp hs]
  | streamHdr => simp
  | frameHdr | lmsLoad | sliceLoad | sample | frameEnd | finish => rfl

theorem live_hostRead {s : State} (h : Inv s) (a : Nat) :
    liveOutcome (hostReadStep a (liveView s)) = liveOutcome (hostReadStep a s) := by
  unfold hostReadStep
  rw [liveView_params, inOutputRegion_liveView h, liveView_freeCtr, liveView_mem]
  split
  · rfl
  split
  · rw [liveView_setHostByte, liveView_setFreeCtr]
    exact liveOutcome_next_congr (liveView_idem _)
  · rw [liveView_setHostByte]
    exact liveOutcome_next_congr (liveView_idem _)

/-- The window of an abandoned decode is read from live registers (R271). -/
theorem abandonedWindow_liveView {s : State} (h : Inv s) : abandonedWindow (liveView s) = abandonedWindow s := by
  unfold abandonedWindow
  rw [liveView_seq, liveView_regs rfl]
  cases hs : s.seq with
  | idle | streamHdr => rfl
  | frameHdr | finish => exact failureWindow_liveView (by simp [hs, Seq.inStream])
  | lmsLoad | sliceLoad | sample | frameEnd =>
    have hfirst := (h.frame (by simp [hs, Seq.inFrame])).first
    simp [liveRegs, hfirst]

theorem hardResetState_liveView {s : State} (h : Inv s) : hardResetState (liveView s) = hardResetState s := by
  unfold hardResetState
  rw [abandonedWindow_liveView h]
  rfl

theorem live_takeTurn {s : State} (h : Inv s) (turn : Turn) :
    liveOutcome (takeTurn turn (liveView s)) = liveOutcome (takeTurn turn s) := by
  cases turn with
  | engine => exact live_engine h
  | bus a => exact live_bus a s
  | hostWrite a v => exact live_hostWrite a v s
  | hostRead a => exact live_hostRead h a
  | hardReset => simp only [takeTurn, hardResetState_liveView h]

/-- A step depends on the live view alone, up to what is live after it (R37, R39, R189). -/
theorem live_step {s : State} (h : Inv s) : liveOutcome (step (liveView s)) = liveOutcome (step s) := by
  rw [step_eq_takeTurn h.noProbe, step_eq_takeTurn (s := liveView s) h.noProbe, liveView_schedule, liveView_setSchedule]
  exact live_takeTurn (inv_setSchedule h s.schedule.tail) _

/-- Settles O55: both steps have the live part of a step of the one live view. -/
theorem deadRegistersNeverMatter : Obligations.DeadRegistersNeverMatter := by
  intro s t hs ht hview
  refine agreeLive_of_liveOutcome_eq ?_
  calc liveOutcome (step s) = liveOutcome (step (liveView s)) := (live_step hs).symm
    _ = liveOutcome (step (liveView t)) := by rw [hview]
    _ = liveOutcome (step t) := live_step ht

end Sys2Proof.Machine

/-! Where the engine reads and writes (R65, R66, R156): from the invariant every record and every output byte lies in MEM. -/

namespace Sys2Proof.Machine

open Sys2Proof

/-! Addresses. -/

/-- Entry (i, c) of a table of m rows of n entries stands before the table's end. -/
theorem rowIndex_lt {i m c n : Nat} (hi : i < m) (hc : c < n) : i * n + c < m * n :=
  calc i * n + c < i * n + n := Nat.add_lt_add_left hc _
    _ = (i + 1) * n := (Nat.succ_mul i n).symm
    _ ≤ m * n := Nat.mul_le_mul_right n hi

theorem sampleAddr_ge (out cum chans n c : Nat) : out ≤ sampleAddr out cum chans n c := Nat.le_add_right _ _

/-- A sample that FRAME_OUT places ends inside the window of its frame (R156, R160). -/
theorem sampleAddr_le {out cum chans n c frameN total : Nat} (hn : n < frameN) (ht : cum + n < total) (hc : c < chans) :
    sampleAddr out cum chans n c + 2 ≤ out + 2 * chans * min (cum + frameN) total := by
  have hrow : (cum + n) * chans + c < min (cum + frameN) total * chans := rowIndex_lt (by omega) hc
  unfold sampleAddr
  rw [Nat.mul_assoc, Nat.mul_comm chans]
  omega

/-- When FRAME_OUT places a sample, and where (R160, R161). -/
theorem outputAddr_eq_some {s : State} {a : Nat} : outputAddr s = some a ↔
    (s.dp.n.toNat < s.regs.fN.toNat ∧ s.regs.cum.toNat + s.dp.n.toNat < s.regs.total.toNat) ∧
      sampleAddr s.args.outOffset.toNat s.regs.cum.toNat s.regs.fCh.toNat s.dp.n.toNat s.dp.c.toNat = a := by
  unfold outputAddr
  split
  · next h => simp [h]
  · next h => simp [h]

/-- The bytes FRAME_OUT writes for a channel of the frame lie in the frame's window. -/
theorem outputAddr_bounds {s : State} {a : Nat} (ha : outputAddr s = some a) (hc : s.dp.c.toNat < s.regs.fCh.toNat) :
    s.args.outOffset.toNat ≤ a ∧
      a + 2 ≤ s.args.outOffset.toNat +
        2 * s.regs.fCh.toNat * min (s.regs.cum.toNat + s.regs.fN.toNat) s.regs.total.toNat := by
  obtain ⟨⟨hn, ht⟩, rfl⟩ := outputAddr_eq_some.mp ha
  exact ⟨sampleAddr_ge _ _ _ _ _, sampleAddr_le hn ht hc⟩

/-! What the invariant says inside a frame. -/

theorem inStream_of_inFrame {q : Seq} (h : q.inFrame = true) : q.inStream = true := by
  cases q <;> simp [Seq.inFrame] at h <;> rfl

/-- A frame has 1 to 8 channels (R151). -/
theorem frameChannels {s : State} (h : Inv s) (hs : s.seq.inFrame = true) :
    1 ≤ s.regs.fCh.toNat ∧ s.regs.fCh.toNat ≤ 8 := by
  rw [(h.frame hs).channels]
  exact (h.stream (inStream_of_inFrame hs)).streamChannels (h.frame hs).first

/-- The size law counted in slices (R153, R158). -/
theorem FrameInv.size_eq {s : State} (h : FrameInv s) :
    s.regs.fSize.toNat = 8 + 16 * s.regs.fCh.toNat + 8 * (s.regs.fSlices.toNat * s.regs.fCh.toNat) := by
  rw [h.sizeLaw, h.slices, frameSizeLaw, sliceCount, Nat.mul_assoc, Nat.mul_comm s.regs.fCh.toNat (_ / _)]

/-- The frame's records end at FBASE + F_SIZE, in MEM (R153, R157). -/
theorem frameRecords_inside {s : State} (h : Inv s) (hs : s.seq.inFrame = true) :
    s.regs.fbase.toNat + (8 + 16 * s.regs.fCh.toNat + 8 * (s.regs.fSlices.toNat * s.regs.fCh.toNat)) ≤
      s.params.memSize := by
  have hsize := (h.frame hs).size_eq
  have hend := (h.frame hs).inside
  have hmem := (h.stream (inStream_of_inFrame hs)).endInside
  omega

/-- In SAMPLE the slot and the channel exist (R216). -/
theorem sample_position {s : State} (h : Inv s) (hs : s.seq = .sample) :
    s.regs.chIdx.toNat < s.regs.fCh.toNat ∧ s.regs.slIdx.toNat < s.regs.fSlices.toNat ∧ s.regs.j.toNat < 20 := by
  have hpos := h.position
  simp only [PositionInv, hs] at hpos
  obtain ⟨hch, hsl, hj, _⟩ := hpos
  exact ⟨hch, hsl, hj⟩

/-! What an engine step does. -/

/-- The bytes from OUT_OFFSET to the end of the current frame's window (R156). -/
def frameWindow (s : State) : Nat :=
  2 * s.regs.fCh.toNat * min (s.regs.cum.toNat + s.regs.fN.toNat) s.regs.total.toNat

/-- From the invariant a SAMPLE is refused for overlap, or changes bytes of its frame's window that are no input
(R160, R79). -/
theorem stepSample_cases {s : State} (h : Inv s) (hs : s.seq = .sample) :
    (∃ a, stepSample s = .refused (.outputOverlapsInput a)) ∨
    ∃ l m, stepSample s = .next (afterSample ((afterSlot l s).setMem m)) ∧
      (∀ x, x < s.args.outOffset.toNat ∨ s.args.outOffset.toNat + frameWindow s ≤ x → memByte m x = memByte s.mem x) ∧
      ∀ x, inInputRegion s x = true → memByte m x = memByte s.mem x := by
  have hfr := h.frame (by simp [hs, Seq.inFrame])
  have hchans := frameChannels h (by simp [hs, Seq.inFrame])
  obtain ⟨hch, _, hj⟩ := sample_position h hs
  obtain ⟨l, hl⟩ := channel_isSome s s.regs.chIdx.toNat (by omega)
  rw [stepSample_eq hj hl]
  have hbounds : ∀ a, outputAddr (afterSlot l s) = some a →
      s.args.outOffset.toNat ≤ a ∧ a + 2 ≤ s.args.outOffset.toNat + frameWindow s :=
    fun a ha => outputAddr_bounds (s := afterSlot l s) ha hch
  have houtside := hfr.outputInside
  rcases execFrameOut_cases (afterSlot l s) with
    ⟨_, he⟩ | ⟨a, ha, ⟨hm, _⟩ | ⟨_, _, he⟩ | ⟨_, hclear, hclear', he⟩⟩
  · exact .inr ⟨l, s.mem, by rw [he]; rfl, fun _ _ => rfl, fun _ _ => rfl⟩
  · have hb := (hbounds a ha).2
    have hm' : s.params.memSize < a + 2 := hm
    rw [frameWindow] at hb
    omega
  · exact .inl ⟨a, by rw [he]; rfl⟩
  · refine .inr ⟨l, memWrite16 s.params.outByteOrder s.mem a (slotValues l s).s, by rw [he]; rfl, fun x hx => ?_,
      fun x hx => ?_⟩
    · have hb := hbounds a ha
      exact memByte_memWrite16_outside _ _ _ _ _ (by omega)
    · have hne : x ≠ a := fun e => by rw [e] at hx; exact absurd (hx.symm.trans hclear) (by simp)
      have hne' : x ≠ a + 1 := fun e => by rw [e] at hx; exact absurd (hx.symm.trans hclear') (by simp)
      exact memByte_memWrite16_outside _ _ _ _ _ (by omega)

/-- From the invariant the engine completes its step, or refuses it for overlap (R66, R79): it never faults. -/
theorem engine_completes_or_overlaps {s : State} (h : Inv s) :
    (∃ t, engineStep s = .next t) ∨ ∃ a, engineStep s = .refused (.outputOverlapsInput a) := by
  unfold engineStep
  cases hs : s.seq with
  | idle => exact .inl ⟨s, rfl⟩
  | streamHdr => exact .inl ⟨_, stepStreamHdr_eq s hs⟩
  | frameHdr =>
    refine .inl ?_
    have hend := (h.stream (by simp [hs, Seq.inStream])).endInside
    dsimp only
    rw [stepFrameHdr_eq s hs]
    split
    · exact ⟨_, rfl⟩
    split
    · exact ⟨_, rfl⟩
    next hshort =>
    have hroom : s.regs.fbase.toNat + 8 ≤ s.regs.endp.toNat := by simpa [headerTruncated] using hshort
    rw [if_neg (by omega)]
    split <;> exact ⟨_, rfl⟩
  | lmsLoad =>
    have hinside := frameRecords_inside h (by simp [hs, Seq.inFrame])
    have hchans := frameChannels h (by simp [hs, Seq.inFrame])
    have hpos := h.position
    simp only [PositionInv, hs] at hpos
    dsimp only
    rw [stepLmsLoad_eq, if_neg (by unfold lmsRecordAddr; omega), if_neg (by omega)]
    exact .inl ⟨_, rfl⟩
  | sliceLoad =>
    have hinside := frameRecords_inside h (by simp [hs, Seq.inFrame])
    have hpos := h.position
    simp only [PositionInv, hs] at hpos
    have hrow := rowIndex_lt hpos.2 hpos.1
    dsimp only
    rw [stepSliceLoad_eq, if_neg (by unfold sliceAddrAt sliceWordAddr; omega)]
    exact .inl ⟨_, rfl⟩
  | sample =>
    rcases stepSample_cases h hs with ⟨a, e⟩ | ⟨l, m, e, _⟩
    · exact .inr ⟨a, e⟩
    · exact .inl ⟨_, e⟩
  | frameEnd => exact .inl ⟨_, stepFrameEnd_eq s⟩
  | finish => exact .inl ⟨_, stepFinish_eq s⟩

/-- A register access never faults: it is refused or its operation completes (R28, R92). -/
theorem busStep_not_fault (a : BusAccess) (s : State) (f : Fault) : busStep a s ≠ .fault f := by
  intro hf
  rcases busStep_cases a s with ⟨_, e⟩ | ⟨_, _, e⟩ | ⟨_, _, _, e⟩ <;> rw [e] at hf
  · cases hf
  · cases hf
  · cases hd : decodeBus (accessWord a s) with
    | error err => rw [hd] at hf; cases hf
    | ok i =>
      rw [hd, runDecoded_ok] at hf
      rcases busMeaning_of_decodeBus hd with ⟨v, hi⟩ | ⟨g, hi⟩ | hi | ⟨g, hi⟩ <;> (rw [hi] at hf; cases hf)

theorem hostWriteStep_fault {a : Nat} {v : Byte} {s : State} {f : Fault} (h : hostWriteStep a v s = .fault f) :
    f = .outsideMem a ∧ s.params.memSize ≤ a := by
  unfold hostWriteStep at h
  split at h
  · next hout => cases h; exact ⟨rfl, hout⟩
  split at h <;> cases h

theorem hostReadStep_fault {a : Nat} {s : State} {f : Fault} (h : hostReadStep a s = .fault f) :
    f = .outsideMem a ∧ s.params.memSize ≤ a := by
  unfold hostReadStep at h
  split at h
  · next hout => cases h; exact ⟨rfl, hout⟩
  split at h <;> cases h

/-- From the invariant no engine step faults. -/
theorem engineStep_not_fault {s : State} (h : Inv s) (f : Fault) : engineStep s ≠ .fault f := by
  intro hf
  rcases engine_completes_or_overlaps h with ⟨t, e⟩ | ⟨a, e⟩ <;> (rw [e] at hf; cases hf)

/-- Settles O47: the engine's addresses, channels and slots exist by the invariant, a register access never faults, and a
host access of a byte faults past MEM alone. -/
theorem engineNeverFaults : Obligations.EngineNeverFaults := by
  intro s f h hf
  have hengine := engineStep_not_fault (inv_setSchedule h s.schedule.tail) f
  rw [step_eq_takeTurn h.noProbe] at hf
  cases hsched : s.schedule with
  | nil => rw [hsched] at hf hengine; exact absurd hf hengine
  | cons turn rest =>
    rw [hsched] at hf hengine
    cases turn with
    | engine => exact absurd hf hengine
    | bus a => exact absurd hf (busStep_not_fault a _ f)
    | hostWrite a v =>
      obtain ⟨rfl, hout⟩ := hostWriteStep_fault hf
      exact ⟨a, rest, rfl, hout, .inl ⟨v, rfl⟩⟩
    | hostRead a =>
      obtain ⟨rfl, hout⟩ := hostReadStep_fault hf
      exact ⟨a, rest, rfl, hout, .inr rfl⟩
    | hardReset => cases hf

end Sys2Proof.Machine

/-! What an engine step changes in MEM (O48), and the output kept clear of the input over every step (O59). -/

namespace Sys2Proof.Machine

open Sys2Proof

/-- The next states of an engine step, by what they do to MEM: a failure frees its window (R244), a placed sample changes
its frame's window outside the input (R160, R79), and every other step moves on in the registers alone. -/
inductive EngineMove (s : State) : State → Prop where
  | stay : EngineMove s s
  | fail (k : ErrKind) (r : SeqRegs) : EngineMove s (raiseFault k 0 (s.setRegs r))
  | failAtHead (k : ErrKind) (hs : s.seq = .frameHdr ∨ s.seq = .finish) : EngineMove s (raiseFault k (failureWindow s) s)
  | succeed (n : Word) (ch : BitVec 4) (rate : BitVec 24) : EngineMove s (completeSuccess n ch rate s)
  | moveOn (l : Vector Lms 8) (r : SeqRegs) (q : Seq) : EngineMove s (((s.setLms l).setRegs r).setSeq q)
  | place (l : Lms) (m : Memory) (hs : s.seq = .sample)
      (hwindow : ∀ x, x < s.args.outOffset.toNat ∨ s.args.outOffset.toNat + frameWindow s ≤ x →
        memByte m x = memByte s.mem x)
      (hinput : ∀ x, inInputRegion s x = true → memByte m x = memByte s.mem x) :
      EngineMove s (afterSample ((afterSlot l s).setMem m))

/-- After LMS_LOAD the sequencer moves on in its own registers (R214). -/
theorem afterLmsLoad_moves (s : State) : ∃ r q, afterLmsLoad s = (s.setRegs r).setSeq q := by
  by_cases hlast : s.regs.chIdx + 1 = s.regs.fCh
  · exact ⟨_, _, afterLmsLoad_last hlast⟩
  · exact ⟨{ s.regs with chIdx := s.regs.chIdx + 1 }, s.seq, afterLmsLoad_more hlast⟩

/-- Every engine step from the invariant is one of these moves. -/
theorem engineStep_move {s t : State} (h : Inv s) (ht : engineStep s = .next t) : EngineMove s t := by
  unfold engineStep at ht
  cases hs : s.seq <;> simp only [hs] at ht
  case idle => cases ht; exact .stay
  case streamHdr =>
    rw [stepStreamHdr_eq s hs] at ht
    cases ht
    split
    · exact .fail _ s.regs
    split
    · exact .fail _ s.regs
    split
    · exact .fail _ s.regs
    split
    · exact .fail _ _
    · exact .moveOn s.lms _ _
  case frameHdr =>
    rw [stepFrameHdr_eq s hs] at ht
    split at ht
    · cases ht; exact .moveOn s.lms s.regs _
    split at ht
    · cases ht; exact .failAtHead _ (.inl hs)
    split at ht
    · cases ht
    split at ht
    · cases ht; exact .failAtHead _ (.inl hs)
    · cases ht; exact .moveOn s.lms _ _
  case lmsLoad =>
    rw [stepLmsLoad_eq] at ht
    split at ht
    · cases ht
    split at ht
    · cases ht
    cases ht
    obtain ⟨r, q, e⟩ := afterLmsLoad_moves (setChannel s s.regs.chIdx.toNat (loadRecord (lmsRecordAt s)))
    rw [e]
    exact .moveOn _ r q
  case sliceLoad =>
    rw [stepSliceLoad_eq] at ht
    split at ht
    · cases ht
    · cases ht; exact .moveOn s.lms _ _
  case sample =>
    rcases stepSample_cases h hs with ⟨a, e⟩ | ⟨l, m, e, hwindow, hinput⟩ <;> rw [e] at ht <;> cases ht
    exact .place l m hs hwindow hinput
  case frameEnd => cases ht; exact .moveOn s.lms _ _
  case finish =>
    rw [stepFinish_eq] at ht
    cases ht
    split
    · exact .failAtHead _ (.inr hs)
    · exact .succeed _ _ _

theorem afterSample_mem (s : State) : (afterSample s).mem = s.mem := by
  unfold afterSample
  split <;> rfl

theorem afterSample_schedule (s : State) : (afterSample s).schedule = s.schedule := by
  unfold afterSample
  split <;> rfl

/-- The engine makes no host move. -/
theorem EngineMove.schedule {s t : State} (h : EngineMove s t) : t.schedule = s.schedule := by
  cases h with
  | place l m => exact afterSample_schedule _
  | _ => rfl

/-- The failure window and the frame's window are the window of R271 where they are used (log 14). -/
theorem abandonedWindow_atHead {s : State} (hs : s.seq = .frameHdr ∨ s.seq = .finish) :
    abandonedWindow s = failureWindow s := by
  rcases hs with hs | hs <;> simp [abandonedWindow, hs]

theorem abandonedWindow_inFrame {s : State} (h : Inv s) (hs : s.seq.inFrame = true) :
    abandonedWindow s = frameWindow s := by
  have hch := (h.frame hs).channels
  cases hq : s.seq <;> simp_all [Seq.inFrame, abandonedWindow, frameWindow]

/-- A byte that a raise changes lies in its window. -/
theorem raiseFault_keeps {k : ErrKind} {n : Nat} {s : State} {x : Nat}
    (h : ¬(s.args.outOffset.toNat ≤ x ∧ x < s.args.outOffset.toNat + n)) :
    memByte (raiseFault k n s).mem x = memByte s.mem x :=
  raiseFault_memByte k n s x (by omega)

/-- A move changes no byte outside the accepted frames' output window (R62, R78). -/
theorem EngineMove.keeps_outside {s t : State} (h : EngineMove s t) (hinv : Inv s) {x : Nat} (hx : ¬inAcceptedWindow s x) :
    memByte t.mem x = memByte s.mem x := by
  unfold inAcceptedWindow at hx
  cases h with
  | stay | succeed | moveOn => rfl
  | fail k r => exact raiseFault_keeps (s := s.setRegs r) (by omega)
  | failAtHead k hs => exact raiseFault_keeps (by rwa [abandonedWindow_atHead hs] at hx)
  | place l m hs hwindow =>
    rw [afterSample_mem]
    rw [abandonedWindow_inFrame hinv (by simp [hs, Seq.inFrame])] at hx
    exact hwindow x (by omega)

/-- At a loop head the failure window is clear of the input region. -/
theorem failureWindow_clear {s : State} (ho : OutputInv s) (hs : s.seq.inStream = true) {x : Nat}
    (h1 : s.args.outOffset.toNat ≤ x) (h2 : x < s.args.outOffset.toNat + failureWindow s) : inInputRegion s x = false := by
  unfold failureWindow at h2
  split at h2
  · next hfirst => exact ho.accepted hs hfirst x h1 h2
  · omega

/-- A move changes no byte of the input region (R62). -/
theorem EngineMove.keeps_input {s t : State} (h : EngineMove s t) (ho : OutputInv s) {x : Nat}
    (hx : inInputRegion s x = true) : memByte t.mem x = memByte s.mem x := by
  cases h with
  | stay | succeed | moveOn => rfl
  | fail k r => exact raiseFault_keeps (s := s.setRegs r) (by omega)
  | failAtHead k hs =>
    refine raiseFault_keeps fun ⟨h1, h2⟩ => ?_
    have hstream : s.seq.inStream = true := by rcases hs with hs | hs <;> simp [hs, Seq.inStream]
    exact absurd (hx.symm.trans (failureWindow_clear ho hstream h1 h2)) (by simp)
  | place l m hs hwindow hinput =>
    rw [afterSample_mem]
    exact hinput x hx

/-- Settles O48: an engine step is one of the moves, and each keeps both groups of bytes. -/
theorem engineWritesOnlyTheOutputWindow : Obligations.EngineWritesOnlyTheOutputWindow := by
  intro s t h ho ht
  have hmove := engineStep_move h ht
  exact ⟨fun x hx => hmove.keeps_outside h hx, fun x hx => hmove.keeps_input ho hx⟩

/-- Whatever the turn, it keeps the output clear of the input. -/
theorem outputInv_takeTurn {s t : State} {turn : Turn} (h : Inv s) (ho : OutputInv s) (ht : takeTurn turn s = .next t) :
    OutputInv t := by
  cases turn with
  | engine => exact outputInv_engine h ho ht
  | bus a =>
    obtain ⟨i, hi, he⟩ := busStep_next ht
    rcases busMeaning_of_decodeBus hi with ⟨v, e⟩ | ⟨f, e⟩ | e | ⟨g, e⟩ <;> rw [e] at he <;> cases he
    · exact outputInv_writeCtrl ho v
    · exact outputInv_writeArgs h ho _
    · exact ho
    · exact outputInv_congr ho rfl rfl rfl
  | hostWrite a v =>
    obtain ⟨_, rfl⟩ := hostWriteStep_next ht
    exact outputInv_congr ho rfl rfl rfl
  | hostRead a =>
    obtain ⟨k, b, rfl⟩ := hostReadStep_next ht
    exact outputInv_congr ho rfl rfl rfl
  | hardReset => cases ht; exact outputInv_of_not_inStream rfl

/-- Settles O59: a step is one turn, and each turn keeps the output clear of the input. -/
theorem everyStepKeepsTheOutputClear : Obligations.EveryStepKeepsTheOutputClear := by
  intro s t h ho ht
  rw [step_eq_takeTurn h.noProbe] at ht
  exact outputInv_takeTurn (inv_setSchedule h s.schedule.tail) (outputInv_congr ho rfl rfl rfl) ht

end Sys2Proof.Machine

/-! Single moves: where FRAME_OUT stops (O26), and what a host read answers (O58). -/

namespace Sys2Proof.Machine

open Sys2Proof

/-- Settles O26: FRAME_OUT's address is R160's, and its two stops are tested in their order. -/
theorem frameOutStopsOutsideItsContract : Obligations.FrameOutStopsOutsideItsContract := by
  intro s a hn ht
  have ha : outputAddr s = some a := outputAddr_eq_some.mpr ⟨⟨hn, ht⟩, rfl⟩
  change (_ → execFrameOut s = _) ∧ (_ → _ → execFrameOut s = _)
  unfold execFrameOut
  rw [ha]
  refine ⟨fun hout => if_pos hout, fun hin hover => ?_⟩
  dsimp only
  rw [if_neg (Nat.not_lt.mpr hin), if_pos (by simpa using hover)]

/-- A byte of a running decode's output region is a byte of a busy block. -/
theorem busy_of_inOutputRegion {s : State} {a : Nat} (h : inOutputRegion s a = true) : s.status.busy = true := by
  unfold inOutputRegion at h
  simp only [Bool.and_eq_true] at h
  exact h.1.1.1.1

/-- Settles O58: the read answers a free value inside the output region and the byte of MEM elsewhere. -/
theorem hostReadsReturnTheByteWhenIdle : Obligations.HostReadsReturnTheByteWhenIdle := by
  intro s a rest hp hsched ha
  have hstep : step s = hostReadStep a (s.setSchedule rest) := by rw [step_eq_takeTurn hp, hsched]; rfl
  have hin : ¬(s.setSchedule rest).params.memSize ≤ a := Nat.not_le.mpr ha
  rw [hstep, hostReadStep, if_neg hin]
  change ∃ t, (if inOutputRegion s a = true then _ else _) = _ ∧ _
  cases hr : inOutputRegion s a with
  | false => exact ⟨_, rfl, fun _ => ⟨rfl, rfl⟩, fun h => absurd h (by simp), rfl⟩
  | true =>
    refine ⟨_, rfl, fun h => ?_, fun _ => ⟨rfl, rfl⟩, rfl⟩
    simp [busy_of_inOutputRegion hr] at h

end Sys2Proof.Machine

/-! A decode's work (R183): every engine step leaves less of it, so a decode ends or is refused within it. -/

namespace Sys2Proof.Machine

open Sys2Proof

/-- A busy block has work left. -/
theorem workLeft_pos {s : State} (hs : s.seq ≠ .idle) : 0 < workLeft s := by
  unfold workLeft
  cases hq : s.seq with
  | idle => exact absurd hq hs
  | _ => simp

theorem workLeft_frameHdr {s : State} (hs : s.seq = .frameHdr) :
    workLeft s = 3 * (s.regs.endp.toNat - s.regs.fbase.toNat) + 2 := by simp [workLeft, hs]

theorem workLeft_inFrame {s : State} (hs : s.seq.inFrame = true) :
    workLeft s = 3 * (s.regs.endp.toNat - (s.regs.fbase.toNat + s.regs.fSize.toNat)) + 3 + frameWork s := by
  cases hq : s.seq <;> simp [hq, Seq.inFrame] at hs <;> simp [workLeft, hq]

theorem frameWork_lmsLoad {s : State} (hs : s.seq = .lmsLoad) :
    frameWork s = (s.regs.fCh.toNat - s.regs.chIdx.toNat) + 21 * (s.regs.fSlices.toNat * s.regs.fCh.toNat) := by
  simp [frameWork, hs]

theorem frameWork_sliceLoad {s : State} (hs : s.seq = .sliceLoad) :
    frameWork s = 21 * (s.regs.fSlices.toNat * s.regs.fCh.toNat) -
      21 * (s.regs.slIdx.toNat * s.regs.fCh.toNat + s.regs.chIdx.toNat) := by
  simp [frameWork, hs]

theorem frameWork_sample {s : State} (hs : s.seq = .sample) :
    frameWork s = 21 * (s.regs.fSlices.toNat * s.regs.fCh.toNat) -
      21 * (s.regs.slIdx.toNat * s.regs.fCh.toNat + s.regs.chIdx.toNat) - 1 - s.regs.j.toNat := by
  simp [frameWork, hs]

theorem frameWork_frameEnd {s : State} (hs : s.seq = .frameEnd) : frameWork s = 0 := by simp [frameWork, hs]

/-! The counters a step moves on do not wrap. -/

/-- In a frame CH_IDX below F_CH counts without wrap. -/
theorem chIdx_succ {s : State} (h : Inv s) (hs : s.seq.inFrame = true) (hc : s.regs.chIdx.toNat < s.regs.fCh.toNat) :
    (s.regs.chIdx + 1).toNat = s.regs.chIdx.toNat + 1 := by
  have := frameChannels h hs
  rw [BitVec.toNat_add]
  simp
  omega

/-- In a frame SL_IDX below the slice count counts without wrap. -/
theorem slIdx_succ {s : State} (h : Inv s) (hs : s.seq.inFrame = true) (hc : s.regs.slIdx.toNat < s.regs.fSlices.toNat) :
    (s.regs.slIdx + 1).toNat = s.regs.slIdx.toNat + 1 := by
  have hslices := (h.frame hs).slices
  have hsamples := (h.frame hs).samples
  unfold sliceCount at hslices
  rw [BitVec.toNat_add]
  simp
  omega

/-- FRAME_END moves CUM and FBASE on without wrap (R163). -/
theorem frameEnd_sums {s : State} (h : Inv s) (hs : s.seq = .frameEnd) :
    (s.regs.cum + s.regs.fN.setWidth 33).toNat = s.regs.cum.toNat + s.regs.fN.toNat ∧
      (s.regs.fbase + s.regs.fSize.setWidth 33).toNat = s.regs.fbase.toNat + s.regs.fSize.toNat := by
  have hfr := h.frame (by simp [hs, Seq.inFrame])
  have hneeded := hfr.needed
  have hsamples := hfr.samples
  have hinside := hfr.inside
  have htotal := s.regs.total.isLt
  have hend := s.regs.endp.isLt
  constructor <;> (rw [BitVec.toNat_add, BitVec.toNat_setWidth]; omega)

/-! State by state. -/

theorem workLeft_streamHdr_lt {s t : State} (hs : s.seq = .streamHdr) (ht : stepStreamHdr s = .next t) :
    workLeft t < workLeft s := by
  have hpos := workLeft_pos (s := s) (by simp [hs])
  rw [stepStreamHdr_eq s hs] at ht
  cases ht
  split
  · exact hpos
  split
  · exact hpos
  split
  · exact hpos
  split
  · exact hpos
  next hlen _ _ =>
  have hend : (BitVec.setWidth 33 s.args.inOffset + BitVec.setWidth 33 s.args.inLength).toNat =
      s.args.inOffset.toNat + s.args.inLength.toNat := w33 _ _
  have hbase : (BitVec.setWidth 33 s.args.inOffset + 8#33).toNat = s.args.inOffset.toNat + 8 := w33 s.args.inOffset 8#32
  rw [workLeft_frameHdr rfl]
  simp only [workLeft, hs, State.setSeq_regs, State.setRegs_regs, acceptStream, hend, hbase]
  omega

/-- A frame's records outweigh its steps: three times its bytes is more than its work (R153). -/
theorem workLeft_frameHdr_lt {s t : State} (h : Inv s) (hs : s.seq = .frameHdr) (ht : stepFrameHdr s = .next t) :
    workLeft t < workLeft s := by
  have hpos := workLeft_pos (s := s) (by simp [hs])
  have hinv := inv_frameHdr h hs ht
  rw [stepFrameHdr_eq s hs] at ht
  split at ht
  · cases ht
    rw [workLeft_frameHdr hs]
    simp [workLeft]
  split at ht
  · cases ht; exact hpos
  split at ht
  · cases ht
  split at ht
  · cases ht; exact hpos
  cases ht
  have hfr := hinv.frame rfl
  rw [workLeft_frameHdr hs, workLeft_inFrame rfl, frameWork_lmsLoad rfl]
  have hend := hfr.inside
  have hsize := hfr.size_eq
  simp only [State.setSeq_regs, State.setRegs_regs] at hend hsize ⊢
  have hbase : (frameRegs s).fbase = s.regs.fbase := rfl
  have hendp : (frameRegs s).endp = s.regs.endp := rfl
  rw [hbase, hendp] at hend
  rw [hbase, hendp]
  omega

theorem workLeft_lmsLoad_lt {s t : State} (h : Inv s) (hs : s.seq = .lmsLoad) (ht : stepLmsLoad s = .next t) :
    workLeft t < workLeft s := by
  have hframe : s.seq.inFrame = true := by simp [hs, Seq.inFrame]
  have hpos := h.position
  simp only [PositionInv, hs] at hpos
  have hnext := chIdx_succ h hframe hpos
  rw [workLeft_inFrame hframe, frameWork_lmsLoad hs]
  rw [stepLmsLoad_eq] at ht
  split at ht
  · cases ht
  split at ht
  · cases ht
  cases ht
  generalize hu : setChannel s s.regs.chIdx.toNat (loadRecord (lmsRecordAt s)) = u
  have hregs : u.regs = s.regs := by rw [← hu]; rfl
  have hseq : ∀ r, (u.setRegs r).seq = .lmsLoad := fun _ => by rw [← hu]; exact hs
  by_cases hlast : u.regs.chIdx + 1 = u.regs.fCh
  · rw [afterLmsLoad_last hlast, workLeft_inFrame rfl, frameWork_sliceLoad rfl]
    simp only [State.setSeq_regs, State.setRegs_regs, hregs]
    omega
  · rw [afterLmsLoad_more hlast, workLeft_inFrame (by rw [hseq]; rfl), frameWork_lmsLoad (hseq _)]
    simp only [State.setRegs_regs, hregs, hnext]
    omega

theorem workLeft_sliceLoad_lt {s t : State} (h : Inv s) (hs : s.seq = .sliceLoad) (ht : stepSliceLoad s = .next t) :
    workLeft t < workLeft s := by
  have hpos := h.position
  simp only [PositionInv, hs] at hpos
  have hrow := rowIndex_lt hpos.2 hpos.1
  rw [workLeft_inFrame (s := s) (by simp [hs, Seq.inFrame]), frameWork_sliceLoad hs]
  rw [stepSliceLoad_eq] at ht
  split at ht
  · cases ht
  cases ht
  rw [workLeft_inFrame rfl, frameWork_sample rfl]
  simp only [State.setSeq_regs, State.setRegs_regs]
  omega

theorem workLeft_sample_lt {s t : State} (h : Inv s) (hs : s.seq = .sample) (ht : stepSample s = .next t) :
    workLeft t < workLeft s := by
  have hframe : s.seq.inFrame = true := by simp [hs, Seq.inFrame]
  obtain ⟨hch, hsl, hj⟩ := sample_position h hs
  have hrow := rowIndex_lt hsl hch
  have hchNext := chIdx_succ h hframe hch
  have hslNext := slIdx_succ h hframe hsl
  have hjNext : (s.regs.j + 1).toNat = s.regs.j.toNat + 1 := by rw [BitVec.toNat_add]; simp; omega
  rw [workLeft_inFrame hframe, frameWork_sample hs]
  obtain ⟨l, m, _, rfl⟩ := stepSample_next ht
  generalize hu : (afterSlot l s).setMem m = u
  have hregs : u.regs = { s.regs with j := s.regs.j + 1 } := by rw [← hu]; rfl
  have hseq : u.seq = .sample := by rw [← hu]; exact hs
  by_cases h20 : u.regs.j = 20#5
  · by_cases hlast : u.regs.chIdx + 1 = u.regs.fCh
    · have hrowEnd : (s.regs.chIdx + 1).toNat = s.regs.fCh.toNat := by rw [hregs] at hlast; exact congrArg _ hlast
      rw [afterSample_nextSlice h20 hlast]
      split
      · rw [workLeft_inFrame rfl, frameWork_frameEnd rfl]
        simp only [State.setSeq_regs, State.setRegs_regs, hregs]
        omega
      · rw [workLeft_inFrame rfl, frameWork_sliceLoad rfl]
        simp only [State.setSeq_regs, State.setRegs_regs, hregs, hslNext, Nat.succ_mul, BitVec.toNat_ofNat, Nat.zero_mod]
        omega
    · have hne : u.regs.slIdx ≠ u.regs.fSlices := fun e => by rw [hregs] at e; simp only at e; rw [e] at hsl; omega
      rw [afterSample_nextChannel h20 hlast, if_neg hne, workLeft_inFrame rfl, frameWork_sliceLoad rfl]
      simp only [State.setSeq_regs, State.setRegs_regs, hregs, hchNext]
      omega
  · rw [afterSample_stay h20, workLeft_inFrame (by simp [hseq, Seq.inFrame]), frameWork_sample hseq]
    simp only [hregs, hjNext]
    omega

theorem workLeft_frameEnd_lt {s t : State} (h : Inv s) (hs : s.seq = .frameEnd) (ht : stepFrameEnd s = .next t) :
    workLeft t < workLeft s := by
  obtain ⟨_, hbase⟩ := frameEnd_sums h hs
  rw [stepFrameEnd_eq] at ht
  cases ht
  rw [workLeft_inFrame (s := s) (by simp [hs, Seq.inFrame]), frameWork_frameEnd hs, workLeft_frameHdr rfl]
  simp only [State.setSeq_regs, State.setRegs_regs, hbase]
  omega

theorem workLeft_finish_lt {s t : State} (hs : s.seq = .finish) (ht : stepFinish s = .next t) :
    workLeft t < workLeft s := by
  have hpos := workLeft_pos (s := s) (by simp [hs])
  rw [stepFinish_eq] at ht
  cases ht
  split <;> exact hpos

/-- From the invariant every engine step of a busy block leaves less work (R183). -/
theorem workLeft_engine_lt {s t : State} (h : Inv s) (hs : s.seq ≠ .idle) (ht : engineStep s = .next t) :
    workLeft t < workLeft s := by
  unfold engineStep at ht
  cases hq : s.seq <;> simp only [hq] at ht
  case idle => exact absurd hq hs
  case streamHdr => exact workLeft_streamHdr_lt hq ht
  case frameHdr => exact workLeft_frameHdr_lt h hq ht
  case lmsLoad => exact workLeft_lmsLoad_lt h hq ht
  case sliceLoad => exact workLeft_sliceLoad_lt h hq ht
  case sample => exact workLeft_sample_lt h hq ht
  case frameEnd => exact workLeft_frameEnd_lt h hq ht
  case finish => exact workLeft_finish_lt hq ht

/-! Runs of the engine alone. -/

/-- With no host move scheduled and no operation presented alone, a step is the engine's (log 3). -/
theorem step_eq_engineStep {s : State} (hp : s.probe = none) (hsched : s.schedule = []) : step s = engineStep s := by
  unfold step
  rw [hp, hsched]

theorem run_succ_of_next {M : Host.Core} {s t : M.State} (h : M.step s = .next t) (k : Nat) :
    M.run (k + 1) s = M.run k t := by
  simp only [Host.Core.run, h]

theorem run_one_of_refused {M : Host.Core} {s : M.State} {r : M.Refusal} (h : M.step s = .refused r) :
    M.run 1 s = .refused r := by
  simp only [Host.Core.run, h]

end Sys2Proof.Machine

/-! DecodeStream's frames beside the engine's (R181, R222): the fields and checks of the headers are the same, and what
DecodeFrame writes stays in its frame's window. -/

namespace Sys2Proof.Machine

open Sys2Proof

/-! Big-endian reads (R8, R63). -/

theorem beNat_append (xs ys : List Byte) : beNat (xs ++ ys) = beNat xs * 256 ^ ys.length + beNat ys := by
  induction xs with
  | nil => simp [beNat]
  | cons x xs ih =>
    simp only [List.cons_append, beNat, ih, List.length_append, Nat.pow_add, Nat.add_mul]
    rw [Nat.mul_right_comm, Nat.add_assoc]

theorem memBytes_add (m : Memory) (a n k : Nat) : memBytes m a (n + k) = memBytes m a n ++ memBytes m (a + n) k := by
  induction n generalizing a with
  | zero => simp [memBytes]
  | succ n ih => rw [Nat.add_right_comm, memBytes, memBytes, ih, Nat.add_assoc a, Nat.add_comm 1]; rfl

theorem refRead_lt (m : Memory) (a n : Nat) : refRead m a n < 256 ^ n := by
  simpa [refRead] using beNat_lt (memBytes m a n)

theorem refRead_add (m : Memory) (a n k : Nat) :
    refRead m a (n + k) = refRead m a n * 256 ^ k + refRead m (a + n) k := by
  simp [refRead, memBytes_add, beNat_append]

/-- The n bytes after the first i and before the last k of a longer read. -/
theorem refRead_middle (m : Memory) (a i n k : Nat) :
    refRead m a (i + n + k) / 256 ^ k % 256 ^ n = refRead m (a + i) n := by
  rw [refRead_add, refRead_add, Nat.mul_comm, Nat.mul_add_div (Nat.pow_pos (by decide)),
    Nat.div_eq_of_lt (refRead_lt _ _ _), Nat.add_zero, Nat.mul_comm, Nat.mul_add_mod, Nat.mod_eq_of_lt (refRead_lt _ _ _)]

/-- The n bytes of an eight-byte record that stand before its last k are a field of its word. -/
theorem refRead_field (m : Memory) (a i n k : Nat) (h : i + n + k = 8) :
    ((BitVec.ofNat 64 (refRead m a 8)).extractLsb' (8 * k) (8 * n)).toNat = refRead m (a + i) n := by
  have hlt : refRead m a 8 < 2 ^ 64 := refRead_lt m a 8
  rw [BitVec.extractLsb'_toNat, BitVec.toNat_ofNat, Nat.mod_eq_of_lt hlt, Nat.shiftRight_eq_div_pow, Nat.pow_mul,
    Nat.pow_mul, ← refRead_middle m a i n k, h]

theorem refRead_congr {m m' : Memory} {a n : Nat} (h : ∀ x, a ≤ x → x < a + n → memByte m x = memByte m' x) :
    refRead m a n = refRead m' a n := by
  rw [refRead, refRead, memBytes_congr m m' a n h]

/-- The stream header's fields as DecodeStream reads them (R81). -/
theorem streamHeaderAt_fields (s : State) :
    (streamHeaderAt s).magic.toNat = refRead s.mem s.args.inOffset.toNat 4 ∧
      (streamHeaderAt s).total.toNat = refRead s.mem (s.args.inOffset.toNat + 4) 4 :=
  ⟨refRead_field s.mem s.args.inOffset.toNat 0 4 4 rfl, refRead_field s.mem s.args.inOffset.toNat 4 4 0 rfl⟩

/-- The frame header's fields as DecodeFrame reads them (R82). -/
theorem frameHeaderAt_fields (s : State) :
    refRead s.mem s.regs.fbase.toNat 1 = (frameHeaderAt s).channels.toNat ∧
      refRead s.mem (s.regs.fbase.toNat + 1) 3 = (frameHeaderAt s).rate.toNat ∧
      refRead s.mem (s.regs.fbase.toNat + 4) 2 = (frameHeaderAt s).samples.toNat ∧
      refRead s.mem (s.regs.fbase.toNat + 6) 2 = (frameHeaderAt s).size.toNat :=
  ⟨(refRead_field s.mem s.regs.fbase.toNat 0 1 7 rfl).symm, (refRead_field s.mem s.regs.fbase.toNat 1 3 4 rfl).symm,
    (refRead_field s.mem s.regs.fbase.toNat 4 2 2 rfl).symm, (refRead_field s.mem s.regs.fbase.toNat 6 2 0 rfl).symm⟩

/-! What DecodeFrame writes (R160). -/

section
variable {p : Config.Params} {args : ArgRegs} {st : RefStream} {chans frameN : Nat} {x : Nat}
  (hx : x < args.outOffset.toNat ∨ args.outOffset.toNat + 2 * chans * min (st.cum + frameN) st.total ≤ x)
include hx

/-- FRAME_OUT of one slice's samples writes in the frame's window alone. -/
theorem refFrameOut_outside {c : Nat} (hc : c < chans) (xs : List Int) (n : Nat) (m : Memory) :
    memByte (refFrameOut p args st chans frameN c n xs m) x = memByte m x := by
  induction xs generalizing n m with
  | nil => rfl
  | cons v xs ih =>
    rw [refFrameOut, ih]
    split
    · next hin =>
      have hge := sampleAddr_ge args.outOffset.toNat st.cum chans n c
      have hle := sampleAddr_le (out := args.outOffset.toNat) hin.1 hin.2 hc
      exact memByte_memWrite16_outside _ _ _ _ _ (by unfold sampleAddr at hge hle; omega)
    · rfl

/-- The slices of a frame write in the frame's window alone. -/
theorem refSlices_outside (order : List (Nat × Nat)) (horder : ∀ sc ∈ order, sc.2 < chans)
    (lms : List (Ints4 × Ints4)) (m : Memory) :
    memByte (refSlices p args st chans frameN order lms m) x = memByte m x := by
  induction order generalizing lms m with
  | nil => rfl
  | cons sc order ih =>
    obtain ⟨i, c⟩ := sc
    simp only [refSlices]
    rw [ih (fun sc h => horder sc (List.mem_cons_of_mem _ h)), refFrameOut_outside hx (horder (i, c) List.mem_cons_self)]
end

/-- The slices in R159's order belong to the frame's channels. -/
theorem refSliceOrder_channel {slices chans : Nat} : ∀ sc ∈ refSliceOrder slices chans, sc.2 < chans := by
  intro sc h
  simp only [refSliceOrder, List.mem_flatMap, List.mem_map, List.mem_range] at h
  obtain ⟨i, _, c, hc, rfl⟩ := h
  exact hc

/-! The loop's outcome and its window (R78, R244). -/

/-- The output window of a frame loop that ended as given. -/
def endWindow : Except (ErrKind × RefStream) RefStream → Nat
  | .error e => refWindow e.2
  | .ok st => refWindow st

/-- STREAM_FINISH succeeds and fails with the same window: the accepted frames' samples up to TOTAL. -/
theorem refFinish_outputWindow (p : Config.Params) (st : RefStream) : (refFinish p st).outputWindow = refWindow st := by
  unfold refFinish refWindow
  cases st.first with
  | none => rfl
  | some cr =>
    dsimp only
    split <;> rfl

/-- Behind a header that passes R180's checks DecodeStream's window is its frame loop's. -/
theorem refDecodeStream_outputWindow {s : State}
    (hfits : s.args.inOffset.toNat + s.args.inLength.toNat ≤ s.params.memSize) (hlen : 8 ≤ s.args.inLength.toNat)
    (hmagic : (streamHeaderAt s).magic = s.params.magic) (htotal : (streamHeaderAt s).total ≠ 0#32) :
    (refDecodeStream s.params s.args s.mem).outputWindow =
      endWindow (refFrames s.params s.args (s.args.inOffset.toNat + s.args.inLength.toNat) s.args.inLength.toNat
        ⟨s.mem, (streamHeaderAt s).total.toNat, 0, s.args.inOffset.toNat + 8, none⟩) := by
  obtain ⟨hm, ht⟩ := streamHeaderAt_fields s
  have htotal' : (streamHeaderAt s).total.toNat ≠ 0 := fun e => htotal (BitVec.eq_of_toNat_eq e)
  simp only [refDecodeStream, ← hm, ← ht, hmagic, ne_eq, not_true, if_false, if_neg (Nat.not_lt.mpr hfits),
    if_neg (Nat.not_lt.mpr hlen), if_neg htotal']
  split
  · next e => rw [e]; rfl
  · next e => rw [e, refFinish_outputWindow]; rfl

/-- A header that fails one of R180's checks gives an empty window. -/
theorem refDecodeStream_outputWindow_eq_zero {s : State}
    (h : ¬(s.args.inOffset.toNat + s.args.inLength.toNat ≤ s.params.memSize ∧ 8 ≤ s.args.inLength.toNat ∧
      (streamHeaderAt s).magic = s.params.magic ∧ (streamHeaderAt s).total ≠ 0#32)) :
    (refDecodeStream s.params s.args s.mem).outputWindow = 0 := by
  obtain ⟨hm, ht⟩ := streamHeaderAt_fields s
  unfold refDecodeStream
  dsimp only
  split
  · rfl
  split
  · rfl
  split
  · rfl
  next hmagic =>
  split
  · rfl
  next htotal =>
  refine absurd ⟨by omega, by omega, ?_, ?_⟩ h
  · exact BitVec.eq_of_toNat_eq (hm.trans (not_not.mp hmagic))
  · exact fun e => htotal (by rw [← ht, e]; rfl)

/-- With fuel left the loop goes on behind a decoded frame (R182). -/
theorem refFrames_of_ok {p : Config.Params} {args : ArgRegs} {endp k : Nat} {st st' : RefStream}
    (h : st.cum < st.total ∧ st.fbase < endp) (he : refDecodeFrame p args endp st = .ok st') :
    refFrames p args endp (k + 1) st = refFrames p args endp k st' := by
  simp only [refFrames, if_pos h, he]

/-- With fuel left a failing frame ends the loop. -/
theorem refFrames_of_error {p : Config.Params} {args : ArgRegs} {endp k : Nat} {st : RefStream} {e : ErrKind × RefStream}
    (h : st.cum < st.total ∧ st.fbase < endp) (he : refDecodeFrame p args endp st = .error e) :
    refFrames p args endp (k + 1) st = .error e := by
  simp only [refFrames, if_pos h, he]

/-- Where no frame follows the loop has ended. -/
theorem refFrames_end {p : Config.Params} {args : ArgRegs} {endp k : Nat} {st : RefStream}
    (h : ¬(st.cum < st.total ∧ st.fbase < endp)) : refFrames p args endp k st = .ok st := by
  cases k with
  | zero => rfl
  | succ k => rw [refFrames, if_neg h]

/-! The stream that stands beside a state. -/

/-- CUM and FBASE at the next loop head: past the current frame, where the block is in one. -/
def headCum (s : State) : Nat := if s.seq.inFrame then s.regs.cum.toNat + s.regs.fN.toNat else s.regs.cum.toNat

def headBase (s : State) : Nat :=
  if s.seq.inFrame then s.regs.fbase.toNat + s.regs.fSize.toNat else s.regs.fbase.toNat

/-- DecodeStream's stream at the next loop head beside the machine's state: the same registers, and the same bytes of the
input region as far as the output window of the frames accepted leaves it alone. -/
structure StreamBeside (s : State) (st : RefStream) : Prop where
  total : st.total = s.regs.total.toNat
  cum : st.cum = headCum s
  fbase : st.fbase = headBase s
  first : st.first = if s.regs.first then some (s.regs.sCh.toNat, s.regs.sRate.toNat) else none
  input : ∀ x, inInputRegion s x = true → ¬inAcceptedWindow s x → memByte st.mem x = memByte s.mem x

/-- Between frames the window of the stream beside is the failure window (R244). -/
theorem StreamBeside.refWindow_eq {s : State} {st : RefStream} (h : StreamBeside s st) (hs : s.seq.inFrame = false) :
    refWindow st = failureWindow s := by
  have hcum : st.cum = s.regs.cum.toNat := by rw [h.cum, headCum, hs]; rfl
  unfold refWindow failureWindow
  rw [h.first, h.total, hcum]
  cases s.regs.first <;> rfl

section
variable {s : State} {st : RefStream} (hst : StreamBeside s st) (hs : s.seq = .frameHdr)
include hst hs

theorem StreamBeside.cum_atHead : st.cum = s.regs.cum.toNat := by rw [hst.cum, headCum, hs]; rfl

theorem StreamBeside.fbase_atHead : st.fbase = s.regs.fbase.toNat := by rw [hst.fbase, headBase, hs]; rfl

/-- DecodeFrame's checks are FRAME_CHECK's (R151). -/
theorem StreamBeside.refFrameCheck_eq (h : FrameHeader) :
    refFrameCheck s.params s.args s.regs.endp.toNat st h.channels.toNat h.rate.toNat h.samples.toNat h.size.toNat =
      frameCheckKind h s := by
  have hseq : (st.first.any (· != (h.channels.toNat, h.rate.toNat)) = true) =
      (s.regs.first = true ∧ (h.channels.toNat ≠ s.regs.sCh.toNat ∨ h.rate ≠ s.regs.sRate)) := by
    rw [hst.first]
    cases s.regs.first
    · simp
    · simp only [if_true, Option.any_some, bne_iff_ne, ne_eq, Prod.mk.injEq, true_and, BitVec.toNat_inj]
      rw [eq_comm (a := s.regs.sCh.toNat), eq_comm (a := s.regs.sRate), not_and_or]
  unfold refFrameCheck frameCheckKind frameSizeLaw
  simp only [hst.cum_atHead hs, hst.fbase_atHead hs, hst.total, hseq]

variable (ho : OutputInv s)
include ho

/-- At a loop head the whole input region is the same: the accepted frames' window is clear of it. -/
theorem StreamBeside.input_atHead {x : Nat} (hx : inInputRegion s x = true) : memByte st.mem x = memByte s.mem x := by
  refine hst.input x hx fun ⟨h1, h2⟩ => ?_
  rw [abandonedWindow_atHead (.inl hs)] at h2
  exact absurd (hx.symm.trans (failureWindow_clear ho (by simp [hs, Seq.inStream]) h1 h2)) (by simp)

variable (hinv : Inv s)
include hinv

/-- Bytes between FBASE and END are read alike. -/
theorem StreamBeside.refRead_eq {a n : Nat} (ha : s.regs.fbase.toNat ≤ a) (hn : a + n ≤ s.regs.endp.toNat) :
    refRead st.mem a n = refRead s.mem a n := by
  have hstream := hinv.stream (by simp [hs, Seq.inStream])
  have hbase := hstream.fbaseAfterHeader
  have hend := hstream.endIs
  refine refRead_congr fun x h1 h2 => hst.input_atHead hs ho ?_
  simp only [inInputRegion, Bool.and_eq_true, decide_eq_true_eq]
  omega

/-- DecodeFrame at a loop head (R164): it fails as FRAME_HDR does, and an accepted frame moves the stream on and writes in
its window alone. -/
theorem StreamBeside.refDecodeFrame_cases :
    (headerTruncated s = true ∧
      refDecodeFrame s.params s.args s.regs.endp.toNat st = .error (.truncatedHeader, st)) ∨
    (headerTruncated s = false ∧ ∃ k, frameCheckKind (frameHeaderAt s) s = some k ∧
      refDecodeFrame s.params s.args s.regs.endp.toNat st = .error (k, st)) ∨
    (headerTruncated s = false ∧ frameCheckKind (frameHeaderAt s) s = none ∧ ∃ m,
      refDecodeFrame s.params s.args s.regs.endp.toNat st =
        .ok ⟨m, st.total, s.regs.cum.toNat + (frameHeaderAt s).samples.toNat,
          s.regs.fbase.toNat + (frameHeaderAt s).size.toNat,
          some (st.first.getD ((frameHeaderAt s).channels.toNat, (frameHeaderAt s).rate.toNat))⟩ ∧
      ∀ x, (x < s.args.outOffset.toNat ∨ s.args.outOffset.toNat + 2 * (frameHeaderAt s).channels.toNat *
          min (s.regs.cum.toNat + (frameHeaderAt s).samples.toNat) s.regs.total.toNat ≤ x) →
        memByte m x = memByte st.mem x) := by
  have hcum := hst.cum_atHead hs
  unfold refDecodeFrame
  rw [hst.fbase_atHead hs]
  by_cases htrunc : s.regs.endp.toNat < s.regs.fbase.toNat + 8
  · exact .inl ⟨by simpa [headerTruncated] using htrunc, if_pos htrunc⟩
  refine .inr ?_
  have htrunc' : headerTruncated s = false := by simpa [headerTruncated] using htrunc
  obtain ⟨hc, hr, hn, hz⟩ := frameHeaderAt_fields s
  have hread := fun a n => hst.refRead_eq (a := a) (n := n) hs ho hinv
  rw [if_neg htrunc, hread _ 1 (by omega) (by omega), hread _ 3 (by omega) (by omega), hread _ 2 (by omega) (by omega),
    hread _ 2 (by omega) (by omega), hc, hr, hn, hz]
  dsimp only
  rw [hst.refFrameCheck_eq hs]
  cases hk : frameCheckKind (frameHeaderAt s) s with
  | some k => exact .inl ⟨htrunc', k, rfl, rfl⟩
  | none =>
    refine .inr ⟨htrunc', rfl, _, by rw [hcum], fun x hx => ?_⟩
    exact refSlices_outside (by rwa [hcum, hst.total]) _ refSliceOrder_channel _ _
end

end Sys2Proof.Machine

/-! A decode whose output window overlaps its input is refused (O60). Beside every run from a stream header stands the
window DecodeStream ends with; a run that reaches IDLE has kept that window clear of the input, and a run that does not
is refused within its work. -/

namespace Sys2Proof.Machine

open Sys2Proof

/-- The first w bytes from OUT_OFFSET share no byte with the input region. -/
def windowClear (w : Nat) (s : State) : Prop :=
  ∀ x, s.args.outOffset.toNat ≤ x → x < s.args.outOffset.toNat + w → inInputRegion s x = false

/-- DecodeStream's frame loop from the next loop head ends with a window of w bytes; its fuel lasts to END (R183). -/
def FramesEndWith (w : Nat) (s : State) : Prop :=
  ∃ st k, StreamBeside s st ∧ s.regs.endp.toNat ≤ headBase s + k ∧
    w = endWindow (refFrames s.params s.args s.regs.endp.toNat k st)

/-- The decode's output window has w bytes, as DecodeStream computes it from where the block stands; once the block is
idle again the window is clear of the input. -/
def EndsWith (w : Nat) (s : State) : Prop :=
  match s.seq with
  | .idle => windowClear w s
  | .streamHdr => w = (refDecodeStream s.params s.args s.mem).outputWindow
  | .frameHdr | .lmsLoad | .sliceLoad | .sample | .frameEnd => FramesEndWith w s
  | .finish => w = failureWindow s

theorem endsWith_idle {w : Nat} {s : State} (hs : s.seq = .idle) : EndsWith w s ↔ windowClear w s := by
  simp [EndsWith, hs]

theorem endsWith_frames {w : Nat} {s : State} (hs : s.seq = .frameHdr ∨ s.seq.inFrame = true) :
    EndsWith w s ↔ FramesEndWith w s := by
  cases hq : s.seq <;> simp [hq, Seq.inFrame] at hs <;> simp [EndsWith, hq]

theorem windowClear_of_eq_zero {w : Nat} {s : State} (h : w = 0) : windowClear w s := fun x h1 h2 => by omega

theorem windowClear_congr {w : Nat} {s t : State} (hargs : t.args = s.args) : windowClear w t ↔ windowClear w s := by
  simp only [windowClear, inInputRegion, hargs]

/-- A raise leaves the argument registers, and with them what is clear. -/
theorem endsWith_raise {w : Nat} {s : State} (k : ErrKind) (n : Nat) (h : windowClear w s) :
    EndsWith w (raiseFault k n s) := h

/-! The stream that begins behind the header, and the stream behind an accepted frame. -/

/-- Behind the stream header DecodeStream's stream stands beside the state (R180). -/
theorem streamBeside_start (s : State) (hd : StreamHeader) :
    StreamBeside ((s.setRegs (acceptStream hd s.args s.regs)).setSeq .frameHdr)
      ⟨s.mem, hd.total.toNat, 0, s.args.inOffset.toNat + 8, none⟩ where
  total := rfl
  cum := rfl
  fbase := (w33 s.args.inOffset 8#32).symm
  first := rfl
  input _ _ _ := rfl

/-- An accepted channel count fits F_CH (R151). -/
theorem frameRegs_fCh {s : State} (hk : frameCheckKind (frameHeaderAt s) s = none) :
    (frameRegs s).fCh.toNat = (frameHeaderAt s).channels.toNat := by
  obtain ⟨_, hle, _⟩ := frameCheck_none hk
  change ((frameHeaderAt s).channels.setWidth 4).toNat = _
  rw [BitVec.toNat_setWidth]
  omega

/-- Behind an accepted header the stream past its frame stands beside the state (R150, R163). -/
theorem streamBeside_accepted {s : State} {st : RefStream} (hst : StreamBeside s st) (hs : s.seq = .frameHdr)
    (ho : OutputInv s) (hinv : Inv ((s.setRegs (frameRegs s)).setSeq .lmsLoad)) {m : Memory}
    (hm : ∀ x, (x < s.args.outOffset.toNat ∨ s.args.outOffset.toNat + 2 * (frameHeaderAt s).channels.toNat *
        min (s.regs.cum.toNat + (frameHeaderAt s).samples.toNat) s.regs.total.toNat ≤ x) →
      memByte m x = memByte st.mem x)
    (hch : (frameRegs s).fCh.toNat = (frameHeaderAt s).channels.toNat) :
    StreamBeside ((s.setRegs (frameRegs s)).setSeq .lmsLoad)
      ⟨m, st.total, s.regs.cum.toNat + (frameHeaderAt s).samples.toNat,
        s.regs.fbase.toNat + (frameHeaderAt s).size.toNat,
        some (st.first.getD ((frameHeaderAt s).channels.toNat, (frameHeaderAt s).rate.toNat))⟩ where
  total := hst.total
  cum := rfl
  fbase := rfl
  first := by
    change some _ = some ((frameRegs s).sCh.toNat, (frameRegs s).sRate.toNat)
    rw [hst.first, ← hch]
    cases hf : s.regs.first <;> simp [frameRegs, acceptHeader, hf]
  input x hx hout := by
    rw [inAcceptedWindow, abandonedWindow_inFrame hinv rfl] at hout
    have hwin : ¬(s.args.outOffset.toNat ≤ x ∧ x < s.args.outOffset.toNat + 2 * (frameRegs s).fCh.toNat *
        min (s.regs.cum.toNat + (frameHeaderAt s).samples.toNat) s.regs.total.toNat) := hout
    rw [hch] at hwin
    exact (hm x (by omega)).trans (hst.input_atHead hs ho hx)

/-! State by state. -/

theorem endsWith_streamHdr {w : Nat} {s t : State} (hs : s.seq = .streamHdr) (h : EndsWith w s)
    (ht : stepStreamHdr s = .next t) : EndsWith w t := by
  have hw : w = (refDecodeStream s.params s.args s.mem).outputWindow := by simpa [EndsWith, hs] using h
  rw [stepStreamHdr_eq s hs] at ht
  cases ht
  have hfail := fun hbad => windowClear_of_eq_zero (s := s) (hw.trans (refDecodeStream_outputWindow_eq_zero hbad))
  split
  · exact endsWith_raise _ _ (hfail (by omega))
  split
  · exact endsWith_raise _ _ (hfail (by omega))
  split
  · next hmagic => exact endsWith_raise _ _ (hfail fun ⟨_, _, hm, _⟩ => hmagic hm)
  split
  · next htotal => exact endsWith_raise (s := s.setRegs _) _ _ (hfail fun ⟨_, _, _, ht⟩ => ht htotal)
  next hfits hlen hmagic htotal =>
  have hend : (acceptStream (streamHeaderAt s) s.args s.regs).endp.toNat =
      s.args.inOffset.toNat + s.args.inLength.toNat := w33 _ _
  have hst := streamBeside_start s (streamHeaderAt s)
  have hbase := hst.fbase
  rw [refDecodeStream_outputWindow (by omega) (by omega) (not_not.mp hmagic) htotal, ← hend] at hw
  refine (endsWith_frames (.inl rfl)).mpr ⟨_, s.args.inLength.toNat, hst, ?_, hw⟩
  change (acceptStream (streamHeaderAt s) s.args s.regs).endp.toNat ≤ _
  dsimp only at hbase
  omega

theorem endsWith_frameHdr {w : Nat} {s t : State} (hinv : Inv s) (ho : OutputInv s) (hs : s.seq = .frameHdr)
    (h : EndsWith w s) (ht : stepFrameHdr s = .next t) : EndsWith w t := by
  obtain ⟨st, k, hst, hk, hw⟩ := (endsWith_frames (.inl hs)).mp h
  have hwin : refWindow st = failureWindow s := hst.refWindow_eq (by simp [hs, Seq.inFrame])
  have hclear : windowClear (failureWindow s) s := fun x h1 h2 =>
    failureWindow_clear ho (by simp [hs, Seq.inStream]) h1 h2
  have hfollows : frameFollows s = true ↔ st.cum < st.total ∧ st.fbase < s.regs.endp.toNat := by
    simp [frameFollows, hst.cum_atHead hs, hst.fbase_atHead hs, hst.total]
  have hframe := inv_frameHdr hinv hs ht
  rw [stepFrameHdr_eq s hs] at ht
  split at ht
  · next hend =>
    rw [refFrames_end (fun hf => by rw [hfollows.mpr hf] at hend; cases hend)] at hw
    cases ht
    exact hw.trans hwin
  next hf =>
  have hloop := hfollows.mp (by simpa using hf)
  have hbase : headBase s = s.regs.fbase.toNat := by simp [headBase, hs, Seq.inFrame]
  obtain ⟨k, rfl⟩ : ∃ k', k = k' + 1 := Nat.exists_eq_succ_of_ne_zero (by have := hst.fbase; omega)
  rcases hst.refDecodeFrame_cases hs ho hinv with ⟨htr, e⟩ | ⟨htr, kind, hkind, e⟩ | ⟨htr, hkind, m, e, hm⟩
  · rw [refFrames_of_error hloop e] at hw
    rw [if_pos htr] at ht
    cases ht
    exact endsWith_raise _ _ ((hw.trans hwin).symm ▸ hclear)
  · rw [refFrames_of_error hloop e] at hw
    rw [htr, hkind] at ht
    simp only [Bool.false_eq_true, if_false] at ht
    split at ht
    · cases ht
    cases ht
    exact endsWith_raise _ _ ((hw.trans hwin).symm ▸ hclear)
  · rw [refFrames_of_ok hloop e] at hw
    rw [htr, hkind] at ht
    simp only [Bool.false_eq_true, if_false] at ht
    split at ht
    · cases ht
    cases ht
    have hfr := hframe.frame rfl
    have hst' := streamBeside_accepted hst hs ho hframe hm (frameRegs_fCh hkind)
    refine (endsWith_frames (.inr rfl)).mpr ⟨_, k, hst', ?_, hw⟩
    have hbase' := hst'.fbase
    have hpos := hfr.size_eq
    change s.regs.endp.toNat ≤ _
    change (frameHeaderAt s).size.toNat = _ at hpos
    dsimp only at hbase'
    omega

/-! Inside a frame. -/

/-- A state at or before the same next loop head: the stream's registers and the end of the frame are the same. -/
structure SameHead (s t : State) : Prop where
  seq : t.seq = .frameHdr ∨ t.seq.inFrame = true
  cum : headCum t = headCum s
  fbase : headBase t = headBase s
  endp : t.regs.endp = s.regs.endp
  total : t.regs.total = s.regs.total
  first : t.regs.first = s.regs.first
  sCh : t.regs.sCh = s.regs.sCh
  sRate : t.regs.sRate = s.regs.sRate

/-- A step that moves the frame's position alone stays before the same loop head. -/
theorem sameHead_of_position {s t : State} (hs : s.seq.inFrame = true) (ht : t.seq.inFrame = true)
    (hr : t.regs = { s.regs with
      slIdx := t.regs.slIdx, chIdx := t.regs.chIdx, j := t.regs.j, sliceWord := t.regs.sliceWord, sf := t.regs.sf }) :
    SameHead s t := by
  refine ⟨.inr ht, ?_, ?_, ?_, ?_, ?_, ?_, ?_⟩
  · rw [headCum, headCum, if_pos hs, if_pos ht, hr]
  · rw [headBase, headBase, if_pos hs, if_pos ht, hr]
  all_goals rw [hr]

theorem sameHead_lmsLoad {s t : State} (hs : s.seq = .lmsLoad) (ht : stepLmsLoad s = .next t) : SameHead s t := by
  have hframe : s.seq.inFrame = true := by simp [hs, Seq.inFrame]
  rw [stepLmsLoad_eq] at ht
  split at ht
  · cases ht
  split at ht
  · cases ht
  cases ht
  generalize hu : setChannel s s.regs.chIdx.toNat (loadRecord (lmsRecordAt s)) = u
  have hregs : u.regs = s.regs := by rw [← hu]; rfl
  by_cases hlast : u.regs.chIdx + 1 = u.regs.fCh
  · rw [afterLmsLoad_last hlast, hregs]
    exact sameHead_of_position hframe rfl rfl
  · rw [afterLmsLoad_more hlast, hregs]
    exact sameHead_of_position hframe (by rw [← hu]; exact hframe) rfl

theorem sameHead_sliceLoad {s t : State} (hs : s.seq = .sliceLoad) (ht : stepSliceLoad s = .next t) : SameHead s t := by
  rw [stepSliceLoad_eq] at ht
  split at ht
  · cases ht
  cases ht
  exact sameHead_of_position (by simp [hs, Seq.inFrame]) rfl rfl

theorem sameHead_sample {s t : State} (hs : s.seq = .sample) (ht : stepSample s = .next t) : SameHead s t := by
  have hframe : s.seq.inFrame = true := by simp [hs, Seq.inFrame]
  obtain ⟨l, m, _, rfl⟩ := stepSample_next ht
  generalize hu : (afterSlot l s).setMem m = u
  have hregs : u.regs = { s.regs with j := s.regs.j + 1 } := by rw [← hu]; rfl
  have hseq : u.seq.inFrame = true := by rw [← hu]; exact hframe
  by_cases h20 : u.regs.j = 20#5
  · by_cases hlast : u.regs.chIdx + 1 = u.regs.fCh
    · rw [afterSample_nextSlice h20 hlast, hregs]
      exact sameHead_of_position hframe (by rw [State.setSeq_seq]; split <;> rfl) rfl
    · rw [afterSample_nextChannel h20 hlast, hregs]
      exact sameHead_of_position hframe (by rw [State.setSeq_seq]; split <;> rfl) rfl
  · rw [afterSample_stay h20]
    exact sameHead_of_position hframe hseq (by rw [hregs])

theorem sameHead_frameEnd {s t : State} (h : Inv s) (hs : s.seq = .frameEnd) (ht : stepFrameEnd s = .next t) :
    SameHead s t := by
  obtain ⟨hcum, hbase⟩ := frameEnd_sums h hs
  rw [stepFrameEnd_eq] at ht
  cases ht
  refine ⟨.inl rfl, ?_, ?_, rfl, rfl, rfl, rfl, rfl⟩
  · rw [headCum, headCum, hs]; exact hcum
  · rw [headBase, headBase, hs]; exact hbase

/-- Every engine step inside a frame stays at or before its end. -/
theorem sameHead_engine {s t : State} (h : Inv s) (hs : s.seq.inFrame = true) (ht : engineStep s = .next t) :
    SameHead s t := by
  unfold engineStep at ht
  cases hq : s.seq <;> simp only [hq] at ht
  case lmsLoad => exact sameHead_lmsLoad hq ht
  case sliceLoad => exact sameHead_sliceLoad hq ht
  case sample => exact sameHead_sample hq ht
  case frameEnd => exact sameHead_frameEnd h hq ht
  case idle | streamHdr | frameHdr | finish => simp [hq, Seq.inFrame] at hs

/-- The window of the frames accepted is counted at the next loop head (R78). -/
theorem abandonedWindow_eq {s : State} (hf : s.regs.first = true) (hs : s.seq = .frameHdr ∨ s.seq.inFrame = true) :
    abandonedWindow s = 2 * s.regs.sCh.toNat * min (headCum s) s.regs.total.toNat := by
  cases hq : s.seq <;> simp [hq, Seq.inFrame] at hs <;>
    simp [abandonedWindow, failureWindow, headCum, hq, hf, Seq.inFrame]

/-- Before the same loop head, over the same input bytes, the same stream stands beside. -/
theorem SameHead.streamBeside {s t : State} {st : RefStream} (hsame : SameHead s t) (h : StreamBeside s st)
    (hs : s.seq.inFrame = true) (hf : s.regs.first = true) (hargs : t.args = s.args)
    (hmem : ∀ x, inInputRegion s x = true → memByte t.mem x = memByte s.mem x) : StreamBeside t st := by
  have hwin : abandonedWindow t = abandonedWindow s := by
    rw [abandonedWindow_eq hf (.inr hs), abandonedWindow_eq (hsame.first.trans hf) hsame.seq, hsame.sCh, hsame.cum,
      hsame.total]
  refine ⟨by rw [hsame.total, h.total], by rw [hsame.cum, h.cum], by rw [hsame.fbase, h.fbase], ?_, fun x hx hout => ?_⟩
  · rw [hsame.first, hsame.sCh, hsame.sRate, h.first]
  · have hx' : inInputRegion s x = true := by rwa [inInputRegion, hargs] at hx
    rw [hmem x hx']
    exact h.input x hx' (by rwa [inAcceptedWindow, hargs, hwin] at hout)

theorem endsWith_inFrame {w : Nat} {s t : State} (hinv : Inv s) (ho : OutputInv s) (hs : s.seq.inFrame = true)
    (h : EndsWith w s) (ht : engineStep s = .next t) : EndsWith w t := by
  obtain ⟨st, k, hst, hk, hw⟩ := (endsWith_frames (.inr hs)).mp h
  obtain ⟨hparams, hargs⟩ := sameSetup_engine ht
  have hsame := sameHead_engine hinv hs ht
  have hst' := hsame.streamBeside hst hs (hinv.frame hs).first hargs fun x hx =>
    (engineStep_move hinv ht).keeps_input ho hx
  exact (endsWith_frames hsame.seq).mpr
    ⟨st, k, hst', by rwa [hsame.endp, hsame.fbase], by rwa [hparams, hargs, hsame.endp]⟩

theorem endsWith_finish {w : Nat} {s t : State} (ho : OutputInv s) (hs : s.seq = .finish) (h : EndsWith w s)
    (ht : stepFinish s = .next t) : EndsWith w t := by
  have hw : w = failureWindow s := by simpa [EndsWith, hs] using h
  have hclear : windowClear w s := fun x h1 h2 =>
    failureWindow_clear ho (by simp [hs, Seq.inStream]) h1 (hw ▸ h2)
  rw [stepFinish_eq] at ht
  cases ht
  split
  · exact endsWith_raise _ _ hclear
  · exact hclear

/-- Every engine step keeps the window the decode ends with. -/
theorem endsWith_engine {w : Nat} {s t : State} (hinv : Inv s) (ho : OutputInv s) (h : EndsWith w s)
    (ht : engineStep s = .next t) : EndsWith w t := by
  cases hs : s.seq with
  | lmsLoad | sliceLoad | sample | frameEnd => exact endsWith_inFrame hinv ho (by simp [hs, Seq.inFrame]) h ht
  | idle => rw [engineStep, hs] at ht; cases ht; exact h
  | streamHdr => rw [engineStep, hs] at ht; exact endsWith_streamHdr hs h ht
  | frameHdr => rw [engineStep, hs] at ht; exact endsWith_frameHdr hinv ho hs h ht
  | finish => rw [engineStep, hs] at ht; exact endsWith_finish ho hs h ht

/-! The run. -/

/-- A decode whose window is not clear of its input is refused within its work: it cannot reach IDLE. -/
theorem refused_of_not_clear {w : Nat} (n : Nat) : ∀ {s : State}, workLeft s ≤ n → Inv s → OutputInv s →
    s.schedule = [] → EndsWith w s → ¬windowClear w s →
    ∃ k a, k ≤ n ∧ Host.Core.run Sys2Proof.core k s = .refused (.outputOverlapsInput a) := by
  induction n with
  | zero =>
    intro s hwork _ _ _ hends hover
    by_cases hs : s.seq = .idle
    · exact absurd ((endsWith_idle hs).mp hends) hover
    · exact absurd (workLeft_pos hs) (by omega)
  | succ n ih =>
    intro s hwork hinv ho hsched hends hover
    have hs : s.seq ≠ .idle := fun hs => hover ((endsWith_idle hs).mp hends)
    have hstep := step_eq_engineStep hinv.noProbe hsched
    rcases engine_completes_or_overlaps hinv with ⟨t, ht⟩ | ⟨a, ha⟩
    · have hless := workLeft_engine_lt hinv hs ht
      have hover' : ¬windowClear w t := mt (windowClear_congr (sameSetup_engine ht).2).mp hover
      obtain ⟨k, a, hk, hrun⟩ := ih (by omega) (inv_engine hinv ht) (outputInv_engine hinv ho ht)
        ((engineStep_move hinv ht).schedule.trans hsched) (endsWith_engine hinv ho hends ht) hover'
      refine ⟨k + 1, a, by omega, ?_⟩
      rw [run_succ_of_next (M := Sys2Proof.core) (hstep.trans ht)]
      exact hrun
    · exact ⟨1, a, by omega, run_one_of_refused (M := Sys2Proof.core) (hstep.trans ha)⟩

/-- Settles O60: DecodeStream's window is kept beside the run, and a run that kept it clear of the input could not have
overlapped. -/
theorem overlappingDecodeIsRefused : Obligations.OverlappingDecodeIsRefused := by
  intro s hinv hs hsched hover
  have hwork : workLeft s = 3 * s.args.inLength.toNat + 3 := by simp [workLeft, hs]
  have hends : EndsWith (refDecodeStream s.params s.args s.mem).outputWindow s := by simp [EndsWith, hs]
  exact refused_of_not_clear _ hwork.le hinv (outputInv_of_not_inStream (by simp [hs, Seq.inStream])) hsched hends hover

end Sys2Proof.Machine

/-! SUPPORT. Operations encoded and decoded: the fields of a record's word, the decoder after the encoder (O1) and the encoder
after the decoder (O2). -/

namespace Sys2Proof

/-! The records' words and their fields (R81 to R83), inverse to each other. -/

/-- Above the low part's bits a concatenation reads as its high part. -/
theorem extractLsb'_append_above {v w : Nat} (x : BitVec v) (y : BitVec w) (i len : Nat) :
    (x ++ y).extractLsb' (w + i) len = x.extractLsb' i len := by
  rw [BitVec.extractLsb'_append_eq_of_le (Nat.le_add_right w i), Nat.add_sub_cancel_left]

/-- Each of four concatenated fields reads back. -/
theorem extractLsb'_append_four {k l m n : Nat} (a : BitVec k) (b : BitVec l) (c : BitVec m) (d : BitVec n) :
    (a ++ b ++ c ++ d).extractLsb' (n + (m + l)) k = a ∧ (a ++ b ++ c ++ d).extractLsb' (n + (m + 0)) l = b ∧
      (a ++ b ++ c ++ d).extractLsb' (n + 0) m = c ∧ (a ++ b ++ c ++ d).extractLsb' 0 n = d := by
  simp only [extractLsb'_append_above, BitVec.extractLsb'_append_eq_left, BitVec.extractLsb'_append_eq_right, and_self]

/-- Four adjacent fields of a word, concatenated, are the bits they span. -/
theorem append_four_extractLsb' {w : Nat} (x : BitVec w) (i k l m n : Nat) :
    x.extractLsb' (i + n + m + l) k ++ x.extractLsb' (i + n + m) l ++ x.extractLsb' (i + n) m ++ x.extractLsb' i n =
      x.extractLsb' i (k + l + m + n) := by
  rw [BitVec.extractLsb'_append_extractLsb'_eq_extractLsb' rfl, BitVec.extractLsb'_append_extractLsb'_eq_extractLsb' rfl,
    BitVec.extractLsb'_append_extractLsb'_eq_extractLsb' rfl]

theorem streamHeaderOf_streamHeaderWord (h : StreamHeader) : streamHeaderOf (streamHeaderWord h) = h :=
  congrArg₂ StreamHeader.mk BitVec.extractLsb'_append_eq_left BitVec.extractLsb'_append_eq_right

theorem streamHeaderWord_streamHeaderOf (w : BitVec 64) : streamHeaderWord (streamHeaderOf w) = w :=
  BitVec.extractLsb'_append_extractLsb'

theorem frameHeaderOf_frameHeaderWord (h : FrameHeader) : frameHeaderOf (frameHeaderWord h) = h :=
  Eq.mpr (FrameHeader.mk.injEq ..) (extractLsb'_append_four h.channels h.rate h.samples h.size)

theorem frameHeaderWord_frameHeaderOf (w : BitVec 64) : frameHeaderWord (frameHeaderOf w) = w :=
  (append_four_extractLsb' w 0 8 24 16 16).trans BitVec.extractLsb'_eq_self

/-- The four int16 fields of a word from bit k upwards (R83). -/
def quadAt {n : Nat} (p : BitVec n) (k : Nat) : Quad :=
  ⟨p.extractLsb' (k + 48) 16, p.extractLsb' (k + 32) 16, p.extractLsb' (k + 16) 16, p.extractLsb' k 16⟩

theorem lmsRecordOf_eq (p : BitVec 128) : lmsRecordOf p = ⟨quadAt p 64, quadAt p 0⟩ := rfl

theorem quadAt_quadWord (q : Quad) : quadAt (quadWord q) 0 = q :=
  Eq.mpr (Quad.mk.injEq ..) (extractLsb'_append_four q.i0 q.i1 q.i2 q.i3)

theorem quadWord_quadAt {n : Nat} (p : BitVec n) (k : Nat) : quadWord (quadAt p k) = p.extractLsb' k 64 :=
  append_four_extractLsb' p k 16 16 16 16

theorem quadAt_append_high (x y : BitVec 64) : quadAt (x ++ y) 64 = quadAt x 0 :=
  Eq.mpr (Quad.mk.injEq ..) ⟨extractLsb'_append_above x y 48 16, extractLsb'_append_above x y 32 16,
    extractLsb'_append_above x y 16 16, extractLsb'_append_above x y 0 16⟩

theorem quadAt_append_low (x y : BitVec 64) : quadAt (x ++ y) 0 = quadAt y 0 := by
  have low : ∀ i, i + 16 ≤ 64 → (x ++ y).extractLsb' i 16 = y.extractLsb' i 16 :=
    fun _ h => BitVec.extractLsb'_append_eq_of_add_le h
  exact Eq.mpr (Quad.mk.injEq ..) ⟨low 48 (by decide), low 32 (by decide), low 16 (by decide), low 0 (by decide)⟩

theorem lmsRecordOf_lmsRecordWord (r : LmsRecord) : lmsRecordOf (lmsRecordWord r) = r := by
  rw [lmsRecordOf_eq, lmsRecordWord, quadAt_append_high, quadAt_append_low, quadAt_quadWord, quadAt_quadWord]

theorem lmsRecordWord_lmsRecordOf (p : BitVec 128) : lmsRecordWord (lmsRecordOf p) = p := by
  rw [lmsRecordOf_eq, lmsRecordWord, quadWord_quadAt, quadWord_quadAt]
  exact BitVec.extractLsb'_append_extractLsb'

/-! The operation of a record's value (R95, R96). -/

@[simp] theorem decodeValue_dqIndex (x : BitVec 7) :
    decodeValue .dqIndex x.toNat = .ok (.dequant (x.extractLsb' 3 4) (x.extractLsb' 0 3)) := by
  simp [decodeValue, x.isLt]

@[simp] theorem decodeValue_lmsRecord (p : BitVec 128) :
    decodeValue .lmsRecord p.toNat = .ok (.lmsLoad (lmsRecordOf p)) := by
  simp [decodeValue]

@[simp] theorem decodeValue_sliceWord (w : BitVec 64) : decodeValue .sliceWord w.toNat = .ok (.sliceLoad w) := by
  simp [decodeValue]

@[simp] theorem decodeValue_frameHeader (w : BitVec 64) :
    decodeValue .frameHeader w.toNat = .ok (.frameHdr (frameHeaderOf w)) := by
  simp [decodeValue]

@[simp] theorem decodeValue_frameFields (w : BitVec 64) :
    decodeValue .frameFields w.toNat = .ok (.frameCheck (frameHeaderOf w)) := by
  simp [decodeValue]

@[simp] theorem decodeValue_streamHeader (w : BitVec 64) :
    decodeValue .streamHeader w.toNat = .ok (.streamHdr (streamHeaderOf w)) := by
  simp [decodeValue]

/-- A register access decodes by its direction and offset (R92). -/
theorem decodeValue_busWord (b : Bool) (off : BitVec 8) (v : Word) (h : off.toNat % 4 = 0) :
    decodeValue .bus (busWord b off v).toNat = .ok (if b then decodeWrite off v else decodeRead off) := by
  simp [decodeValue, (busWord b off v).isLt, decodeBus_busWord b off v h]

/-! Register accesses by offset (R28, R91, R92). -/

theorem reservedOffset_iff {off : BitVec 8} : reservedOffset off = true ↔ 0x20 ≤ off.toNat ∧ off.toNat % 4 = 0 := by
  simp [reservedOffset]

/-- An aligned offset is a reserved one or one of the eight registers'. -/
theorem registerOffset_cases {off : BitVec 8} (h : off.toNat % 4 = 0) :
    reservedOffset off = true ∨ off = 0x00#8 ∨ off = 0x04#8 ∨ off = 0x08#8 ∨ off = 0x0C#8 ∨ off = 0x10#8 ∨ off = 0x14#8 ∨
      off = 0x18#8 ∨ off = 0x1C#8 := by
  rw [reservedOffset_iff]
  bv_omega

/-- A reserved offset is no register's. -/
theorem ne_of_reservedOffset {off : BitVec 8} (h : reservedOffset off = true) {reg : BitVec 8} (hreg : reg.toNat < 0x20) :
    off ≠ reg := by
  rintro rfl
  exact absurd (reservedOffset_iff.mp h).1 (Nat.not_le.mpr hreg)

theorem decodeRead_reserved {off : BitVec 8} (h : reservedOffset off = true) : decodeRead off = .rdReserved off := by
  simp [decodeRead, ne_of_reservedOffset h]

theorem decodeWrite_reserved {off : BitVec 8} (h : reservedOffset off = true) (v : Word) :
    decodeWrite off v = .wrIgnoredReserved off v := by
  simp [decodeWrite, ne_of_reservedOffset h]

theorem decodeWrite_start {v : Word} (h : v.getLsbD 0 = true) : decodeWrite 0x00#8 v = .start v := if_pos h

theorem decodeWrite_ctrlNop {v : Word} (h : v.getLsbD 0 = false) : decodeWrite 0x00#8 v = .wrCtrlNop v := by
  change (if v.getLsbD 0 then _ else _) = _
  rw [h]
  rfl

/-! The decoder after the encoder. -/

open Laws.EncodedValueFits in
/-- Every operation's value fits in its record's bytes (R96). -/
theorem encodedValueFits : ∀ i : Instr, Laws.EncodedValueFits.Statement i
  | .dequant sf q => dequant sf q
  | .lmsLoad rec => lmsLoad rec
  | .sliceLoad word => sliceLoad word
  | .frameHdr h => frameHdr h
  | .frameCheck h => frameCheck h
  | .streamHdr h => streamHdr h
  | .lmsPredict | .lmsUpdate | .sampleStep | .frameOut | .frameEnd | .streamLoop | .streamFinish => no_bits _
  | .start _ | .wrCtrlNop _ | .rdStatus | .rdArgInOffset | .rdArgInLength | .rdArgOutOffset | .rdResultSamples
  | .rdResultChannels | .rdResultRate | .rdCtrl | .rdReserved _ | .wrArgInOffset _ | .wrArgInLength _ | .wrArgOutOffset _
  | .wrIgnoredStatus _ | .wrIgnoredSamples _ | .wrIgnoredChannels _ | .wrIgnoredRate _ | .wrIgnoredReserved _ _ =>
    bus_fits _

/-- An operation decodes from its value at its selector (R95). -/
theorem decodeValue_encodeValue : ∀ i : Instr, i.wellFormed = true →
    decodeValue (encodeValue i).1 (encodeValue i).2 = .ok i
  | .dequant sf q, _ => by
    rw [encodeValue, decodeValue_dqIndex, BitVec.extractLsb'_append_eq_left, BitVec.extractLsb'_append_eq_right]
  | .lmsLoad rec, _ => by rw [encodeValue, decodeValue_lmsRecord, lmsRecordOf_lmsRecordWord]
  | .sliceLoad word, _ => decodeValue_sliceWord word
  | .frameHdr h, _ => by rw [encodeValue, decodeValue_frameHeader, frameHeaderOf_frameHeaderWord]
  | .frameCheck h, _ => by rw [encodeValue, decodeValue_frameFields, frameHeaderOf_frameHeaderWord]
  | .streamHdr h, _ => by rw [encodeValue, decodeValue_streamHeader, streamHeaderOf_streamHeaderWord]
  | .lmsPredict, _ | .lmsUpdate, _ | .sampleStep, _ | .frameOut, _ | .frameEnd, _ | .streamLoop, _ | .streamFinish, _ => rfl
  | .start v, hv => (decodeValue_busWord true _ v (by decide)).trans (congrArg _ (decodeWrite_start hv))
  | .wrCtrlNop v, hv =>
    (decodeValue_busWord true _ v (by decide)).trans (congrArg _ (decodeWrite_ctrlNop (by simpa [Instr.wellFormed] using hv)))
  | .rdReserved off, hoff =>
    (decodeValue_busWord false off _ (reservedOffset_iff.mp hoff).2).trans (congrArg _ (decodeRead_reserved hoff))
  | .wrIgnoredReserved off v, hoff =>
    (decodeValue_busWord true off v (reservedOffset_iff.mp hoff).2).trans (congrArg _ (decodeWrite_reserved hoff v))
  | .rdStatus, _ | .rdArgInOffset, _ | .rdArgInLength, _ | .rdArgOutOffset, _ | .rdResultSamples, _
  | .rdResultChannels, _ | .rdResultRate, _ | .rdCtrl, _ | .wrArgInOffset _, _ | .wrArgInLength _, _
  | .wrArgOutOffset _, _ | .wrIgnoredStatus _, _ | .wrIgnoredSamples _, _ | .wrIgnoredChannels _, _
  | .wrIgnoredRate _, _ => decodeValue_busWord _ _ _ (by decide)

/-- Settles O1: the value fits in the record's bytes, and every field reads back from it. -/
theorem decodeOfEncodeIsTheOperation : Obligations.DecodeOfEncodeIsTheOperation := fun i hi =>
  (decode_beBytes _ _ (encodedValueFits i)).trans (decodeValue_encodeValue i hi)

/-! The encoder after the decoder. -/

/-- A selector whose values of n bits all name operations with those values: its records decode and encode back. -/
theorem encode_after_decode {sel : Selector} {bs : List Byte} {n : Nat} (hlen : bs.length = sel.width)
    (hfits : beNat bs < 2 ^ n) (op : BitVec n → Instr) (hdec : ∀ x, decodeValue sel x.toNat = .ok (op x))
    (hwf : ∀ x, (op x).wellFormed = true) (henc : ∀ x, encodeValue (op x) = (sel, x.toNat)) :
    ∃ i, decode sel bs = .ok i ∧ i.wellFormed = true ∧ encode i = (sel, bs) := by
  have hval : (BitVec.ofNat n (beNat bs)).toNat = beNat bs := by rw [BitVec.toNat_ofNat, Nat.mod_eq_of_lt hfits]
  refine ⟨op (BitVec.ofNat n (beNat bs)), ?_, hwf _, ?_⟩
  · rw [decode_of_length _ _ hlen, ← hdec, hval]
  · rw [encode, henc, hval, ← hlen, beBytes_beNat]

/-- Settles O2: the fields of each record take up its word, so the word encodes back from them. -/
theorem everyRecordBitIsAField : Obligations.EveryRecordBitIsAField := by
  intro sel bs hsel hlen
  have hfits : ∀ n, sel.width * 8 = n → beNat bs < 2 ^ n := by
    rintro n rfl
    have := beNat_lt bs
    rwa [hlen, show 256 = 2 ^ 8 from rfl, ← Nat.pow_mul, Nat.mul_comm] at this
  rcases hsel with rfl | rfl | rfl | rfl | rfl | ⟨rfl, hindex⟩
  · exact encode_after_decode hlen (hfits 64 rfl) _ decodeValue_streamHeader (fun _ => rfl) fun w => by
      rw [encodeValue, streamHeaderWord_streamHeaderOf]
  · exact encode_after_decode hlen (hfits 64 rfl) _ decodeValue_frameHeader (fun _ => rfl) fun w => by
      rw [encodeValue, frameHeaderWord_frameHeaderOf]
  · exact encode_after_decode hlen (hfits 64 rfl) _ decodeValue_frameFields (fun _ => rfl) fun w => by
      rw [encodeValue, frameHeaderWord_frameHeaderOf]
  · exact encode_after_decode hlen (hfits 128 rfl) _ decodeValue_lmsRecord (fun _ => rfl) fun p => by
      rw [encodeValue, lmsRecordWord_lmsRecordOf]
  · exact encode_after_decode hlen (hfits 64 rfl) _ decodeValue_sliceWord (fun _ => rfl) fun _ => rfl
  · exact encode_after_decode hlen hindex _ decodeValue_dqIndex (fun _ => rfl) fun x => by
      rw [encodeValue, BitVec.extractLsb'_append_extractLsb']

end Sys2Proof

/-! The first row of the opcode table (R92, R96; O3). A row fixes the direction of an access and nothing else, or its offset
too, or bit 0 of the data of a write to CTRL. -/

namespace Sys2Proof

theorem busWord_and (b b' : Bool) (off off' : BitVec 8) (v v' : Word) :
    busWord b off v &&& busWord b' off' v' = busWord (b && b') (off &&& off') (v &&& v') := by
  unfold busWord
  rw [BitVec.and_append, BitVec.and_append, BitVec.ofBool_and_ofBool]

theorem busWord_inj {b b' : Bool} {off off' : BitVec 8} {v v' : Word} :
    busWord b off v = busWord b' off' v' ↔ b = b' ∧ off = off' ∧ v = v' := by
  refine ⟨fun h => ⟨?_, ?_, ?_⟩, by rintro ⟨rfl, rfl, rfl⟩; rfl⟩
  · simpa only [busWord_direction] using congrArg (·.getLsbD 40) h
  · simpa only [busWord_offset] using congrArg (·.extractLsb' 32 8) h
  · simpa only [busWord_data] using congrArg (·.extractLsb' 0 32) h

/-- A BUS_41 value is its direction, offset and data. -/
theorem busWord_fields (w : BitVec 41) : busWord (w.getLsbD 40) (w.extractLsb' 32 8) (w.extractLsb' 0 32) = w := by
  have hdir : BitVec.ofBool (w.getLsbD 40) = w.extractLsb' 40 1 := by
    ext i hi
    obtain rfl : i = 0 := by omega
    simp
  rw [busWord, hdir, BitVec.extractLsb'_append_extractLsb'_eq_extractLsb' (start₁ := 32) (len₁ := 8) rfl]
  exact BitVec.extractLsb'_append_extractLsb'

/-- A row of one direction and one offset. -/
def accessRow (name : String) (b : Bool) (off : BitVec 8) : BusRow :=
  ⟨name, busWord b off 0#32, busWord true 0xFF#8 0#32⟩

/-- A row of the writes to CTRL whose data has the given bit 0. -/
def ctrlRow (name : String) (bit : Bool) : BusRow :=
  ⟨name, busWord true 0x00#8 (if bit then 1#32 else 0#32), busWord true 0xFF#8 1#32⟩

/-- A row of one direction, at any offset. -/
def directionRow (name : String) (b : Bool) : BusRow := ⟨name, busWord b 0x00#8 0#32, busWord true 0x00#8 0#32⟩

@[simp] theorem ctrlRow_mnemonic (name : String) (bit : Bool) : (ctrlRow name bit).mnemonic = name := rfl
@[simp] theorem accessRow_mnemonic (name : String) (b : Bool) (off : BitVec 8) : (accessRow name b off).mnemonic = name := rfl
@[simp] theorem directionRow_mnemonic (name : String) (b : Bool) : (directionRow name b).mnemonic = name := rfl

/-- The table's BUS_41 rows by what they fix. -/
theorem busRows_eq : busRows =
    [ctrlRow "START" true, ctrlRow "WR_CTRL_NOP" false, accessRow "RD_STATUS" false 0x04#8,
      accessRow "RD_ARG.IN_OFFSET" false 0x08#8, accessRow "RD_ARG.IN_LENGTH" false 0x0C#8,
      accessRow "RD_ARG.OUT_OFFSET" false 0x10#8, accessRow "RD_RESULT.RES_SAMPLES" false 0x14#8,
      accessRow "RD_RESULT.RES_CHANNELS" false 0x18#8, accessRow "RD_RESULT.RES_RATE" false 0x1C#8,
      accessRow "RD_CTRL" false 0x00#8, directionRow "RD_RESERVED" false, accessRow "WR_ARG.IN_OFFSET" true 0x08#8,
      accessRow "WR_ARG.IN_LENGTH" true 0x0C#8, accessRow "WR_ARG.OUT_OFFSET" true 0x10#8,
      accessRow "WR_IGNORED.STATUS" true 0x04#8, accessRow "WR_IGNORED.RES_SAMPLES" true 0x14#8,
      accessRow "WR_IGNORED.RES_CHANNELS" true 0x18#8, accessRow "WR_IGNORED.RES_RATE" true 0x1C#8,
      directionRow "WR_IGNORED.RESERVED" true] := rfl

/-- The row's test of a BUS_41 value (R96). -/
def BusRow.selects (r : BusRow) (w : BitVec 41) : Bool := w &&& r.mask == r.pattern

theorem firstBusRow_eq (w : BitVec 41) : firstBusRow w = (busRows.find? (·.selects w)).map (·.mnemonic) := rfl

@[simp] theorem accessRow_selects (name : String) (b b' : Bool) (off off' : BitVec 8) (v : Word) :
    (accessRow name b' off').selects (busWord b off v) = decide (b = b' ∧ off = off') := by
  have h255 : off &&& 0xFF#8 = off := BitVec.and_allOnes
  rw [BusRow.selects, Bool.beq_eq_decide_eq]
  simp only [accessRow, busWord_and, busWord_inj, h255, Bool.and_true, BitVec.and_zero, and_true]

@[simp] theorem directionRow_selects (name : String) (b b' : Bool) (off : BitVec 8) (v : Word) :
    (directionRow name b').selects (busWord b off v) = decide (b = b') := by
  rw [BusRow.selects, Bool.beq_eq_decide_eq]
  simp only [directionRow, busWord_and, busWord_inj, Bool.and_true, BitVec.and_zero, and_true]

@[simp] theorem ctrlRow_selects (name : String) (b bit : Bool) (off : BitVec 8) (v : Word) :
    (ctrlRow name bit).selects (busWord b off v) = decide (b = true ∧ off = 0x00#8 ∧ v.getLsbD 0 = bit) := by
  have h255 : off &&& 0xFF#8 = off := BitVec.and_allOnes
  have hbit : v &&& 1#32 = (if bit then 1#32 else 0#32) ↔ v.getLsbD 0 = bit := by
    rw [BitVec.and_one_eq_setWidth_ofBool_getLsbD]
    cases v.getLsbD 0 <;> cases bit <;> decide
  rw [BusRow.selects, Bool.beq_eq_decide_eq]
  simp only [ctrlRow, busWord_and, busWord_inj, h255, hbit, Bool.and_true]

/-- The first row of a register read is the decoder's. -/
theorem firstBusRow_read {off : BitVec 8} (h : off.toNat % 4 = 0) (v : Word) :
    firstBusRow (busWord false off v) = some (decodeRead off).mnemonic := by
  rw [firstBusRow_eq, busRows_eq]
  rcases registerOffset_cases h with hres | rfl | rfl | rfl | rfl | rfl | rfl | rfl | rfl
  · simp [decodeRead_reserved hres, ne_of_reservedOffset hres, Instr.mnemonic]
  all_goals simp [decodeRead, Instr.mnemonic]

/-- The first row of a register write is the decoder's; at CTRL bit 0 of the data decides. -/
theorem firstBusRow_write {off : BitVec 8} (h : off.toNat % 4 = 0) (v : Word) :
    firstBusRow (busWord true off v) = some (decodeWrite off v).mnemonic := by
  rw [firstBusRow_eq, busRows_eq]
  rcases registerOffset_cases h with hres | rfl | rfl | rfl | rfl | rfl | rfl | rfl | rfl
  · simp [decodeWrite_reserved hres, ne_of_reservedOffset hres, Instr.mnemonic]
  · cases hbit : v[0] with
    | false => simp [decodeWrite_ctrlNop hbit, hbit, Instr.mnemonic]
    | true => simp [decodeWrite_start hbit, hbit, Instr.mnemonic]
  all_goals simp [decodeWrite, Instr.mnemonic]

theorem decodeRead_wellFormed {off : BitVec 8} (h : off.toNat % 4 = 0) : (decodeRead off).wellFormed = true := by
  rcases registerOffset_cases h with hres | rfl | rfl | rfl | rfl | rfl | rfl | rfl | rfl
  · rw [decodeRead_reserved hres]
    exact hres
  all_goals rfl

theorem decodeWrite_wellFormed {off : BitVec 8} (h : off.toNat % 4 = 0) (v : Word) :
    (decodeWrite off v).wellFormed = true := by
  rcases registerOffset_cases h with hres | rfl | rfl | rfl | rfl | rfl | rfl | rfl | rfl
  · rw [decodeWrite_reserved hres]
    exact hres
  · cases hbit : v.getLsbD 0
    · rw [decodeWrite_ctrlNop hbit, Instr.wellFormed, hbit]
      rfl
    · rw [decodeWrite_start hbit]
      exact hbit
  all_goals rfl

/-- Settles O3: by the direction, then by the offset, the decoder and the table's first match answer alike. -/
theorem busValueSelectsFirstTableRow : Obligations.BusValueSelectsFirstTableRow := by
  intro w h
  rw [← busWord_fields w, decodeBus_busWord _ _ _ h]
  cases w.getLsbD 40 with
  | false => exact ⟨_, rfl, decodeRead_wellFormed h, firstBusRow_read h _⟩
  | true => exact ⟨_, rfl, decodeWrite_wellFormed h _, firstBusRow_write h _⟩

end Sys2Proof

/-! SUPPORT. Slice words and the records of a frame (O5, O7), and words written out from the encodings (O6). -/

namespace Sys2Proof.Machine

open Sys2Proof

/-! A slice word's bits (R84). -/

/-- The bits from 60 up are the scale factor's. -/
theorem getLsbD_of_scaleFactor (w : BitVec 64) {i : Nat} (hlow : 60 ≤ i) (hi : i < 64) :
    w.getLsbD i = (scaleFactor w).getLsbD (i - 60) := by
  rw [scaleFactor, BitVec.getLsbD_extractLsb', decide_eq_true (by omega), Bool.true_and, Nat.add_sub_cancel' hlow]

/-- The bits below 60 are the codes', slot 0 the highest. -/
theorem getLsbD_of_residualCode (w : BitVec 64) {i : Nat} (hi : i < 60) :
    w.getLsbD i = (residualCode w ((59 - i) / 3)).getLsbD (i % 3) := by
  have hpos : 57 - 3 * ((59 - i) / 3) + i % 3 = i := by omega
  rw [residualCode, BitVec.getLsbD_extractLsb', decide_eq_true (Nat.mod_lt i (by decide)), Bool.true_and, hpos]

/-- Settles O5: each of the 64 bits is one of the scale factor or of a code below slot 20. -/
theorem sliceWordIsItsFields : Obligations.SliceWordIsItsFields := by
  intro w v hsf hcodes
  refine BitVec.eq_of_getLsbD_eq fun i hi => ?_
  by_cases hlow : 60 ≤ i
  · rw [getLsbD_of_scaleFactor w hlow hi, getLsbD_of_scaleFactor v hlow hi, hsf]
  · have hcode : i < 60 := by omega
    rw [getLsbD_of_residualCode w hcode, getLsbD_of_residualCode v hcode, hcodes _ (by omega)]

/-! The records of a frame (R85). -/

/-- Entries of an earlier row stand before those of a later one. -/
theorem rowIndex_lt_of_row_lt {i i' c c' n : Nat} (hi : i < i') (hc : c < n) : i * n + c < i' * n + c' :=
  Nat.lt_add_right c' (rowIndex_lt hi hc)

/-- Two entries of a table of n columns stand at different indices. -/
theorem rowIndex_ne {i i' c c' n : Nat} (hc : c < n) (hc' : c' < n) (h : (i, c) ≠ (i', c')) :
    i * n + c ≠ i' * n + c' := by
  rcases Nat.lt_trichotomy i i' with hi | rfl | hi
  · exact (rowIndex_lt_of_row_lt hi hc).ne
  · exact fun heq => h (by rw [Nat.add_left_cancel heq])
  · exact (rowIndex_lt_of_row_lt hi hc').ne'

/-- Slice words at different indices do not overlap. -/
theorem sliceWordAddr_apart {b chans s c s' c' : Nat} (h : s * chans + c ≠ s' * chans + c') :
    sliceWordAddr b chans s c + 8 ≤ sliceWordAddr b chans s' c' ∨
      sliceWordAddr b chans s' c' + 8 ≤ sliceWordAddr b chans s c := by
  unfold sliceWordAddr
  omega

/-- A slice word of the frame ends by the frame's end (R82, R153). -/
theorem sliceWordAddr_inside (b : Nat) {chans n s c : Nat} (hc : c < chans) (hs : s < sliceCount n) :
    sliceWordAddr b chans s c + 8 ≤ b + frameSizeLaw chans n := by
  have hidx : s * chans + c < sliceCount n * chans := rowIndex_lt hs hc
  have hsize : frameSizeLaw chans n = 8 + 16 * chans + 8 * (sliceCount n * chans) := by
    rw [frameSizeLaw, sliceCount, Nat.mul_assoc, Nat.mul_comm chans]
  unfold sliceWordAddr
  omega

/-- Settles O7: slice words are numbered row by row, below ceil(N/20) rows of one word for each channel. -/
theorem frameRecordsLieApart : Obligations.FrameRecordsLieApart := by
  intro b chans n s c s' c' hc hc' hs _
  refine ⟨?_, ?_, ?_, sliceWordAddr_inside b hc hs, fun h => sliceWordAddr_apart (rowIndex_ne hc hc' h)⟩
  · exact Nat.le_add_right _ _
  · unfold lmsRecordAddr sliceWordAddr
    omega
  · unfold sliceWordAddr
    omega

/-- Settles O6: the decoder evaluated on each record. -/
theorem specWordsDecode : Obligations.SpecWordsDecode := by
  refine ⟨?_, ?_, ?_, ?_, ?_, ?_, ?_, ?_⟩ <;> decide

end Sys2Proof.Machine

/-! SUPPORT. What a step adds around the operation it decodes (O42). -/

namespace Sys2Proof.Machine

open Sys2Proof

/-! The engine's step, one equation per sequencer state (R211 to R218). -/

theorem engineStep_idle {s : State} (hs : s.seq = .idle) : engineStep s = .next s := by
  rw [engineStep, hs]

theorem engineStep_streamHdr {s : State} (hs : s.seq = .streamHdr) : engineStep s = stepStreamHdr s := by
  rw [engineStep, hs]

theorem engineStep_frameHdr {s : State} (hs : s.seq = .frameHdr) : engineStep s = stepFrameHdr s := by
  rw [engineStep, hs]

theorem engineStep_lmsLoad {s : State} (hs : s.seq = .lmsLoad) : engineStep s = stepLmsLoad s := by
  rw [engineStep, hs]

theorem engineStep_sliceLoad {s : State} (hs : s.seq = .sliceLoad) : engineStep s = stepSliceLoad s := by
  rw [engineStep, hs]

theorem engineStep_sample {s : State} (hs : s.seq = .sample) : engineStep s = stepSample s := by
  rw [engineStep, hs]

theorem engineStep_frameEnd {s : State} (hs : s.seq = .frameEnd) : engineStep s = stepFrameEnd s := by
  rw [engineStep, hs]

theorem engineStep_finish {s : State} (hs : s.seq = .finish) : engineStep s = stepFinish s := by
  rw [engineStep, hs]

/-! The operation behind a register access, a fetched record, and each sequencer state. -/

/-- A register access of the interface runs the operation its BUS_41 value names (R92). -/
theorem busStep_of_decodeBus {a : BusAccess} {s : State} {i : Instr} (hbits : a.bits = 32) (hlow : s.params.regBase ≤ a.addr)
    (hhigh : a.addr < s.params.regBase + 256) (hdec : decodeBus (accessWord a s) = .ok i) : busStep a s = exec i s := by
  rcases busStep_cases a s with ⟨h, _⟩ | ⟨_, h, _⟩ | ⟨_, _, _, h⟩
  · exact absurd hbits h
  · omega
  · rw [h, hdec, runDecoded_ok]

/-- A record inside MEM runs the operation it decodes to. -/
theorem fetchAndRun_inside {sel : Selector} {a n : Nat} {s : State} {i : Instr} (hmem : a + n ≤ s.params.memSize)
    (hdec : decode sel (memBytes s.mem a n) = .ok i) : fetchAndRun sel a n s = exec i s := by
  rw [fetchAndRun, if_pos hmem, runOp_ok hdec]

/-- A record outside MEM faults (log 20). -/
theorem fetchAndRun_outside {sel : Selector} {a n : Nat} {s : State} (hmem : s.params.memSize < a + n) :
    fetchAndRun sel a n s = .fault (.outsideMem a) :=
  if_neg (Nat.not_le.mpr hmem)

/-- STREAM_HDR with a readable header runs the operation at IN_OFFSET (R212). -/
theorem stepStreamHdr_runs {s : State} {i : Instr}
    (hmem : s.args.inOffset.toNat + s.args.inLength.toNat ≤ s.params.memSize) (hlen : 8 ≤ s.args.inLength.toNat)
    (hdec : decode .streamHeader (memBytes s.mem s.args.inOffset.toNat 8) = .ok i) :
    stepStreamHdr s = andThen (exec i s) fun t => .next (unlessEnded (·.setSeq .frameHdr) t) := by
  have hread : streamHeaderReadable s = true := by simp [streamHeaderReadable, hmem, hlen]
  rw [stepStreamHdr, if_pos hread, fetchAndRun_inside (by omega) hdec]

/-- STREAM_HDR without a readable header is the operation on any header: a bounds check fails before it is looked at
(R180; log 24). -/
theorem stepStreamHdr_unread (h : StreamHeader) {s : State} (hs : s.seq = .streamHdr)
    (hread : s.params.memSize < s.args.inOffset.toNat + s.args.inLength.toNat ∨ s.args.inLength.toNat < 8) :
    stepStreamHdr s = exec (.streamHdr h) s := by
  rw [stepStreamHdr_eq s hs]
  by_cases hmem : s.params.memSize < s.args.inOffset.toNat + s.args.inLength.toNat
  · simp [exec, execStreamHdr, streamCheckKind, hmem]
  · simp [exec, execStreamHdr, streamCheckKind, hmem, hread.resolve_left hmem]

/-- FRAME_HDR when a frame follows and its header is there: the operation at FBASE (R213). -/
theorem stepFrameHdr_runs {s : State} {i : Instr} (hs : s.seq = .frameHdr) (hfollows : frameFollows s = true)
    (hthere : headerTruncated s = false) (hmem : s.regs.fbase.toNat + 8 ≤ s.params.memSize)
    (hdec : decode .frameHeader (memBytes s.mem s.regs.fbase.toNat 8) = .ok i) :
    stepFrameHdr s = andThen (exec i s) fun t =>
      .next (unlessEnded (fun u => (u.setRegs { u.regs with chIdx := 0#4 }).setSeq .lmsLoad) t) := by
  have hloop : execStreamLoop s = .next s := by
    rw [execStreamLoop, hfollows, if_pos rfl, ← hs]
    rfl
  rw [stepFrameHdr, runOp_loopHead, hloop, andThen_next, if_neg (by simp [hs]), hthere]
  change andThen (fetchAndRun .frameHeader s.regs.fbase.toNat 8 s) _ = _
  rw [fetchAndRun_inside hmem hdec]

/-- FRAME_HDR with a truncated header is the operation on any header (R150; log 24). -/
theorem stepFrameHdr_unread (h : FrameHeader) {s : State} (hs : s.seq = .frameHdr) (hfollows : frameFollows s = true)
    (htrunc : headerTruncated s = true) : stepFrameHdr s = exec (.frameHdr h) s := by
  simp [stepFrameHdr_eq s hs, hfollows, htrunc, exec, execFrameHdr]

/-- FRAME_HDR with its header outside MEM faults (log 20). -/
theorem stepFrameHdr_outside {s : State} (hs : s.seq = .frameHdr) (hfollows : frameFollows s = true)
    (hthere : headerTruncated s = false) (hmem : s.params.memSize < s.regs.fbase.toNat + 8) :
    stepFrameHdr s = .fault (.outsideMem s.regs.fbase.toNat) := by
  simp [stepFrameHdr_eq s hs, hfollows, hthere, hmem]

/-- FRAME_HDR when no frame follows is the loop head alone (R213). -/
theorem stepFrameHdr_ends {s : State} (hs : s.seq = .frameHdr) (hends : frameFollows s = false) :
    stepFrameHdr s = exec .streamLoop s := by
  simp [stepFrameHdr_eq s hs, hends, exec, execStreamLoop]

/-- SAMPLE runs SAMPLE_STEP on the loaded word, then FRAME_OUT (R216). -/
theorem stepSample_runs (s : State) :
    stepSample s = andThen (exec .sampleStep s) fun t => andThen (exec .frameOut t) fun u => .next (afterSample u) := by
  rw [stepSample, runOp_slot _ (beBytes_length _ _)]
  rfl

/-- Settles O42: the probe, then the turn, then the engine's states in their order. -/
theorem stepRunsTheDecodedOperation : Obligations.StepRunsTheDecodedOperation := by
  refine ⟨?_, ?_, ?_, ?_, ?_, ?_, ?_, ?_, ?_, ?_, ?_, ?_, ?_, ?_, ?_, ?_, ?_, ?_⟩
  · intro s p i hp hdec
    rw [step, hp]
    exact runOp_ok hdec _
  · intro s a rest i hp hsched hbits hlow hhigh hdec
    rw [step_eq_takeTurn hp, hsched]
    exact busStep_of_decodeBus hbits hlow hhigh hdec
  · intro s rest hp hsched
    rw [step_eq_takeTurn hp, hsched]
    rfl
  · exact fun s => step_eq_engineStep
  · exact fun s hs => engineStep_idle hs
  · exact fun s i hs hmem hlen hdec => (engineStep_streamHdr hs).trans (stepStreamHdr_runs hmem hlen hdec)
  · exact fun s h hs hread => (engineStep_streamHdr hs).trans (stepStreamHdr_unread h hs hread)
  · exact fun s i hs hf ht hmem hdec => (engineStep_frameHdr hs).trans (stepFrameHdr_runs hs hf ht hmem hdec)
  · exact fun s h hs hf ht => (engineStep_frameHdr hs).trans (stepFrameHdr_unread h hs hf ht)
  · exact fun s hs hf ht hmem => (engineStep_frameHdr hs).trans (stepFrameHdr_outside hs hf ht hmem)
  · exact fun s hs hf => (engineStep_frameHdr hs).trans (stepFrameHdr_ends hs hf)
  · intro s i hs hmem hdec
    rw [engineStep_lmsLoad hs, stepLmsLoad, fetchAndRun_inside hmem hdec]
  · intro s hs a hmem
    rw [engineStep_lmsLoad hs, stepLmsLoad, fetchAndRun_outside hmem, andThen_fault]
  · intro s i hs a hmem hdec
    rw [engineStep_sliceLoad hs, stepSliceLoad, fetchAndRun_inside hmem hdec]
  · intro s hs a hmem
    rw [engineStep_sliceLoad hs, stepSliceLoad, fetchAndRun_outside hmem, andThen_fault]
  · exact fun s hs => (engineStep_sample hs).trans (stepSample_runs s)
  · exact fun s hs => engineStep_frameEnd hs
  · exact fun s hs => engineStep_finish hs

end Sys2Proof.Machine

/-! SUPPORT. The dequantization table: DEQUANT's entry (O8), and the law of the default table (O9). -/

namespace Sys2Proof.Machine

open Sys2Proof

/-! The table lookup of the machine and of the reference (R100). -/

/-- DEQUANT hands on the entry and writes nothing else. -/
theorem exec_dequant (sf : BitVec 4) (q : BitVec 3) (s : State) :
    exec (.dequant sf q) s = .next { s with dp := { s.dp with r := dequantize s.params.dequantTab sf q } } := rfl

/-- The entry DEQUANT answers is the one in row sf, column q of the table written row after row. -/
theorem toList_getElem?_dequantize (tab : Vector Sample 128) (sf : BitVec 4) (q : BitVec 3) :
    tab.toList[8 * sf.toNat + q.toNat]? = some (dequantize tab sf q) := by
  have hindex : sf.toNat * 8 + q.toNat < 128 := by omega
  rw [Nat.mul_comm, List.getElem?_eq_getElem (by simpa using hindex), Vector.getElem_toList, dequantize]

/-- On integers DEQUANT's entry is the reference residual. -/
theorem dequantize_toInt (tab : Vector Sample 128) (sf : BitVec 4) (q : BitVec 3) :
    (dequantize tab sf q).toInt = refResidual tab sf.toNat q.toNat := by
  rw [refResidual, List.getD_eq_getElem?_getD, toList_getElem?_dequantize, Option.getD_some]

/-! The generating law of the default table (R101). -/

/-- R101's scale factor of row sf: `(sf + 1)^2.75`, rounded. -/
def rowScale (sf : Nat) : Nat :=
  [1, 7, 21, 45, 84, 138, 211, 304, 421, 562, 731, 928, 1157, 1419, 1715, 2048].getD sf 0

/-- Four times the multiplier of codes 2k and 2k + 1 (R101). -/
def codeMultiplier (k : Nat) : Nat := [3, 10, 18, 28].getD k 0

/-- The magnitude R101's law gives codes 2k and 2k + 1 of row sf. -/
def lawMagnitude (sf k : Nat) : Nat := (rowScale sf * codeMultiplier k + 2) / 4

/-- The 128 entries of the table against the law, row by row. -/
theorem defaultTab_eq_law : ∀ sf : Fin 16, ∀ k : Fin 4,
    refResidual Config.defaultTab sf (2 * k) = lawMagnitude sf k ∧
      refResidual Config.defaultTab sf (2 * k + 1) = -lawMagnitude sf k := by
  decide

theorem refResidual_defaultTab_even {sf k : Nat} (hsf : sf < 16) (hk : k < 4) :
    refResidual Config.defaultTab sf (2 * k) = lawMagnitude sf k :=
  (defaultTab_eq_law ⟨sf, hsf⟩ ⟨k, hk⟩).1

theorem refResidual_defaultTab_odd {sf k : Nat} (hsf : sf < 16) (hk : k < 4) :
    refResidual Config.defaultTab sf (2 * k + 1) = -lawMagnitude sf k :=
  (defaultTab_eq_law ⟨sf, hsf⟩ ⟨k, hk⟩).2

/-! The properties of R102, from the law. -/

theorem rowScale_bounds {sf : Nat} (hsf : sf < 16) : 1 ≤ rowScale sf ∧ rowScale sf ≤ 2048 := by
  have hrows : ∀ i : Fin 16, 1 ≤ rowScale i ∧ rowScale i ≤ 2048 := by decide
  exact hrows ⟨sf, hsf⟩

theorem codeMultiplier_bounds {k : Nat} (hk : k < 4) : 3 ≤ codeMultiplier k ∧ codeMultiplier k ≤ 28 := by
  have hcodes : ∀ i : Fin 4, 3 ≤ codeMultiplier i ∧ codeMultiplier i ≤ 28 := by decide
  exact hcodes ⟨k, hk⟩

/-- The scale factors rise by more than one from row to row: enough for the rounded quarters to rise too. -/
theorem rowScale_add_two_le {sf : Nat} (hpos : 0 < sf) (hsf : sf < 16) : rowScale (sf - 1) + 2 ≤ rowScale sf := by
  have hrows : ∀ i : Fin 16, 0 < i.val → rowScale (i - 1) + 2 ≤ rowScale i := by decide
  exact hrows ⟨sf, hsf⟩ hpos

theorem lawMagnitude_pos {sf k : Nat} (hsf : sf < 16) (hk : k < 4) : 0 < lawMagnitude sf k := by
  have hleast : 1 * 3 ≤ rowScale sf * codeMultiplier k :=
    Nat.mul_le_mul (rowScale_bounds hsf).1 (codeMultiplier_bounds hk).1
  unfold lawMagnitude
  omega

theorem lawMagnitude_le {sf k : Nat} (hsf : sf < 16) (hk : k < 4) : lawMagnitude sf k ≤ 14336 := by
  have hmost : rowScale sf * codeMultiplier k ≤ 2048 * 28 :=
    Nat.mul_le_mul (rowScale_bounds hsf).2 (codeMultiplier_bounds hk).2
  unfold lawMagnitude
  omega

theorem lawMagnitude_pred_lt {sf k : Nat} (hpos : 0 < sf) (hsf : sf < 16) (hk : k < 4) :
    lawMagnitude (sf - 1) k < lawMagnitude sf k := by
  have hrise : rowScale (sf - 1) * codeMultiplier k + 2 * codeMultiplier k ≤ rowScale sf * codeMultiplier k := by
    rw [← Nat.add_mul]
    exact Nat.mul_le_mul_right _ (rowScale_add_two_le hpos hsf)
  have hleast : 3 ≤ codeMultiplier k := (codeMultiplier_bounds hk).1
  unfold lawMagnitude
  omega

/-- Settles O8: the lookup by index, and the default table's largest entry by its law. -/
theorem dequantAnswersTheTableEntry : Obligations.DequantAnswersTheTableEntry := by
  refine ⟨fun sf q s => ⟨_, exec_dequant sf q s, toList_getElem?_dequantize _ sf q, rfl⟩, ?_⟩
  calc (dequantize Config.defaultTab 15#4 6#3).toInt
    _ = refResidual Config.defaultTab 15 (2 * 3) := dequantize_toInt ..
    _ = lawMagnitude 15 3 := refResidual_defaultTab_even (by decide) (by decide)
    _ = 14336 := by decide

/-- Settles O9: the table is its law's, and the law is positive, bounded and rising. -/
theorem defaultTableFollowsItsLaw : Obligations.DefaultTableFollowsItsLaw := by
  intro sf k hsf hk
  have heven := refResidual_defaultTab_even hsf hk
  refine ⟨heven, ?_, ?_, ?_, fun hpos => ?_⟩
  · rw [refResidual_defaultTab_odd hsf hk, heven]
  · rw [heven]
    exact_mod_cast lawMagnitude_pos hsf hk
  · rw [heven]
    exact_mod_cast lawMagnitude_le hsf hk
  · rw [heven, refResidual_defaultTab_even (by omega) hk]
    exact_mod_cast lawMagnitude_pred_lt hpos hsf hk

end Sys2Proof.Machine

/-! SUPPORT. The predictor's arithmetic on integers (R110 to R112): what each operation does to a channel's registers, in
the terms of DecodeSlice (R134). -/

namespace Sys2Proof.Machine

open Sys2Proof

/-! Wrapping and shifting (R7). -/

theorem sext16_toInt (v : Sample) : (sext16 v).toInt = v.toInt :=
  BitVec.toInt_signExtend_of_le (by decide)

theorem sshiftRight_toInt (v : Word) (n : Nat) : (v.sshiftRight n).toInt = asrInt v.toInt n := by
  rw [BitVec.toInt_sshiftRight, Int.shiftRight_eq_div_pow, asrInt]
  norm_cast

theorem deltaOf_toInt (r : Sample) : (deltaOf r).toInt = asrInt r.toInt 4 := by
  rw [deltaOf, sshiftRight_toInt, sext16_toInt]

theorem wrap32_of_natAbs_lt {v : Int} (h : v.natAbs < 2 ^ 31) : wrap32 v = v :=
  Int.bmod_eq_of_le (by omega) (by omega)

/-! LMS_PREDICT (R111). -/

/-- Wrapping at every product and sum, or once at the end, gives one value. -/
theorem wrap32_stepwise (a b c d : Int) :
    wrap32 (wrap32 (wrap32 (wrap32 (0 + wrap32 a) + wrap32 b) + wrap32 c) + wrap32 d) = wrap32 (a + b + c + d) := by
  simp only [wrap32, Int.zero_add, Int.bmod_bmod, Int.add_bmod_bmod, Int.bmod_add_bmod]

theorem dotProduct_toInt (l : Lms) : (dotProduct l).toInt =
    wrap32 (l.w.t0.toInt * l.h.t0.toInt + l.w.t1.toInt * l.h.t1.toInt + l.w.t2.toInt * l.h.t2.toInt +
      l.w.t3.toInt * l.h.t3.toInt) := by
  simp only [dotProduct, BitVec.toInt_add, BitVec.toInt_mul, wrap32, Int.add_bmod_bmod, Int.bmod_add_bmod]

theorem predict_toInt (l : Lms) : (predict l).toInt = refPredict (histInts l) (weightInts l) := by
  rw [predict, sshiftRight_toInt, dotProduct_toInt]
  rfl

/-- A prediction is a 32-bit value shifted by 13. -/
theorem predict_range (l : Lms) : -262144 ≤ (predict l).toInt ∧ (predict l).toInt ≤ 262143 := by
  have hlow := BitVec.le_toInt (dotProduct l)
  have hhigh := BitVec.toInt_lt (x := dotProduct l)
  rw [predict, sshiftRight_toInt, asrInt]
  omega

/-! LMS_UPDATE (R112). -/

theorem adaptTap_toInt (h w d : Word) : (adaptTap h w d).toInt = refAdapt h.toInt w.toInt d.toInt := by
  rw [adaptTap, refAdapt, apply_ite BitVec.toInt, BitVec.toInt_sub, BitVec.toInt_add]
  split <;> rfl

/-- DecodeSlice's weight, with the direction of the move outside the sum. -/
theorem refAdapt_eq (h w d : Int) : refAdapt h w d = if h < 0 then wrap32 (w - d) else wrap32 (w + d) := by
  rw [refAdapt]
  split <;> rfl

theorem weightInts_update (l : Lms) (x r : Sample) :
    weightInts (update l x r) = refWeights (histInts l) (weightInts l) r.toInt := by
  simp only [weightInts, update, adaptTap_toInt, deltaOf_toInt]
  rfl

theorem histInts_update (l : Lms) (x r : Sample) :
    histInts (update l x r) = ⟨(histInts l).x1, (histInts l).x2, (histInts l).x3, x.toInt⟩ :=
  congrArg (Ints4.mk _ _ _) (sext16_toInt x)

/-! LMS_LOAD (R110). -/

/-- Four int16 fields as integers. -/
def quadInts (q : Quad) : Ints4 := ⟨q.i0.toInt, q.i1.toInt, q.i2.toInt, q.i3.toInt⟩

theorem histInts_loadRecord (rec : LmsRecord) : histInts (loadRecord rec) = quadInts rec.history := by
  simp only [histInts, loadRecord, sextQuad, sext16_toInt, quadInts]

theorem weightInts_loadRecord (rec : LmsRecord) : weightInts (loadRecord rec) = quadInts rec.weight := by
  simp only [weightInts, loadRecord, sextQuad, sext16_toInt, quadInts]

/-- An int16 field has magnitude at most 32768. -/
theorem quadInts_within (q : Quad) : (quadInts q).within 32768 := by
  have hfield : ∀ v : Sample, v.toInt.natAbs ≤ 32768 := fun v => by
    have hlow := BitVec.le_toInt v
    have hhigh := BitVec.toInt_lt (x := v)
    omega
  exact ⟨hfield _, hfield _, hfield _, hfield _⟩

/-- The two bytes of a predictor state record that stand before its last k are a field of its word (R83). -/
theorem refRead16_field (m : Memory) (a i k : Nat) (h : i + 2 + k = 16) :
    ((BitVec.ofNat 128 (refRead m a 16)).extractLsb' (8 * k) 16).toInt = refRead16 m (a + i) := by
  have hlt : refRead m a 16 < 2 ^ 128 := refRead_lt m a 16
  rw [refRead16, ← refRead_middle m a i 2 k, h]
  congr 1
  apply BitVec.eq_of_toNat_eq
  rw [BitVec.extractLsb'_toNat, BitVec.toNat_ofNat, BitVec.toNat_ofNat, Nat.mod_eq_of_lt hlt,
    Nat.shiftRight_eq_div_pow, Nat.pow_mul]
  exact (Nat.mod_mod _ (2 ^ 16)).symm

/-- The registers a record in memory loads are the big-endian int16 values at its address (R83, R110). -/
theorem quadInts_lmsRecordOf (m : Memory) (a : Nat) :
    (quadInts (lmsRecordOf (BitVec.ofNat 128 (refRead m a 16))).history,
      quadInts (lmsRecordOf (BitVec.ofNat 128 (refRead m a 16))).weight) = refLoad m a := by
  have hfield := refRead16_field m a
  exact Prod.ext
    (Eq.mpr (Ints4.mk.injEq ..) ⟨hfield 0 14 rfl, hfield 2 12 rfl, hfield 4 10 rfl, hfield 6 8 rfl⟩)
    (Eq.mpr (Ints4.mk.injEq ..) ⟨hfield 8 6 rfl, hfield 10 4 rfl, hfield 12 2 rfl, hfield 14 0 rfl⟩)

end Sys2Proof.Machine

/-! The predictor's operations (O10 to O13): each reads and writes channel CH_IDX alone. -/

namespace Sys2Proof.Machine

open Sys2Proof

/-! What each operation answers on a channel that exists. -/

theorem exec_lmsLoad_eq (rec : LmsRecord) {s : State} {l : Lms} (hl : channel s s.regs.chIdx.toNat = some l) :
    exec (.lmsLoad rec) s = .next (setChannel s s.regs.chIdx.toNat (loadRecord rec)) := by
  simp only [exec, execLmsLoad, hl]

theorem exec_lmsPredict_eq {s : State} {l : Lms} (hl : channel s s.regs.chIdx.toNat = some l) :
    exec .lmsPredict s = .next (s.setDp { s.dp with p := predict l }) := by
  simp only [exec, execLmsPredict, hl]

theorem exec_lmsUpdate_eq {s : State} {l : Lms} (hl : channel s s.regs.chIdx.toNat = some l) :
    exec .lmsUpdate s = .next (setChannel s s.regs.chIdx.toNat (update l s.dp.s s.dp.r)) := by
  simp only [exec, execLmsUpdate, hl]

theorem channel_setChannel_same {s : State} {c : Nat} (hc : c < 8) (l : Lms) :
    channel (setChannel s c l) c = some l := by
  rw [channel_setChannel _ _ _ _ hc, if_pos rfl]

theorem channel_setChannel_other {s : State} {c d : Nat} (hc : c < 8) (hd : d ≠ c) (l : Lms) :
    channel (setChannel s c l) d = channel s d := by
  rw [channel_setChannel _ _ _ _ hc, if_neg hd]

/-- Settles O10: the channel's new registers are the record's fields, and a record in memory holds the values there. -/
theorem lmsLoadSignExtendsTheRecord : Obligations.LmsLoadSignExtendsTheRecord := by
  constructor
  · intro rec s h8
    obtain ⟨l, hl⟩ := channel_isSome s _ h8
    exact ⟨_, loadRecord rec, exec_lmsLoad_eq rec hl, channel_setChannel_same h8 _, histInts_loadRecord rec,
      weightInts_loadRecord rec, fun d hd => channel_setChannel_other h8 hd _, rfl⟩
  · intro s h8
    obtain ⟨l, hl⟩ := channel_isSome s _ h8
    refine ⟨_, _, _, decode_of_length .lmsRecord _ (memBytes_length _ _ _), exec_lmsLoad_eq _ hl,
      channel_setChannel_same h8 _, ?_⟩
    rw [histInts_loadRecord, weightInts_loadRecord]
    exact quadInts_lmsRecordOf s.mem _

/-- Settles O11: the value is DecodeSlice's prediction, of the sum wrapped once. -/
theorem lmsPredictShiftsTheWrappedSum : Obligations.LmsPredictShiftsTheWrappedSum := by
  intro s l hl
  refine ⟨_, exec_lmsPredict_eq hl, ⟨?_, predict_toInt l⟩, (predict_range l).1, (predict_range l).2, rfl⟩
  rw [wrap32_stepwise]
  exact predict_toInt l

/-- Settles O12: the new weights and history are DecodeSlice's. -/
theorem lmsUpdateAdaptsThenShifts : Obligations.LmsUpdateAdaptsThenShifts := by
  intro s l hl
  have h8 := lt_of_channel hl
  refine ⟨_, _, exec_lmsUpdate_eq hl, channel_setChannel_same h8 _, ⟨?_, histInts_update l _ _⟩,
    fun d hd => channel_setChannel_other h8 hd _, rfl⟩
  rw [weightInts_update, refWeights]
  simp only [refAdapt_eq]

/-- An operation of the predictor that completes found its channel, and SAMPLE_STEP its slot (log 20). -/
theorem predictor_next {i : Instr} {s t : State} (hi : i = .lmsPredict ∨ i = .lmsUpdate ∨ i = .sampleStep)
    (h : exec i s = .next t) : s.regs.chIdx.toNat < 8 ∧ (i = .sampleStep → s.regs.j.toNat < 20) := by
  obtain ⟨hchan, hslot⟩ := missingChannelOrSlotStops
  have hj : i = .sampleStep → s.regs.j.toNat < 20 := by
    rintro rfl
    by_contra hj
    rw [hslot s (by omega)] at h
    cases h
  refine ⟨?_, hj⟩
  by_contra h8
  obtain ⟨_, hpredict, hupdate, hstep⟩ := hchan s ⟨⟨0, 0, 0, 0⟩, ⟨0, 0, 0, 0⟩⟩ (by omega)
  rcases hi with rfl | rfl | rfl
  · rw [hpredict] at h; cases h
  · rw [hupdate] at h; cases h
  · rw [hstep (hj rfl)] at h; cases h

/-- SAMPLE_STEP's values come from the channel, the sequencer registers and the table (R133). -/
theorem slotValues_congr {s s' : State} (hregs : s'.regs = s.regs) (hparams : s'.params = s.params) (l : Lms) :
    slotValues l s' = slotValues l s := by
  rw [slotValues, slotValues, hregs, hparams]

/-- Settles O13: both states answer the same function of the one channel, written to channel CH_IDX alone. -/
theorem predictorChannelsAreIndependent : Obligations.PredictorChannelsAreIndependent := by
  intro i s s' t t' hi hregs hdp hparams hchan ht ht'
  obtain ⟨h8, hj⟩ := predictor_next hi ht
  obtain ⟨l, hl⟩ := channel_isSome s _ h8
  have hl' : channel s' s'.regs.chIdx.toNat = some l := by rw [hregs, hchan, hl]
  rcases hi with rfl | rfl | rfl
  · rw [exec_lmsPredict_eq hl] at ht
    rw [exec_lmsPredict_eq hl', hdp] at ht'
    cases ht
    cases ht'
    exact ⟨rfl, hchan, fun _ _ => rfl⟩
  · rw [exec_lmsUpdate_eq hl] at ht
    rw [exec_lmsUpdate_eq hl', hdp, hregs] at ht'
    cases ht
    cases ht'
    exact ⟨hdp, by rw [channel_setChannel_same h8, channel_setChannel_same h8],
      fun d hd => channel_setChannel_other h8 hd _⟩
  · have hstep := (execSampleStep_eq (hj rfl) hl).symm.trans ht
    have hstep' := (execSampleStep_eq (hregs ▸ hj rfl) hl').symm.trans ht'
    cases hstep
    cases hstep'
    have hvalues := slotValues_congr hregs hparams l
    refine ⟨hvalues, ?_, fun d hd => channel_setChannel_other h8 hd _⟩
    rw [channel_afterSlot, channel_afterSlot, hregs, hvalues, channel_setChannel_same h8, channel_setChannel_same h8]

end Sys2Proof.Machine

/-! SUPPORT. R113's bound on the weights with the default table: a slot moves a weight by at most 896, so no update wraps
(O15) and every step keeps the bound (O14). -/

namespace Sys2Proof.Machine

open Sys2Proof

/-! One update. -/

/-- R102: an entry of the default table has magnitude at most 14336. -/
theorem dequantize_defaultTab_bounds (sf : BitVec 4) (q : BitVec 3) :
    -14336 ≤ (dequantize Config.defaultTab sf q).toInt ∧ (dequantize Config.defaultTab sf q).toInt ≤ 14336 := by
  obtain ⟨k, hq⟩ := Nat.even_or_odd' q.toNat
  have hk : k < 4 := by omega
  have hle := lawMagnitude_le sf.isLt hk
  rw [dequantize_toInt]
  rcases hq with hq | hq
  · rw [hq, refResidual_defaultTab_even sf.isLt hk]
    omega
  · rw [hq, refResidual_defaultTab_odd sf.isLt hk]
    omega

/-- A slot's residual with the default table moves a weight by at most 896. -/
theorem slotDelta_natAbs_le {s : State} (htab : s.params.dequantTab = Config.defaultTab) (l : Lms) :
    (asrInt (slotValues l s).r.toInt 4).natAbs ≤ 896 := by
  have hres := dequantize_defaultTab_bounds s.regs.sf (residualCode s.regs.sliceWord s.regs.j.toNat)
  rw [← htab] at hres
  change -14336 ≤ (slotValues l s).r.toInt ∧ (slotValues l s).r.toInt ≤ 14336 at hres
  rw [asrInt]
  omega

/-- A weight too small to wrap moves by exactly d (R113). -/
theorem refAdapt_exact {h w d : Int} (hsmall : w.natAbs + d.natAbs < 2 ^ 31) :
    refAdapt h w d = if h < 0 then w - d else w + d := by
  rw [refAdapt_eq, wrap32_of_natAbs_lt (by omega), wrap32_of_natAbs_lt (by omega)]

/-- Weights too small to wrap grow by at most the step. -/
theorem refWeights_within {h w : Ints4} {r : Int} {b e : Nat} (hw : w.within b) (hstep : (asrInt r 4).natAbs ≤ e)
    (hsmall : b + e < 2 ^ 31) : (refWeights h w r).within (b + e) := by
  have htap : ∀ x y : Int, y.natAbs ≤ b → (refAdapt x y (asrInt r 4)).natAbs ≤ b + e := fun x y hy => by
    rw [refAdapt_exact (by omega)]
    split <;> omega
  obtain ⟨h0, h1, h2, h3⟩ := hw
  exact ⟨htap _ _ h0, htap _ _ h1, htap _ _ h2, htap _ _ h3⟩

theorem Ints4.within.mono {x : Ints4} {b e : Nat} (h : x.within b) (hbe : b ≤ e) : x.within e := by
  obtain ⟨h0, h1, h2, h3⟩ := h
  exact ⟨h0.trans hbe, h1.trans hbe, h2.trans hbe, h3.trans hbe⟩

/-- R113's bound grows with the count of updates. -/
theorem within_of_updates_le {x : Ints4} {k n : Nat} (h : x.within (32768 + 896 * k)) (hk : k ≤ n) :
    x.within (32768 + 896 * n) := h.mono (by omega)

/-! The count of updates (R113's k). -/

theorem weightUpdates_sliceLoad {s : State} (hs : s.seq = .sliceLoad) (c : Nat) :
    weightUpdates s c = 20 * (s.regs.slIdx.toNat + if c < s.regs.chIdx.toNat then 1 else 0) := by
  simp only [weightUpdates, hs]

theorem weightUpdates_sample {s : State} (hs : s.seq = .sample) (c : Nat) :
    weightUpdates s c = 20 * (s.regs.slIdx.toNat + if c < s.regs.chIdx.toNat then 1 else 0) +
      if c = s.regs.chIdx.toNat then s.regs.j.toNat else 0 := by
  simp only [weightUpdates, hs]

/-- However far the registers count, the bound after one more update is far below 2^31 (R113). -/
theorem weightBound_small (s : State) (c : Nat) : 32768 + 896 * weightUpdates s c + 896 < 2 ^ 31 := by
  have hsl := s.regs.slIdx.isLt
  have hj := s.regs.j.isLt
  cases hs : s.seq with
  | sliceLoad =>
    rw [weightUpdates_sliceLoad hs]
    split <;> omega
  | sample =>
    rw [weightUpdates_sample hs]
    split <;> split <;> omega
  | idle | streamHdr | frameHdr | lmsLoad | frameEnd | finish => simp [weightUpdates, hs]

/-- In SAMPLE slot J of channel CH_IDX is one more update (R216). -/
theorem weightUpdates_afterSlot {s : State} (hs : s.seq = .sample) (hj : s.regs.j.toNat < 20) (l : Lms) (c : Nat) :
    weightUpdates (afterSlot l s) c = weightUpdates s c + if c = s.regs.chIdx.toNat then 1 else 0 := by
  have hjNext : (s.regs.j + 1).toNat = s.regs.j.toNat + 1 := by rw [BitVec.toNat_add]; simp; omega
  rw [weightUpdates_sample hs, weightUpdates_sample (s := afterSlot l s) hs, afterSlot_regs]
  by_cases hc : c = s.regs.chIdx.toNat
  · simp only [if_pos hc, hjNext, Nat.add_assoc]
  · simp only [if_neg hc]

/-! State by state. -/

/-- Where no channel is live the bound says nothing. -/
theorem weightInv_of_not_live {s : State} {q : Seq} (hs : s.seq = q)
    (hq : q = .idle ∨ q = .streamHdr ∨ q = .frameHdr ∨ q = .frameEnd ∨ q = .finish) : WeightInv s :=
  fun c _ hlive => absurd hlive (not_liveChannel hs hq c)

/-- The bound reads SEQ, the sequencer registers and the register file alone. -/
theorem WeightInv.congr {s t : State} (h : WeightInv s) (hseq : t.seq = s.seq) (hregs : t.regs = s.regs)
    (hlms : t.lms = s.lms) : WeightInv t := by
  intro c l hlive hl
  have hcount : weightUpdates t c = weightUpdates s c := by rw [weightUpdates, hseq, hregs]; rfl
  rw [hcount]
  refine h c l ?_ ?_
  · rwa [liveChannel, hseq, hregs] at hlive
  · rwa [channel, hlms] at hl

theorem weightInv_raise (k : ErrKind) (n : Nat) (s : State) : WeightInv (raiseFault k n s) :=
  weightInv_of_not_live (q := .idle) rfl (by simp)

theorem weightInv_streamHdr {s t : State} (hs : s.seq = .streamHdr) (ht : stepStreamHdr s = .next t) : WeightInv t := by
  rw [stepStreamHdr_eq s hs] at ht
  cases ht
  split
  · exact weightInv_raise _ _ _
  split
  · exact weightInv_raise _ _ _
  split
  · exact weightInv_raise _ _ _
  split
  · exact weightInv_raise _ _ _
  · exact weightInv_of_not_live (q := .frameHdr) rfl (by simp)

/-- An accepted frame has loaded no channel yet. -/
theorem weightInv_frameHdr {s t : State} (hs : s.seq = .frameHdr) (ht : stepFrameHdr s = .next t) : WeightInv t := by
  rw [stepFrameHdr_eq s hs] at ht
  split at ht
  · cases ht; exact weightInv_of_not_live (q := .finish) rfl (by simp)
  split at ht
  · cases ht; exact weightInv_raise _ _ _
  split at ht
  · cases ht
  split at ht
  · cases ht; exact weightInv_raise _ _ _
  · cases ht
    exact fun c _ hlive => absurd ((liveChannel_loading rfl c).mp hlive) (by simp [frameRegs])

/-- With the record of channel CH_IDX loaded, every channel up to it has int16 weights or the bound of before (R110). -/
theorem weights_loaded {s : State} (h : WeightInv s) (hs : s.seq = .lmsLoad) (h8 : s.regs.chIdx.toNat < 8)
    (rec : LmsRecord) {c : Nat} {l : Lms} (hc : c < s.regs.chIdx.toNat + 1)
    (hl : channel (setChannel s s.regs.chIdx.toNat (loadRecord rec)) c = some l) : (weightInts l).within 32768 := by
  rw [channel_setChannel _ _ _ _ h8] at hl
  split at hl
  · cases hl
    rw [weightInts_loadRecord]
    exact quadInts_within rec.weight
  · have hzero : weightUpdates s c = 0 := by simp only [weightUpdates, hs]
    have hbound := h c l ((liveChannel_loading hs c).mpr (by omega)) hl
    rwa [hzero] at hbound

theorem weightInv_lmsLoad {s t : State} (hinv : Inv s) (h : WeightInv s) (hs : s.seq = .lmsLoad)
    (ht : stepLmsLoad s = .next t) : WeightInv t := by
  have hpos := hinv.position
  simp only [PositionInv, hs] at hpos
  have hnext := chIdx_succ hinv (by simp [hs, Seq.inFrame]) hpos
  rw [stepLmsLoad_eq] at ht
  split at ht
  · cases ht
  split at ht
  · cases ht
  cases ht
  next h8 =>
  intro c l hlive hl
  have hloaded := fun hc => weights_loaded (c := c) (l := l) h hs (by omega) (lmsRecordAt s) hc
  refine Ints4.within.mono ?_ (Nat.le_add_right 32768 _)
  by_cases hlast : s.regs.chIdx + 1 = s.regs.fCh
  · rw [afterLmsLoad_last (by simpa only [setChannel_regs] using hlast)] at hlive hl
    rw [liveChannel_slices (q := .sliceLoad) rfl (by simp), State.setSeq_regs, State.setRegs_regs, setChannel_regs,
      ← hlast, hnext] at hlive
    exact hloaded hlive hl
  · rw [afterLmsLoad_more (by simpa only [setChannel_regs] using hlast)] at hlive hl
    rw [liveChannel_loading (by simpa using hs), State.setRegs_regs, setChannel_regs, hnext] at hlive
    exact hloaded hlive hl

/-- SLICE_LOAD begins at slot 0, which counts no update yet. -/
theorem weightInv_sliceLoad {s t : State} (h : WeightInv s) (hs : s.seq = .sliceLoad) (ht : stepSliceLoad s = .next t) :
    WeightInv t := by
  rw [stepSliceLoad_eq] at ht
  split at ht
  · cases ht
  cases ht
  intro c l hlive hl
  rw [liveChannel_slices (q := .sample) rfl (by simp)] at hlive
  have hbound := h c l ((liveChannel_slices hs (by simp) c).mpr hlive) hl
  refine within_of_updates_le hbound ?_
  rw [weightUpdates_sliceLoad hs, weightUpdates_sample rfl]
  exact Nat.le_add_right _ _

/-- SAMPLE_STEP moves channel CH_IDX's weights by at most 896 and counts one update (R112, R133). -/
theorem weightInv_afterSlot {s : State} {l : Lms} (h : WeightInv s) (htab : s.params.dequantTab = Config.defaultTab)
    (hs : s.seq = .sample) (hj : s.regs.j.toNat < 20)
    (hl : channel s s.regs.chIdx.toNat = some l) : WeightInv (afterSlot l s) := by
  intro c m hlive hm
  rw [liveChannel_slices (s := afterSlot l s) hs (by simp)] at hlive
  have hlive' := (liveChannel_slices hs (by simp) c).mpr hlive
  rw [weightUpdates_afterSlot hs hj]
  rw [channel_afterSlot, channel_setChannel _ _ _ _ (lt_of_channel hl)] at hm
  split at hm
  · next hc =>
    subst hc
    cases hm
    rw [weightInts_update, if_pos rfl, Nat.mul_add, ← Nat.add_assoc]
    exact refWeights_within (h _ l hlive' hl) (slotDelta_natAbs_le htab l) (weightBound_small s _)
  · next hc =>
    rw [if_neg hc]
    exact h c m hlive' hm

/-- Moving on from a slice counts the same updates for every channel of the frame: channel CH_IDX's twenty slots become
one slice (R216). -/
theorem weightInv_afterSample {s : State} (h : WeightInv s) (hs : s.seq = .sample)
    (hch : (s.regs.chIdx + 1).toNat = s.regs.chIdx.toNat + 1)
    (hsl : (s.regs.slIdx + 1).toNat = s.regs.slIdx.toNat + 1) : WeightInv (afterSample s) := by
  by_cases h20 : s.regs.j = 20#5
  · have hj : s.regs.j.toNat = 20 := by rw [h20]; rfl
    by_cases hlast : s.regs.chIdx + 1 = s.regs.fCh
    · rw [afterSample_nextSlice h20 hlast]
      split
      · exact weightInv_of_not_live (q := .frameEnd) rfl (by simp)
      intro c l hlive hl
      rw [liveChannel_slices (q := .sliceLoad) rfl (by simp)] at hlive
      change c < s.regs.fCh.toNat at hlive
      have hbound := h c l ((liveChannel_slices hs (by simp) c).mpr hlive) hl
      rw [← hlast, hch] at hlive
      refine within_of_updates_le hbound ?_
      rw [weightUpdates_sample hs, weightUpdates_sliceLoad rfl]
      simp only [State.setSeq_regs, State.setRegs_regs, hsl, hj]
      grind
    · rw [afterSample_nextChannel h20 hlast]
      split
      · exact weightInv_of_not_live (q := .frameEnd) rfl (by simp)
      intro c l hlive hl
      rw [liveChannel_slices (q := .sliceLoad) rfl (by simp)] at hlive
      have hbound := h c l ((liveChannel_slices hs (by simp) c).mpr hlive) hl
      refine within_of_updates_le hbound ?_
      rw [weightUpdates_sample hs, weightUpdates_sliceLoad rfl]
      simp only [State.setSeq_regs, State.setRegs_regs, hch, hj]
      grind
  · rwa [afterSample_stay h20]

theorem weightInv_sample {s t : State} (hinv : Inv s) (htab : s.params.dequantTab = Config.defaultTab)
    (h : WeightInv s) (hs : s.seq = .sample) (ht : stepSample s = .next t) : WeightInv t := by
  have hframe : s.seq.inFrame = true := by simp [hs, Seq.inFrame]
  obtain ⟨hch, hsl, hj⟩ := sample_position hinv hs
  obtain ⟨l, m, hl, rfl⟩ := stepSample_next ht
  have hchNext := chIdx_succ hinv hframe hch
  have hslNext := slIdx_succ hinv hframe hsl
  have hslot : WeightInv ((afterSlot l s).setMem m) := (weightInv_afterSlot h htab hs hj hl).congr rfl rfl rfl
  exact weightInv_afterSample hslot hs hchNext hslNext

/-- From the invariant every engine step keeps the bound. -/
theorem weightInv_engine {s t : State} (hinv : Inv s) (htab : s.params.dequantTab = Config.defaultTab)
    (h : WeightInv s) (ht : engineStep s = .next t) : WeightInv t := by
  unfold engineStep at ht
  cases hs : s.seq <;> simp only [hs] at ht
  case idle => cases ht; exact h
  case streamHdr => exact weightInv_streamHdr hs ht
  case frameHdr => exact weightInv_frameHdr hs ht
  case lmsLoad => exact weightInv_lmsLoad hinv h hs ht
  case sliceLoad => exact weightInv_sliceLoad h hs ht
  case sample => exact weightInv_sample hinv htab h hs ht
  case frameEnd => cases ht; exact weightInv_of_not_live (q := .frameHdr) rfl (by simp)
  case finish =>
    rw [stepFinish_eq] at ht
    cases ht
    split
    · exact weightInv_raise _ _ _
    · exact weightInv_of_not_live (q := .idle) rfl (by simp)

/-- A register access keeps the bound: START begins with no channel live, and no other touches the registers it reads. -/
theorem weightInv_busMeaning {i : Instr} {s t : State} (hi : busMeaning i) (h : WeightInv s) (ht : exec i s = .next t) :
    WeightInv t := by
  rcases hi with ⟨v, hi⟩ | ⟨f, hi⟩ | hi | ⟨g, hi⟩ <;> rw [hi] at ht <;> cases ht
  · rcases writeCtrl_cases v s with ⟨_, _, e⟩ | ⟨_, e⟩ <;> rw [e]
    · exact weightInv_of_not_live (q := .streamHdr) rfl (by simp)
    · exact h
  · rcases writeArgs_cases (f s.args) s with ⟨_, e⟩ | ⟨_, e⟩ <;> rw [e]
    · exact h.congr rfl rfl rfl
    · exact h
  · exact h
  · exact h.congr rfl rfl rfl

theorem weightInv_takeTurn {turn : Turn} {s t : State} (hinv : Inv s) (htab : s.params.dequantTab = Config.defaultTab)
    (h : WeightInv s) (ht : takeTurn turn s = .next t) : WeightInv t := by
  cases turn with
  | engine => exact weightInv_engine hinv htab h ht
  | bus a =>
    obtain ⟨i, hi, he⟩ := busStep_next ht
    exact weightInv_busMeaning (busMeaning_of_decodeBus hi) h he
  | hostWrite a v =>
    obtain ⟨_, rfl⟩ := hostWriteStep_next ht
    exact h.congr rfl rfl rfl
  | hostRead a =>
    obtain ⟨k, b, rfl⟩ := hostReadStep_next ht
    exact h.congr rfl rfl rfl
  | hardReset => cases ht; exact weightInv_of_not_live (q := .idle) rfl (by simp)

/-- Settles O14: a step is one turn; a slot moves a weight by at most 896, and no other turn moves a live weight. -/
theorem weightBoundIsKept : Obligations.WeightBoundIsKept := by
  intro s t hinv htab h ht
  rw [step_eq_takeTurn hinv.noProbe] at ht
  have hturn : WeightInv (s.setSchedule s.schedule.tail) := h.congr rfl rfl rfl
  exact weightInv_takeTurn (inv_setSchedule hinv s.schedule.tail) htab hturn ht

/-- Settles O15: the updated weights are DecodeSlice's, which do not wrap under the bound. -/
theorem weightUpdatesNeverWrap : Obligations.WeightUpdatesNeverWrap := by
  intro s t l m hinv htab h hs hl ht hm
  obtain ⟨hch, _, hj⟩ := sample_position hinv hs
  have hnext := (execSampleStep_eq hj hl).symm.trans ht
  cases hnext
  rw [channel_afterSlot, channel_setChannel_same (lt_of_channel hl)] at hm
  cases hm
  have hstep := slotDelta_natAbs_le htab l
  have hsmall := weightBound_small s s.regs.chIdx.toNat
  have hexact : ∀ x y : Int, y.natAbs ≤ 32768 + 896 * weightUpdates s s.regs.chIdx.toNat →
      refAdapt x y (asrInt (slotValues l s).r.toInt 4) =
        if x < 0 then y - asrInt (slotValues l s).r.toInt 4 else y + asrInt (slotValues l s).r.toInt 4 :=
    fun x y hy => refAdapt_exact (by omega)
  obtain ⟨h0, h1, h2, h3⟩ := h _ l ((liveChannel_slices hs (by simp) _).mpr hch) hl
  rw [weightInts_update]
  simp only [refWeights, hexact _ _ h0, hexact _ _ h1, hexact _ _ h2, hexact _ _ h3, afterSlot_dp]

end Sys2Proof.Machine

/-! SUPPORT. Slice decode (O4, O16 to O19): the fields of a slice word on integers (R130, R131), one SAMPLE_STEP (R133), and
a run of them beside DecodeSlice (R134). -/

namespace Sys2Proof.Machine

open Sys2Proof

/-! The fields of a slice word (R84, R130, R131). -/

theorem scaleFactor_toNat (w : BitVec 64) : (scaleFactor w).toNat = w.toNat / 2 ^ 60 % 16 := by
  rw [scaleFactor, BitVec.extractLsb'_toNat, Nat.shiftRight_eq_div_pow]

theorem residualCode_toNat (w : BitVec 64) (j : Nat) : (residualCode w j).toNat = w.toNat / 2 ^ (57 - 3 * j) % 8 := by
  rw [residualCode, BitVec.extractLsb'_toNat, Nat.shiftRight_eq_div_pow]

/-- Shifting the word left by three bits a slot brings slot j's code to the place of slot 0's (R131). -/
theorem residualCode_eq_shiftLeft (w : BitVec 64) {j : Nat} (hj : j < 20) :
    residualCode w j = (w <<< (3 * j)).extractLsb' 57 3 := by
  refine BitVec.eq_of_getLsbD_eq fun i hi => ?_
  have hplace : 57 + i - 3 * j = 57 - 3 * j + i := by omega
  have hwidth : 57 + i < 64 := by omega
  have hshift : ¬57 + i < 3 * j := by omega
  simp only [residualCode, BitVec.getLsbD_extractLsb', BitVec.getLsbD_shiftLeft, hplace, hwidth, hshift, decide_true,
    decide_false, Bool.not_false, Bool.true_and]

/-- Settles O4: a field of a word is a quotient and a remainder; the example's codes by evaluation. -/
theorem residualCodeOfSlot : Obligations.ResidualCodeOfSlot :=
  ⟨fun w j hj => ⟨residualCode_toNat w j, residualCode_eq_shiftLeft w hj⟩, by decide, by decide⟩

/-! SLICE_LOAD (R130). -/

/-- The state after SLICE_LOAD of a word. -/
def afterLoad (w : BitVec 64) (s : State) : State :=
  s.setRegs { s.regs with sliceWord := w, sf := scaleFactor w, j := 0#5 }

theorem exec_sliceLoad (w : BitVec 64) (s : State) : exec (.sliceLoad w) s = .next (afterLoad w s) := rfl

/-- The slice word the engine reads is the big-endian value at its address (R63, R130). -/
theorem sliceWordAt_toNat (s : State) : (sliceWordAt s).toNat = refRead s.mem (sliceAddrAt s) 8 :=
  (BitVec.toNat_ofNat ..).trans (Nat.mod_eq_of_lt (refRead_lt s.mem (sliceAddrAt s) 8))

/-- Settles O16: the scale factor is the word's top four bits, and eight bytes decode to the word they read as. -/
theorem sliceLoadSetsWordAndScaleFactor : Obligations.SliceLoadSetsWordAndScaleFactor := by
  constructor
  · intro w s
    refine ⟨_, exec_sliceLoad w s, rfl, ?_, rfl, rfl⟩
    have htop : w.toNat / 2 ^ 60 < 16 := by omega
    exact (scaleFactor_toNat w).trans (Nat.mod_eq_of_lt htop)
  · exact fun s => ⟨sliceWordAt s, decode_of_length .sliceWord _ (memBytes_length _ _ _), sliceWordAt_toNat s⟩

/-! One slot (R132, R133). -/

theorem clamp_sample_range (v : Int) : -32768 ≤ clamp v (-32768) 32767 ∧ clamp v (-32768) 32767 ≤ 32767 := by
  unfold clamp
  split_ifs <;> omega

/-- The clamped sum fits a sample (R132). -/
theorem reconstruct_toInt (p : Word) (r : Sample) :
    (reconstruct p r).toInt = clamp (p.toInt + r.toInt) (-32768) 32767 := by
  obtain ⟨hlow, hhigh⟩ := clamp_sample_range (p.toInt + r.toInt)
  rw [reconstruct, clamp16, BitVec.toInt_ofInt]
  exact Int.bmod_eq_of_le (by omega) (by omega)

/-- A slot's residual is the reference's, of the slot's code as an integer. -/
theorem slotValues_r_toInt (l : Lms) (s : State) : (slotValues l s).r.toInt =
    refResidual s.params.dequantTab s.regs.sf.toNat (s.regs.sliceWord.toNat / 2 ^ (57 - 3 * s.regs.j.toNat) % 8) := by
  rw [← residualCode_toNat]
  exact dequantize_toInt _ _ _

/-- A slot's sample is the reference's, of the slot's residual. -/
theorem slotValues_s_toInt (l : Lms) (s : State) : (slotValues l s).s.toInt =
    clamp (refPredict (histInts l) (weightInts l) + (slotValues l s).r.toInt) (-32768) 32767 := by
  rw [← predict_toInt]
  exact reconstruct_toInt _ _

/-- The emitted index SL_IDX·20 + J fits its 16 bits (log 27). -/
theorem slotValues_n_toNat (l : Lms) (s : State) :
    (slotValues l s).n.toNat = s.regs.slIdx.toNat * 20 + s.regs.j.toNat := by
  have hfits : s.regs.slIdx.toNat * 20 + s.regs.j.toNat < 2 ^ 16 := by omega
  exact (BitVec.toNat_ofNat ..).trans (Nat.mod_eq_of_lt hfits)

theorem exec_sampleStep_eq {s : State} {l : Lms} (hj : s.regs.j.toNat < 20)
    (hl : channel s s.regs.chIdx.toNat = some l) : exec .sampleStep s = .next (afterSlot l s) := execSampleStep_eq hj hl

theorem afterSlot_j_toNat (l : Lms) {s : State} (hj : s.regs.j.toNat < 20) :
    (afterSlot l s).regs.j.toNat = s.regs.j.toNat + 1 := by
  rw [afterSlot_regs]
  bv_omega

theorem channel_afterSlot_same {s : State} (h8 : s.regs.chIdx.toNat < 8) (l : Lms) :
    channel (afterSlot l s) s.regs.chIdx.toNat = some (update l (slotValues l s).s (slotValues l s).r) :=
  channel_setChannel_same h8 _

theorem channel_afterSlot_other {s : State} (h8 : s.regs.chIdx.toNat < 8) (l : Lms) {d : Nat}
    (hd : d ≠ s.regs.chIdx.toNat) : channel (afterSlot l s) d = channel s d :=
  channel_setChannel_other h8 hd _

/-- Settles O17: slot J's values are the reference's, and the predictor is updated with the unclamped residual. -/
theorem sampleStepReconstructsTheSlot : Obligations.SampleStepReconstructsTheSlot := by
  intro s l hj hl
  have h8 := lt_of_channel hl
  have hr := slotValues_r_toInt l s
  have hs := slotValues_s_toInt l s
  have hw := weightInts_update l (slotValues l s).s (slotValues l s).r
  have hh := histInts_update l (slotValues l s).s (slotValues l s).r
  rw [hs] at hh
  rw [hr] at hs hw hh
  exact ⟨afterSlot l s, _, exec_sampleStep_eq hj hl, channel_afterSlot_same h8 l,
    ⟨residualCode_toNat _ _, hr, predict_toInt l, hs, slotValues_n_toNat l s, rfl, hw, hh⟩,
    afterSlot_j_toNat l hj, fun _ hd => channel_afterSlot_other h8 l hd, rfl⟩

/-! A run of slots (R134). -/

/-- A run of slots is the first slot's sample and the run after it. -/
theorem sampleRun_succ (n : Nat) {s : State} {l : Lms} (hj : s.regs.j.toNat < 20)
    (hl : channel s s.regs.chIdx.toNat = some l) :
    sampleRun (n + 1) s =
      (sampleRun n (afterSlot l s)).map fun r => ((slotValues l s).s.toInt :: r.1, r.2) := by
  rw [sampleRun, exec_sampleStep_eq hj hl]
  rfl

/-- n SAMPLE_STEPs from slot J on are DecodeSlice's slots J to J + n - 1 on channel CH_IDX, whose registers alone they
change: each slot has the reference's residual, sample and registers, and leaves the word, the scale factor and the channel
for the next. -/
theorem sampleRun_eq_refSlots (n : Nat) {s : State} {l : Lms} (hsf : s.regs.sf = scaleFactor s.regs.sliceWord)
    (hj : s.regs.j.toNat + n ≤ 20) (hl : channel s s.regs.chIdx.toNat = some l) :
    ∃ xs t m, sampleRun n s = some (xs, t) ∧ channel t s.regs.chIdx.toNat = some m ∧
      (∀ d, d ≠ s.regs.chIdx.toNat → channel t d = channel s d) ∧
      (xs, histInts m, weightInts m) = refSlots s.params.dequantTab s.regs.sliceWord.toNat
        (List.range' s.regs.j.toNat n) (histInts l) (weightInts l) := by
  induction n generalizing s l with
  | zero => exact ⟨[], s, l, rfl, hl, fun _ _ => rfl, rfl⟩
  | succ n ih =>
    have hslot : s.regs.j.toNat < 20 := by omega
    have h8 := lt_of_channel hl
    have hnext := afterSlot_j_toNat l hslot
    obtain ⟨xs, t, m, hrun, hm, hother, href⟩ :=
      ih (s := afterSlot l s) hsf (by omega) (channel_afterSlot_same h8 l)
    refine ⟨(slotValues l s).s.toInt :: xs, t, m, ?_, hm,
      fun d hd => (hother d hd).trans (channel_afterSlot_other h8 l hd), ?_⟩
    · rw [sampleRun_succ n hslot hl, hrun]
      rfl
    · have hr := slotValues_r_toInt l s
      rw [hsf, scaleFactor_toNat] at hr
      rw [hnext, histInts_update, weightInts_update] at href
      simp only [afterSlot_params, afterSlot_regs] at href
      simp only [List.range'_succ, refSlots, ← hr, ← slotValues_s_toInt, ← href]

/-- SLICE_LOAD and n SAMPLE_STEPs are DecodeSlice's first n slots. -/
theorem sampleRun_afterLoad {n : Nat} {s : State} {l : Lms} (w : BitVec 64) (hn : n ≤ 20)
    (hl : channel s s.regs.chIdx.toNat = some l) :
    ∃ xs t m, sampleRun n (afterLoad w s) = some (xs, t) ∧ channel t s.regs.chIdx.toNat = some m ∧
      (∀ d, d ≠ s.regs.chIdx.toNat → channel t d = channel s d) ∧
      (xs, histInts m, weightInts m) =
        refSlots s.params.dequantTab w.toNat (List.range n) (histInts l) (weightInts l) := by
  rw [List.range_eq_range']
  exact sampleRun_eq_refSlots n (s := afterLoad w s) rfl (by simpa [afterLoad] using hn) hl

/-- Settles O18: all twenty slots of the run from SLICE_LOAD. -/
theorem sliceIsDecodeSlice : Obligations.SliceIsDecodeSlice := by
  intro s l w hl
  obtain ⟨xs, t, m, hrun, hm, _, href⟩ := sampleRun_afterLoad w (le_refl 20) hl
  exact ⟨_, xs, t, m, exec_sliceLoad w s, hrun, hm, href⟩

/-! Later codes reach no earlier sample (R137). -/

/-- DecodeSlice's slots read the scale factor and their own codes of the word, no other bit. -/
theorem refSlots_congr (tab : Vector Sample 128) {w v : BitVec 64} {js : List Nat} (hsf : scaleFactor w = scaleFactor v)
    (hcodes : ∀ j ∈ js, residualCode w j = residualCode v j) (h g : Ints4) :
    refSlots tab w.toNat js h g = refSlots tab v.toNat js h g := by
  induction js generalizing h g with
  | nil => rfl
  | cons j js ih =>
    obtain ⟨hcode, hrest⟩ := List.forall_mem_cons.mp hcodes
    have hcodeNat := congrArg BitVec.toNat hcode
    have hsfNat := congrArg BitVec.toNat hsf
    rw [residualCode_toNat, residualCode_toNat] at hcodeNat
    rw [scaleFactor_toNat, scaleFactor_toNat] at hsfNat
    simp only [refSlots, hsfNat, hcodeNat, ih hrest]

/-- The integers of a channel's registers determine the registers. -/
theorem lms_eq_of_ints {l m : Lms} (hh : histInts l = histInts m) (hw : weightInts l = weightInts m) : l = m := by
  obtain ⟨⟨_, _, _, _⟩, ⟨_, _, _, _⟩⟩ := l
  obtain ⟨⟨_, _, _, _⟩, ⟨_, _, _, _⟩⟩ := m
  simp only [histInts, weightInts, Ints4.mk.injEq, BitVec.toInt_inj] at hh hw
  simp only [hh, hw]

/-- The channels make up the register file (R29). -/
theorem lms_eq_of_channel {s t : State} (h : ∀ c, channel s c = channel t c) : s.lms = t.lms :=
  Vector.ext fun c hc => by simpa [channel, hc] using h c

/-- Settles O19: both runs are DecodeSlice's first k slots, which read the same fields of either word. -/
theorem paddingCodesNeverReachRealSamples : Obligations.PaddingCodesNeverReachRealSamples := by
  intro s l w v k hl hk hsf hcodes
  obtain ⟨xs, t, m, hrun, hm, hother, href⟩ := sampleRun_afterLoad w hk hl
  obtain ⟨ys, u, m', hrun', hm', hother', href'⟩ := sampleRun_afterLoad v hk hl
  have hslots := refSlots_congr s.params.dequantTab hsf (fun j hj => hcodes j (List.mem_range.mp hj))
    (histInts l) (weightInts l)
  obtain ⟨hsamples, hhist, hweights⟩ : xs = ys ∧ histInts m = histInts m' ∧ weightInts m = weightInts m' := by
    simpa using href.trans (hslots.trans href'.symm)
  refine ⟨_, _, xs, t, u, exec_sliceLoad w s, exec_sliceLoad v s, hrun, hsamples ▸ hrun',
    lms_eq_of_channel fun c => ?_⟩
  by_cases hc : c = s.regs.chIdx.toNat
  · rw [hc, hm, hm', lms_eq_of_ints hhist hweights]
  · rw [hother c hc, hother' c hc]

end Sys2Proof.Machine

/-! SUPPORT. Frames (O21 to O25, O27): what FRAME_CHECK and FRAME_HDR answer for a header (R150, R151), which bytes FRAME_OUT
writes (R64, R160, R161), and where FRAME_END leaves CUM and FBASE (R163). -/

namespace Sys2Proof.Machine

open Sys2Proof

/-! FRAME_CHECK (R151). -/

theorem exec_frameCheck_of_some {h : FrameHeader} {s : State} {k : ErrKind} (hk : frameCheckKind h s = some k) :
    exec (.frameCheck h) s = .next (raiseFault k (failureWindow s) s) := by
  simp only [exec, execFrameCheck, hk]

theorem exec_frameCheck_of_none {h : FrameHeader} {s : State} (hk : frameCheckKind h s = none) :
    exec (.frameCheck h) s = .next s := by
  simp only [exec, execFrameCheck, hk]

/-- Settles O21: each clause runs down the chain of checks, `if_neg` for one that passes and `if_pos` for the one that fails;
the example's header, by evaluation, says 33 bytes where the size law gives 32. -/
theorem frameCheckFirstFailureDecides : Obligations.FrameCheckFirstFailureDecides := by
  constructor
  · intro h s c n z bad1 bad2 bad3 bad4 bad5 bad6 ends
    have hfits : bad4 ↔ s.regs.endp.toNat < s.regs.fbase.toNat + h.size.toNat := by
      change (h.size.toNat : Int) > (s.regs.endp.toNat : Int) - (s.regs.fbase.toNat : Int) ↔ _
      omega
    rw [hfits]
    exact ⟨fun h1 => exec_frameCheck_of_some (if_pos h1),
      fun h1 h2 => exec_frameCheck_of_some <| (if_neg h1).trans <| if_pos h2,
      fun h1 h2 h3 => exec_frameCheck_of_some <| (if_neg h1).trans <| (if_neg h2).trans <| if_pos h3,
      fun h1 h2 h3 h4 => exec_frameCheck_of_some <|
        (if_neg h1).trans <| (if_neg h2).trans <| (if_neg h3).trans <| if_pos h4,
      fun h1 h2 h3 h4 h5 => exec_frameCheck_of_some <|
        (if_neg h1).trans <| (if_neg h2).trans <| (if_neg h3).trans <| (if_neg h4).trans <| if_pos h5,
      fun h1 h2 h3 h4 h5 h6 => exec_frameCheck_of_some <|
        (if_neg h1).trans <| (if_neg h2).trans <| (if_neg h3).trans <| (if_neg h4).trans <| (if_neg h5).trans <|
        if_pos h6,
      fun h1 h2 h3 h4 h5 h6 => exec_frameCheck_of_none <|
        (if_neg h1).trans <| (if_neg h2).trans <| (if_neg h3).trans <| (if_neg h4).trans <| (if_neg h5).trans <|
        if_neg h6⟩
  · exact fun s => ⟨⟨1#8, 8000#24, 20#16, 33#16⟩, rfl, exec_frameCheck_of_some rfl⟩

/-- A header with legal fields whose frame fits the input, the stream and MEM fails no check (the converse of
`frameCheck_none`). -/
theorem frameCheckKind_eq_none {h : FrameHeader} {s : State}
    (hc : 1 ≤ h.channels.toNat ∧ h.channels.toNat ≤ 8) (hn : 1 ≤ h.samples.toNat ∧ h.samples.toNat ≤ 5120)
    (hsize : h.size.toNat = frameSizeLaw h.channels.toNat h.samples.toNat)
    (hfits : s.regs.fbase.toNat + h.size.toNat ≤ s.regs.endp.toNat)
    (hsame : s.regs.first = true → h.channels.toNat = s.regs.sCh.toNat ∧ h.rate = s.regs.sRate)
    (hout : s.args.outOffset.toNat +
      2 * h.channels.toNat * min (s.regs.cum.toNat + h.samples.toNat) s.regs.total.toNat ≤ s.params.memSize) :
    frameCheckKind h s = none := by
  have hsequence : ¬(s.regs.first = true ∧ (h.channels.toNat ≠ s.regs.sCh.toNat ∨ h.rate ≠ s.regs.sRate)) :=
    fun ⟨hfirst, hdiffers⟩ => hdiffers.elim (· (hsame hfirst).1) (· (hsame hfirst).2)
  exact (if_neg (by omega)).trans <| (if_neg (by omega)).trans <| (if_neg (not_not.mpr hsize)).trans <|
    (if_neg (by omega)).trans <| (if_neg hsequence).trans <| if_neg (by omega)

/-! FRAME_HDR (R150). -/

theorem headerTruncated_eq_true {s : State} (h : s.regs.endp.toNat < s.regs.fbase.toNat + 8) :
    headerTruncated s = true := decide_eq_true h

theorem headerTruncated_eq_false {s : State} (h : s.regs.fbase.toNat + 8 ≤ s.regs.endp.toNat) :
    headerTruncated s = false := decide_eq_false (Nat.not_lt.mpr h)

theorem exec_frameHdr_truncated (h : FrameHeader) {s : State} (ht : headerTruncated s = true) :
    exec (.frameHdr h) s = .next (raiseFault .truncatedHeader (failureWindow s) s) := if_pos ht

theorem exec_frameHdr_of_some {h : FrameHeader} {s : State} {k : ErrKind} (ht : headerTruncated s = false)
    (hk : frameCheckKind h s = some k) : exec (.frameHdr h) s = .next (raiseFault k (failureWindow s) s) := by
  simp only [exec, execFrameHdr, ht, hk, Bool.false_eq_true, if_false]

theorem exec_frameHdr_of_none {h : FrameHeader} {s : State} (ht : headerTruncated s = false)
    (hk : frameCheckKind h s = none) : exec (.frameHdr h) s = .next (s.setRegs (acceptHeader h s.regs)) := by
  simp only [exec, execFrameHdr, ht, hk, Bool.false_eq_true, if_false]

/-- At most eight channels fit the four bits of F_CH and S_CH. -/
theorem channels_setWidth_toNat {h : FrameHeader} (hc : h.channels.toNat ≤ 8) :
    (h.channels.setWidth 4).toNat = h.channels.toNat := by
  rw [BitVec.toNat_setWidth]
  omega

/-- The slices of at most 5120 samples fit the nine bits of F_SLICES (R158). -/
theorem sliceCount_toNat {n : Nat} (hn : n ≤ 5120) : (BitVec.ofNat 9 (sliceCount n)).toNat = (n + 19) / 20 := by
  rw [BitVec.toNat_ofNat, sliceCount]
  omega

theorem acceptHeader_first_frame {h : FrameHeader} {r : SeqRegs} (hf : r.first = false) :
    (acceptHeader h r).sCh = h.channels.setWidth 4 ∧ (acceptHeader h r).sRate = h.rate := by
  simp [acceptHeader, hf]

theorem acceptHeader_later_frame {h : FrameHeader} {r : SeqRegs} (hf : r.first = true) :
    (acceptHeader h r).sCh = r.sCh ∧ (acceptHeader h r).sRate = r.sRate := by
  simp [acceptHeader, hf]

/-- Settles O22: by what FRAME_CHECK finds; an accepted header's fields fit their registers. -/
theorem frameHdrAcceptsCheckedHeader : Obligations.FrameHdrAcceptsCheckedHeader := by
  refine ⟨fun h s => ⟨fun hshort => exec_frameHdr_truncated h (headerTruncated_eq_true (by omega)), ?_⟩, fun s => ?_⟩
  · intro hroom t ht
    have hwhole : headerTruncated s = false := headerTruncated_eq_false (by omega)
    cases hk : frameCheckKind h s with
    | some k =>
      rw [exec_frameCheck_of_some hk] at ht
      cases ht
      exact .inl ⟨k, rfl, rfl, exec_frameHdr_of_some hwhole hk⟩
    | none =>
      rw [exec_frameCheck_of_none hk] at ht
      cases ht
      obtain ⟨_, hc, _, hn, _⟩ := frameCheck_none hk
      refine .inr ⟨rfl, rfl, _, exec_frameHdr_of_none hwhole hk, channels_setWidth_toNat hc, rfl, rfl, rfl,
        sliceCount_toNat hn, rfl, fun hf => ?_, acceptHeader_later_frame, rfl⟩
      obtain ⟨hch, hrate⟩ := acceptHeader_first_frame (h := h) hf
      exact ⟨(congrArg BitVec.toNat hch).trans (channels_setWidth_toNat hc), hrate⟩
  · obtain ⟨hch, hrate, hn, hsize⟩ := frameHeaderAt_fields s
    exact ⟨frameHeaderAt s, decode_of_length .frameHeader _ (memBytes_length _ _ _), hch.symm, hrate.symm, hn.symm,
      hsize.symm⟩

/-- Settles O23: no check fails, and a whole frame in the input has its header's 8 bytes there. -/
theorem legalHeaderCompletes : Obligations.LegalHeaderCompletes := by
  intro h s hc1 hc8 hn1 hn hsize hfits hsame hout
  have hk : frameCheckKind h s = none := frameCheckKind_eq_none ⟨hc1, hc8⟩ ⟨hn1, hn⟩ hsize hfits hsame hout
  have hwhole : headerTruncated s = false := headerTruncated_eq_false (by omega)
  exact ⟨exec_frameCheck_of_none hk, _, exec_frameHdr_of_none hwhole hk, rfl, channels_setWidth_toNat hc8, rfl⟩

/-! FRAME_OUT (R160, R161). -/

/-- The low byte of a sample. -/
theorem sample_low_toNat (v : Sample) : (v.extractLsb' 0 8).toNat = v.toNat % 256 := by
  rw [BitVec.extractLsb'_toNat, Nat.shiftRight_zero]

/-- The high byte of a sample. -/
theorem sample_high_toNat (v : Sample) : (v.extractLsb' 8 8).toNat = v.toNat / 256 := by
  rw [BitVec.extractLsb'_toNat, Nat.shiftRight_eq_div_pow]
  omega

/-- MemWrite's own bytes, in the byte order's order (R64). -/
theorem memByte_memWrite16_inside (o : Config.ByteOrder) (m : Memory) (x : Nat) (v : Sample) {i : Nat} (hi : i < 2) :
    memByte (memWrite16 o m x v) (x + i) = (sampleBytes o v)[i]'(by simpa using hi) :=
  memByte_memStore_inside m x i _ _

theorem exec_frameOut_discards {s : State} (ha : outputAddr s = none) : exec .frameOut s = .next s := by
  simp only [exec, execFrameOut, ha]

theorem exec_frameOut_places {s : State} {a : Nat} (ha : outputAddr s = some a) (hmem : a + 2 ≤ s.params.memSize)
    (hlow : inInputRegion s a = false) (hhigh : inInputRegion s (a + 1) = false) :
    exec .frameOut s = .next (s.setMem (memWrite16 s.params.outByteOrder s.mem a s.dp.s)) := by
  have hinside : ¬s.params.memSize < a + 2 := by omega
  simp only [exec, execFrameOut, ha, if_neg hinside, hlow, hhigh, Bool.or_self, Bool.false_eq_true, if_false]

/-- Settles O24: the sample's address is not none, and a 16-bit write changes its two bytes alone. -/
theorem frameOutPlacesTheSample : Obligations.FrameOutPlacesTheSample := by
  intro s a hn ht hmem hlow hhigh
  have ha : outputAddr s = some a := outputAddr_eq_some.mpr ⟨⟨hn, ht⟩, rfl⟩
  have hfirst := memByte_memWrite16_inside s.params.outByteOrder s.mem a s.dp.s (i := 0) (by decide)
  have hsecond := memByte_memWrite16_inside s.params.outByteOrder s.mem a s.dp.s (i := 1) (by decide)
  rw [Nat.add_zero] at hfirst
  refine ⟨_, exec_frameOut_places ha hmem hlow hhigh, fun ho => ?_, fun ho => ?_, fun x hx hx' => ?_, rfl⟩
  · rw [State.setMem_mem, hfirst, hsecond]
    simp only [ho]
    exact ⟨sample_low_toNat _, sample_high_toNat _⟩
  · rw [State.setMem_mem, hfirst, hsecond]
    simp only [ho]
    exact ⟨sample_high_toNat _, sample_low_toNat _⟩
  · exact memByte_memWrite16_outside _ _ _ _ _ (by omega)

/-- Settles O25: a discarded sample has no address, and a placed one ends inside its frame's window, below TOTAL. -/
theorem frameOutDiscardsPaddingAndExcess : Obligations.FrameOutDiscardsPaddingAndExcess := by
  constructor
  · intro s hdiscard
    exact exec_frameOut_discards (if_neg (by omega))
  · intro s t ht hc x hx
    rcases execFrameOut_cases s with ⟨_, h⟩ | ⟨a, ha, ⟨_, h⟩ | ⟨_, _, h⟩ | ⟨_, _, _, h⟩⟩
    · cases h.symm.trans ht
      rfl
    · cases h.symm.trans ht
    · cases h.symm.trans ht
    · cases h.symm.trans ht
      obtain ⟨_, hend⟩ := outputAddr_bounds ha hc
      have hwindow : 2 * s.regs.fCh.toNat * min (s.regs.cum.toNat + s.regs.fN.toNat) s.regs.total.toNat ≤
          2 * s.regs.fCh.toNat * s.regs.total.toNat := Nat.mul_le_mul_left _ (min_le_right _ _)
      exact memByte_memWrite16_outside _ _ _ _ _ (by omega)

/-! FRAME_END (R163). -/

/-- A 16-bit count added to a 33-bit register. -/
theorem add_setWidth33_toNat (a : Word33) (b : BitVec 16) : (a + b.setWidth 33).toNat = (a.toNat + b.toNat) % 2 ^ 33 := by
  rw [BitVec.toNat_add, BitVec.toNat_setWidth]
  omega

/-- Settles O27: in a running decode CUM is below TOTAL and the frame ends by END, so neither sum wraps. -/
theorem frameEndMovesPastTheFrame : Obligations.FrameEndMovesPastTheFrame := by
  refine ⟨fun s => ⟨_, rfl, add_setWidth33_toNat _ _, add_setWidth33_toNat _ _, rfl⟩, fun s hinv hs => ?_⟩
  have hframe := hinv.frame (by rw [hs]; rfl)
  have hneeded := hframe.needed
  have hinside := hframe.inside
  exact ⟨_, (engineStep_frameEnd hs).trans (stepFrameEnd_eq s), rfl,
    (add_setWidth33_toNat _ _).trans (Nat.mod_eq_of_lt (by omega)),
    (add_setWidth33_toNat _ _).trans (Nat.mod_eq_of_lt (by omega))⟩

end Sys2Proof.Machine

/-! SUPPORT. The engine alone (O53): a run with no host move scheduled reaches IDLE or is refused for overlap within its
work, and a property every engine step keeps still holds there. -/

namespace Sys2Proof.Machine

open Sys2Proof

/-- From the invariant a run of the engine reaches IDLE, or a step refused for overlap, within its work (R183, R79); a
property that every engine step keeps holds where the run ends. -/
theorem run_reaches_idle_or_overlaps {P : State → Prop}
    (hkept : ∀ {s t : State}, Inv s → P s → engineStep s = .next t → P t) (n : Nat) :
    ∀ {s : State}, workLeft s ≤ n → Inv s → s.schedule = [] → P s →
      ∃ k, k ≤ n ∧
        ((∃ t, Host.Core.run Sys2Proof.core k s = .next t ∧ Inv t ∧ t.seq = .idle ∧ P t) ∨
         (∃ u a, Inv u ∧ P u ∧ engineStep u = .refused (.outputOverlapsInput a) ∧
            Host.Core.run Sys2Proof.core k s = .refused (.outputOverlapsInput a))) := by
  induction n with
  | zero =>
    intro s hwork hinv _ hP
    refine ⟨0, le_refl 0, .inl ⟨s, rfl, hinv, ?_, hP⟩⟩
    by_contra hs
    exact absurd (workLeft_pos hs) (by omega)
  | succ n ih =>
    intro s hwork hinv hsched hP
    by_cases hs : s.seq = .idle
    · exact ⟨0, by omega, .inl ⟨s, rfl, hinv, hs, hP⟩⟩
    have hstep := step_eq_engineStep hinv.noProbe hsched
    rcases engine_completes_or_overlaps hinv with ⟨t, ht⟩ | ⟨a, ha⟩
    · have hless := workLeft_engine_lt hinv hs ht
      obtain ⟨k, hk, hend⟩ := ih (by omega) (inv_engine hinv ht) ((engineStep_move hinv ht).schedule.trans hsched)
        (hkept hinv hP ht)
      refine ⟨k + 1, by omega, ?_⟩
      rwa [run_succ_of_next (M := Sys2Proof.core) (hstep.trans ht)]
    · exact ⟨1, by omega, .inr ⟨s, a, hinv, hP, ha, run_one_of_refused (M := Sys2Proof.core) (hstep.trans ha)⟩⟩

/-- An engine step leaves STATUS as it is, or completes the decode (R188). -/
theorem EngineMove.status {s t : State} (h : EngineMove s t) : t.status = s.status ∨ t.status.done = true := by
  cases h with
  | stay | moveOn => exact .inl rfl
  | fail | failAtHead | succeed => exact .inr rfl
  | place l m =>
    refine .inl ?_
    unfold afterSample
    dsimp only
    split <;> rfl

/-- Settles O53: a decode stays busy until it is done, and the run reaches IDLE, where the block is not busy, within its
work. -/
theorem everyDecodeEnds : Obligations.EveryDecodeEnds := by
  intro s hinv hbusy hsched
  have hkept : ∀ {u t : State}, Inv u → (u.status.busy = true ∨ u.status.done = true) → engineStep u = .next t →
      (t.status.busy = true ∨ t.status.done = true) := fun hu hP ht =>
    (engineStep_move hu ht).status.elim (fun e => e ▸ hP) .inr
  obtain ⟨k, hk, ⟨t, hrun, ht, hidle, hP⟩ | ⟨_, a, _, _, _, hrun⟩⟩ :=
    run_reaches_idle_or_overlaps hkept _ (le_refl (workLeft s)) hinv hsched (.inl hbusy)
  · have hnot := ht.idleIff.mp hidle
    exact ⟨k, hk, .inl ⟨t, hrun, hidle, hP.resolve_left (by simp [hnot])⟩⟩
  · exact ⟨k, hk, .inr ⟨a, hrun⟩⟩

end Sys2Proof.Machine

/-! SUPPORT. The stream (O28 to O30, O51, O52): STREAM_HDR's checks (R180), the loop test (R182), STREAM_FINISH's result
(R186), and how far FRAME_END moves (R183). -/

namespace Sys2Proof.Machine

open Sys2Proof

/-! STREAM_HDR (R180). -/

theorem exec_streamHdr_of_some {h : StreamHeader} {s : State} {k : ErrKind} (hk : streamCheckKind h s = some k) :
    exec (.streamHdr h) s = .next (raiseFault k 0 s) := by
  simp only [exec, execStreamHdr, hk]

theorem exec_streamHdr_empty {h : StreamHeader} {s : State} (hk : streamCheckKind h s = none) (ht : h.total = 0#32) :
    exec (.streamHdr h) s = .next (raiseFault .totalSampleMismatch 0 (s.setRegs { s.regs with total := h.total })) := by
  simp only [exec, execStreamHdr, hk, if_pos ht]

theorem exec_streamHdr_of_none {h : StreamHeader} {s : State} (hk : streamCheckKind h s = none) (ht : h.total ≠ 0#32) :
    exec (.streamHdr h) s = .next (s.setRegs (acceptStream h s.args s.regs)) := by
  simp only [exec, execStreamHdr, hk, if_neg ht]

/-- Settles O28: each clause runs down the chain of checks; END and FBASE do not wrap in 33 bits. -/
theorem streamHdrChecksThenStarts : Obligations.StreamHdrChecksThenStarts := by
  constructor
  · intro h s bad1 bad2 bad3 bad4 ends
    have hpass : ¬bad1 → ¬bad2 → ¬bad3 → streamCheckKind h s = none := fun h1 h2 h3 =>
      (if_neg h1).trans <| (if_neg h2).trans <| if_neg h3
    have hzero : bad4 ↔ h.total = 0#32 := BitVec.toNat_inj (y := 0#32)
    rw [hzero]
    refine ⟨fun h1 => exec_streamHdr_of_some (if_pos h1),
      fun h1 h2 => exec_streamHdr_of_some <| (if_neg h1).trans <| if_pos h2,
      fun h1 h2 h3 => exec_streamHdr_of_some <| (if_neg h1).trans <| (if_neg h2).trans <| if_pos h3,
      fun h1 h2 h3 h4 => exec_streamHdr_empty (hpass h1 h2 h3) h4, fun h1 h2 h3 h4 => ?_⟩
    exact ⟨_, exec_streamHdr_of_none (hpass h1 h2 h3) h4, rfl, w33 s.args.inOffset s.args.inLength,
      w33 s.args.inOffset 8#32, rfl, rfl, rfl⟩
  · intro s
    obtain ⟨hmagic, htotal⟩ := streamHeaderAt_fields s
    exact ⟨streamHeaderAt s, decode_of_length .streamHeader _ (memBytes_length _ _ _), hmagic, htotal⟩

/-! STREAM_LOOP (R182). -/

theorem exec_streamLoop (s : State) :
    exec .streamLoop s = .next (s.setSeq (if frameFollows s then .frameHdr else .finish)) := rfl

theorem frameFollows_iff {s : State} : frameFollows s = true ↔
    s.regs.cum.toNat < s.regs.total.toNat ∧ s.regs.fbase.toNat < s.regs.endp.toNat := by
  simp [frameFollows]

/-- Settles O29: the loop test is the two comparisons. -/
theorem streamLoopTestsTotalAndEnd : Obligations.StreamLoopTestsTotalAndEnd := by
  refine fun s => ⟨_, exec_streamLoop s, fun hmore => if_pos (frameFollows_iff.mpr hmore), fun hend => if_neg ?_, rfl⟩
  rw [frameFollows_iff]
  omega

/-! STREAM_FINISH (R186). -/

theorem finishCheckFails_iff {s : State} : finishCheckFails s = true ↔
    s.regs.first = false ∨ s.params.totalSlack < ((s.regs.cum.toNat : Int) - (s.regs.total.toNat : Int)).natAbs := by
  simp [finishCheckFails]

theorem exec_streamFinish_fails {s : State} (h : finishCheckFails s = true) :
    exec .streamFinish s = .next (raiseFault .totalSampleMismatch (failureWindow s) s) := if_pos h

theorem exec_streamFinish_succeeds {s : State} (h : ¬finishCheckFails s = true) :
    exec .streamFinish s = .next
      (completeSuccess (BitVec.ofNat 32 (min s.regs.cum.toNat s.regs.total.toNat)) s.regs.sCh s.regs.sRate s) := if_neg h

/-- The sample count of a success fits its register: it is at most TOTAL. -/
theorem finishSamples_toNat (s : State) : (BitVec.ofNat 32 (min s.regs.cum.toNat s.regs.total.toNat)).toNat =
    min s.regs.cum.toNat s.regs.total.toNat := by
  have htotal := s.regs.total.isLt
  exact (BitVec.toNat_ofNat ..).trans (Nat.mod_eq_of_lt (by omega))

/-- Settles O30: the distance as a natural number is the integer's absolute value. -/
theorem streamFinishReportsTheTriple : Obligations.StreamFinishReportsTheTriple := by
  intro s far
  have hfails : finishCheckFails s = true ↔ s.regs.first = false ∨ far := by
    rw [finishCheckFails_iff]
    dsimp only [far]
    rw [Int.abs_eq_natAbs, Int.ofNat_lt]
  refine ⟨fun hbad => exec_streamFinish_fails (hfails.mpr hbad), fun hfirst hnear => ?_⟩
  have hpass : ¬finishCheckFails s = true := by
    rw [hfails]
    simp [hfirst, hnear]
  exact ⟨_, exec_streamFinish_succeeds hpass, finishSamples_toNat s, rfl, rfl, rfl, rfl, rfl⟩

/-- Settles O51: a success comes of the passing check alone, which a frame with its channels and samples has met. -/
theorem successIsNeverTheSentinel : Obligations.SuccessIsNeverTheSentinel := by
  intro s t hinv hs ht hok
  have hstream := hinv.stream (by rw [hs]; rfl)
  rw [engineStep_finish hs, stepFinish_eq] at ht
  cases ht
  by_cases hfails : finishCheckFails s = true
  · rw [if_pos hfails] at hok
    cases hok
  rw [if_neg hfails, completeSuccess_eq]
  have hfirst : s.regs.first = true := by
    rw [finishCheckFails_iff, not_or] at hfails
    exact Bool.eq_true_of_not_eq_false hfails.1
  have hcounted := (hinv.between (.inr hs)).counted hfirst
  have htotal := hstream.totalPositive
  obtain ⟨hlow, hhigh⟩ := hstream.streamChannels hfirst
  have hsamples := finishSamples_toNat s
  refine ⟨(le_min hcounted htotal).trans hsamples.ge, hsamples.le.trans (min_le_right _ _), hlow, hhigh,
    fun e => ?_⟩
  have hzero : s.regs.sCh = 0#4 := congrArg Results.channels e
  rw [hzero] at hlow
  cases hlow

/-! FRAME_END (R183). -/

/-- A frame has at least 32 bytes: a header, one record and one slice word (R153, R183). -/
theorem frameSize_ge {s : State} (h : Inv s) (hs : s.seq.inFrame = true) : 32 ≤ s.regs.fSize.toNat := by
  have hframe := h.frame hs
  have hsize := hframe.size_eq
  have hslices := hframe.slices
  have hsamples := hframe.samples
  have hchannels := (frameChannels h hs).1
  have hone : 1 ≤ s.regs.fSlices.toNat := by unfold sliceCount at hslices; omega
  have hwords := Nat.mul_le_mul hone hchannels
  omega

/-- Settles O52: FBASE moves on by the frame's size, and the frame ends by END. -/
theorem framesAdvanceWithinTheInput : Obligations.FramesAdvanceWithinTheInput := by
  intro s hinv hs
  have hinFrame : s.seq.inFrame = true := by rw [hs]; rfl
  have hsize := frameSize_ge hinv hinFrame
  have hinside := (hinv.frame hinFrame).inside
  obtain ⟨_, hbase⟩ := frameEnd_sums hinv hs
  refine ⟨_, (engineStep_frameEnd hs).trans (stepFrameEnd_eq s), ?_, ?_⟩
  · exact (Nat.add_le_add_left hsize _).trans hbase.ge
  · exact hbase.le.trans hinside

end Sys2Proof.Machine

/-! SUPPORT. DecodeFrame beside the engine (R159, R164, R222): what DecodeFrame still has to write from any position
inside a frame, and that no engine step of the frame changes it. -/

namespace Sys2Proof.Machine

open Sys2Proof

/-! The order of the slices (R159). -/

/-- Slice k of a frame of `chans` channels is (k / chans, k mod chans). -/
theorem refSliceOrder_eq (slices : Nat) {chans : Nat} (hpos : 0 < chans) :
    refSliceOrder slices chans = (List.range (slices * chans)).map fun k => (k / chans, k % chans) := by
  induction slices with
  | zero => simp [refSliceOrder]
  | succ i ih =>
    have hrow : ∀ c ∈ List.range chans, (i, c) = ((i * chans + c) / chans, (i * chans + c) % chans) := by
      intro c hc
      have hc := List.mem_range.mp hc
      rw [Nat.mul_comm, Nat.mul_add_div hpos, Nat.mul_add_mod, Nat.div_eq_of_lt hc, Nat.mod_eq_of_lt hc, Nat.add_zero]
    unfold refSliceOrder at ih ⊢
    rw [List.range_succ, List.flatMap_append, ih, Nat.succ_mul, List.range_add, List.map_append, List.map_map,
      List.flatMap_singleton, List.map_congr_left hrow]
    rfl

/-- From slice (i, c) on the order begins with it. -/
theorem drop_refSliceOrder {slices chans i c : Nat} (hi : i < slices) (hc : c < chans) :
    (refSliceOrder slices chans).drop (i * chans + c) =
      (i, c) :: (refSliceOrder slices chans).drop (i * chans + c + 1) := by
  have hpos : 0 < chans := by omega
  have hlt := rowIndex_lt hi hc
  have hlen : i * chans + c < (refSliceOrder slices chans).length := by
    rwa [refSliceOrder_eq _ hpos, List.length_map, List.length_range]
  rw [List.drop_eq_getElem_cons hlen]
  congr 1
  simp only [refSliceOrder_eq _ hpos, List.getElem_map, List.getElem_range]
  rw [Nat.mul_comm, Nat.mul_add_div hpos, Nat.mul_add_mod, Nat.div_eq_of_lt hc, Nat.mod_eq_of_lt hc, Nat.add_zero]

/-- Past the last slice nothing is left. -/
theorem drop_refSliceOrder_end (slices : Nat) {chans : Nat} (hpos : 0 < chans) :
    (refSliceOrder slices chans).drop (slices * chans) = [] := by
  rw [refSliceOrder_eq _ hpos, List.drop_eq_nil_iff, List.length_map, List.length_range]

/-! DecodeFrame reads the stream's CUM, TOTAL and FBASE alone. -/

section
variable {p : Config.Params} {args : ArgRegs} {st st' : RefStream} {chans frameN : Nat}
  (hcum : st'.cum = st.cum) (htotal : st'.total = st.total)
include hcum htotal

theorem refFrameOut_congr (c n : Nat) (xs : List Int) (m : Memory) :
    refFrameOut p args st' chans frameN c n xs m = refFrameOut p args st chans frameN c n xs m := by
  induction xs generalizing n m with
  | nil => rfl
  | cons x xs ih => rw [refFrameOut, refFrameOut, ih, hcum, htotal]

theorem refSlices_congr (hfbase : st'.fbase = st.fbase) (order : List (Nat × Nat)) (lms : List (Ints4 × Ints4))
    (m : Memory) :
    refSlices p args st' chans frameN order lms m = refSlices p args st chans frameN order lms m := by
  induction order generalizing lms m with
  | nil => rfl
  | cons sc order ih => simp only [refSlices, ih, refFrameOut_congr hcum htotal, hfbase]
end

/-! The predictors a frame stands with. -/

/-- Channel c's registers as DecodeFrame holds them. -/
def channelInts (s : State) (c : Nat) : Ints4 × Ints4 :=
  match channel s c with
  | some l => (histInts l, weightInts l)
  | none => (⟨0, 0, 0, 0⟩, ⟨0, 0, 0, 0⟩)

theorem channelInts_of_channel {s : State} {c : Nat} {l : Lms} (h : channel s c = some l) :
    channelInts s c = (histInts l, weightInts l) := by
  rw [channelInts, h]

theorem channelInts_congr {s t : State} {c : Nat} (h : channel t c = channel s c) :
    channelInts t c = channelInts s c := by
  rw [channelInts, channelInts, h]

/-- The registers of the frame's channels. -/
def predictors (s : State) : List (Ints4 × Ints4) := (List.range s.regs.fCh.toNat).map (channelInts s)

/-- The frame's predictors with k channels loaded: the registers of those, the records of the others (R110). -/
def predictorsAfter (s : State) (k : Nat) : List (Ints4 × Ints4) :=
  (List.range s.regs.fCh.toNat).map fun c =>
    if c < k then channelInts s c else refLoad s.mem (lmsRecordAddr s.regs.fbase.toNat c)

/-- Once every channel is loaded the predictors are the registers. -/
theorem predictorsAfter_all (s : State) : predictorsAfter s s.regs.fCh.toNat = predictors s :=
  List.map_congr_left fun _ hc => if_pos (List.mem_range.mp hc)

/-- Where one channel's registers change, they change in the list alone. -/
theorem predictors_set {s t : State} {c : Nat} (hfch : t.regs.fCh = s.regs.fCh)
    (hother : ∀ d, d ≠ c → channel t d = channel s d) :
    predictors t = (predictors s).set c (channelInts t c) := by
  rw [predictors, predictors, hfch]
  refine List.ext_getElem (by simp) fun d h1 h2 => ?_
  rw [List.getElem_set, List.getElem_map, List.getElem_map, List.getElem_range]
  split
  · next e => rw [e]
  · next hd => exact channelInts_congr (hother d (Ne.symm hd))

/-- Setting a channel to its own registers changes nothing. -/
theorem predictors_set_self (s : State) (c : Nat) : (predictors s).set c (channelInts s c) = predictors s :=
  (predictors_set rfl fun _ _ => rfl).symm

/-- The predictor of a channel of the frame is its registers. -/
theorem predictors_getD {s : State} {c : Nat} (hc : c < s.regs.fCh.toNat) (x : Ints4 × Ints4) :
    (predictors s).getD c x = channelInts s c := by
  rw [predictors, List.getD_eq_getElem _ _ (by simpa using hc), List.getElem_map, List.getElem_range]

/-- LMS_LOAD loads the record that DecodeFrame reads (R110). -/
theorem predictorsAfter_load {s : State} (h8 : s.regs.chIdx.toNat < 8) :
    predictorsAfter (setChannel s s.regs.chIdx.toNat (loadRecord (lmsRecordAt s))) (s.regs.chIdx.toNat + 1) =
      predictorsAfter s s.regs.chIdx.toNat := by
  refine List.map_congr_left fun c _ => ?_
  rcases Nat.lt_trichotomy c s.regs.chIdx.toNat with hc | rfl | hc
  · rw [if_pos (by omega), if_pos hc, channelInts_congr (channel_setChannel_other h8 hc.ne _)]
  · rw [if_pos (by omega), if_neg (by omega), channelInts_of_channel (channel_setChannel_same h8 _), histInts_loadRecord,
      weightInts_loadRecord]
    exact quadInts_lmsRecordOf _ _
  · rw [if_neg (by omega), if_neg (by omega)]
    rfl

/-! The memory DecodeFrame ends with, from each position in the frame. -/

/-- What DecodeFrame reads of the stream while it is in the machine's frame. -/
def streamHere (s : State) : RefStream := ⟨[], s.regs.total.toNat, s.regs.cum.toNat, s.regs.fbase.toNat, none⟩

/-- How many slices of the frame stand before (SL_IDX, CH_IDX) in R159's order. -/
def slicesBefore (s : State) : Nat := s.regs.slIdx.toNat * s.regs.fCh.toNat + s.regs.chIdx.toNat

/-- DecodeFrame's memory after the slices from number k on. -/
def slicesFrom (s : State) (k : Nat) (lms : List (Ints4 × Ints4)) (m : Memory) : Memory :=
  refSlices s.params s.args (streamHere s) s.regs.fCh.toNat s.regs.fN.toNat
    ((refSliceOrder s.regs.fSlices.toNat s.regs.fCh.toNat).drop k) lms m

/-- DecodeSlice on the slots from J on (R134). -/
def slotsLeft (s : State) : List Int × Ints4 × Ints4 :=
  refSlots s.params.dequantTab s.regs.sliceWord.toNat (List.range' s.regs.j.toNat (20 - s.regs.j.toNat))
    (channelInts s s.regs.chIdx.toNat).1 (channelInts s s.regs.chIdx.toNat).2

/-- DecodeFrame's memory after those slots and the slices behind them. -/
def slotsFrom (s : State) : Memory :=
  slicesFrom s (slicesBefore s + 1) ((predictors s).set s.regs.chIdx.toNat (slotsLeft s).2)
    (refFrameOut s.params s.args (streamHere s) s.regs.fCh.toNat s.regs.fN.toNat s.regs.chIdx.toNat
      (s.regs.slIdx.toNat * 20 + s.regs.j.toNat) (slotsLeft s).1 s.mem)

/-- The memory at the next loop head: what is there between frames, and what DecodeFrame makes of it inside one. -/
def headMem (s : State) : Memory :=
  match s.seq with
  | .lmsLoad => slicesFrom s 0 (predictorsAfter s s.regs.chIdx.toNat) s.mem
  | .sliceLoad => slicesFrom s (slicesBefore s) (predictors s) s.mem
  | .sample => slotsFrom s
  | .idle | .streamHdr | .frameHdr | .frameEnd | .finish => s.mem

theorem headMem_lmsLoad {s : State} (hs : s.seq = .lmsLoad) :
    headMem s = slicesFrom s 0 (predictorsAfter s s.regs.chIdx.toNat) s.mem := by
  simp [headMem, hs]

theorem headMem_sliceLoad {s : State} (hs : s.seq = .sliceLoad) :
    headMem s = slicesFrom s (slicesBefore s) (predictors s) s.mem := by
  simp [headMem, hs]

theorem headMem_sample {s : State} (hs : s.seq = .sample) : headMem s = slotsFrom s := by simp [headMem, hs]

theorem headMem_written {s : State} (hs : s.seq = .frameHdr ∨ s.seq = .frameEnd ∨ s.seq = .finish) :
    headMem s = s.mem := by
  rcases hs with hs | hs | hs <;> simp [headMem, hs]

/-- Behind the last slice nothing more is written. -/
theorem slicesFrom_end {s : State} {k : Nat} (hpos : 0 < s.regs.fCh.toNat)
    (hk : k = s.regs.fSlices.toNat * s.regs.fCh.toNat) (lms : List (Ints4 × Ints4)) (m : Memory) :
    slicesFrom s k lms m = m := by
  rw [slicesFrom, hk, drop_refSliceOrder_end _ hpos, refSlices]

/-- Behind the last slot the slices that follow are left. -/
theorem slotsFrom_end {s : State} (hj : s.regs.j = 20#5) :
    slotsFrom s = slicesFrom s (slicesBefore s + 1) (predictors s) s.mem := by
  have hleft : slotsLeft s = ([], channelInts s s.regs.chIdx.toNat) := by rw [slotsLeft, hj]; rfl
  rw [slotsFrom, hleft, predictors_set_self]
  rfl

/-! The engine's steps inside a frame leave the memory at its end as it is. -/

/-- LMS_LOAD's next-state assignment (R214). -/
theorem headMem_afterLmsLoad {s : State} (hs : s.seq = .lmsLoad)
    (hnext : (s.regs.chIdx + 1).toNat = s.regs.chIdx.toNat + 1) :
    headMem (afterLmsLoad s) = slicesFrom s 0 (predictorsAfter s (s.regs.chIdx.toNat + 1)) s.mem := by
  by_cases hlast : s.regs.chIdx + 1 = s.regs.fCh
  · rw [afterLmsLoad_last hlast, headMem_sliceLoad rfl, ← hnext, hlast, predictorsAfter_all]
    have hbefore : (0#9).toNat * s.regs.fCh.toNat + (0#4).toNat = 0 := by simp
    exact congrArg (slicesFrom s · (predictors s) s.mem) hbefore
  · rw [afterLmsLoad_more hlast, ← hnext]
    exact headMem_lmsLoad (s := s.setRegs { s.regs with chIdx := s.regs.chIdx + 1 }) hs

theorem headMem_lmsLoad_step {s t : State} (hinv : Inv s) (hs : s.seq = .lmsLoad) (ht : stepLmsLoad s = .next t) :
    headMem t = headMem s := by
  have hpos := hinv.position
  simp only [PositionInv, hs] at hpos
  have hnext := chIdx_succ hinv (by rw [hs]; rfl) hpos
  rw [stepLmsLoad_eq] at ht
  split at ht
  · cases ht
  split at ht
  · cases ht
  cases ht
  rw [headMem_lmsLoad hs, ← predictorsAfter_load (by omega)]
  exact headMem_afterLmsLoad (s := setChannel s _ _) hs hnext

/-- SLICE_LOAD reads the word DecodeFrame reads, and the slots are all left (R130, R134). -/
theorem headMem_sliceLoad_step {s t : State} (hinv : Inv s) (hs : s.seq = .sliceLoad)
    (ht : stepSliceLoad s = .next t) : headMem t = headMem s := by
  have hpos := hinv.position
  simp only [PositionInv, hs] at hpos
  obtain ⟨hch, hsl⟩ := hpos
  rw [stepSliceLoad_eq] at ht
  split at ht
  · cases ht
  cases ht
  rw [headMem_sliceLoad hs, headMem_sample rfl, slicesFrom, slicesBefore, drop_refSliceOrder hsl hch]
  simp only [refSlices, predictors_getD hch]
  have hword : refRead s.mem ((streamHere s).fbase + 8 + 16 * s.regs.fCh.toNat +
      8 * (s.regs.slIdx.toNat * s.regs.fCh.toNat + s.regs.chIdx.toNat)) 8 = (sliceWordAt s).toNat :=
    (sliceWordAt_toNat s).symm
  rw [hword, refDecodeSlice, List.range_eq_range']
  rfl

/-- SAMPLE's next-state assignment (R216). -/
theorem headMem_afterSample {s : State} (hs : s.seq = .sample) (hpos : 0 < s.regs.fCh.toNat)
    (hsl : s.regs.slIdx.toNat < s.regs.fSlices.toNat)
    (hchNext : (s.regs.chIdx + 1).toNat = s.regs.chIdx.toNat + 1)
    (hslNext : (s.regs.slIdx + 1).toNat = s.regs.slIdx.toNat + 1) :
    headMem (afterSample s) = slotsFrom s := by
  by_cases h20 : s.regs.j = 20#5
  · rw [slotsFrom_end h20]
    by_cases hlast : s.regs.chIdx + 1 = s.regs.fCh
    · have hrow : slicesBefore s + 1 = (s.regs.slIdx.toNat + 1) * s.regs.fCh.toNat := by
        rw [slicesBefore, Nat.succ_mul, ← hlast, hchNext]
        rfl
      rw [afterSample_nextSlice h20 hlast]
      split
      · next hend =>
        rw [slicesFrom_end hpos (by rw [hrow, ← hend, hslNext]), headMem_written (.inr (.inl rfl))]
        rfl
      · rw [headMem_sliceLoad rfl, hrow, ← hslNext]
        rfl
    · have hne : s.regs.slIdx ≠ s.regs.fSlices := fun e => by rw [e] at hsl; omega
      have hbefore : slicesBefore s + 1 = s.regs.slIdx.toNat * s.regs.fCh.toNat + (s.regs.chIdx + 1).toNat := by
        rw [hchNext, slicesBefore, Nat.add_assoc]
      rw [afterSample_nextChannel h20 hlast, if_neg hne, headMem_sliceLoad rfl, hbefore]
      rfl
  · rw [afterSample_stay h20, headMem_sample hs]

/-- What FRAME_OUT leaves in memory when it completes (R160, R161). -/
theorem execFrameOut_mem {s t : State} (h : execFrameOut s = .next t) : t = s.setMem (
    if s.dp.n.toNat < s.regs.fN.toNat ∧ s.regs.cum.toNat + s.dp.n.toNat < s.regs.total.toNat then
      memWrite16 s.params.outByteOrder s.mem
        (sampleAddr s.args.outOffset.toNat s.regs.cum.toNat s.regs.fCh.toNat s.dp.n.toNat s.dp.c.toNat) s.dp.s
    else s.mem) := by
  rcases execFrameOut_cases s with ⟨ha, e⟩ | ⟨a, ha, ⟨_, e⟩ | ⟨_, _, e⟩ | ⟨_, _, _, e⟩⟩
  · have hdiscard : ¬(s.dp.n.toNat < s.regs.fN.toNat ∧ s.regs.cum.toNat + s.dp.n.toNat < s.regs.total.toNat) :=
      fun hplace => by rw [outputAddr, if_pos hplace] at ha; cases ha
    rw [if_neg hdiscard]
    cases e.symm.trans h
    rfl
  · cases e.symm.trans h
  · cases e.symm.trans h
  · obtain ⟨hplace, rfl⟩ := outputAddr_eq_some.mp ha
    rw [if_pos hplace]
    exact (Host.Outcome.next.inj (e.symm.trans h)).symm

/-- SAMPLE_STEP's slot is the first of the slots left (R133, R134). -/
theorem slotsLeft_eq {s : State} {l : Lms} (hj : s.regs.j.toNat < 20) (hsf : s.regs.sf = scaleFactor s.regs.sliceWord)
    (hl : channel s s.regs.chIdx.toNat = some l) :
    slotsLeft s = ((slotValues l s).s.toInt :: (slotsLeft (afterSlot l s)).1, (slotsLeft (afterSlot l s)).2) := by
  have hcount : 20 - s.regs.j.toNat = 20 - (s.regs.j.toNat + 1) + 1 := by omega
  have hr := slotValues_r_toInt l s
  rw [hsf, scaleFactor_toNat] at hr
  have hafter : slotsLeft (afterSlot l s) = refSlots s.params.dequantTab s.regs.sliceWord.toNat
      (List.range' (s.regs.j.toNat + 1) (20 - (s.regs.j.toNat + 1)))
      (histInts (update l (slotValues l s).s (slotValues l s).r))
      (weightInts (update l (slotValues l s).s (slotValues l s).r)) := by
    have hint := channelInts_of_channel (channel_afterSlot_same (lt_of_channel hl) l)
    rw [slotsLeft, afterSlot_j_toNat l hj]
    exact congrArg (fun hw : Ints4 × Ints4 => refSlots _ _ _ hw.1 hw.2) hint
  rw [hafter, slotsLeft, hcount, List.range'_succ, channelInts_of_channel hl, histInts_update, weightInts_update,
    slotValues_s_toInt, hr]
  rfl

/-- SAMPLE_STEP and FRAME_OUT do what DecodeFrame does with the first of the slots left (R133, R160). -/
theorem slotsFrom_afterSlot {s u : State} {l : Lms} (hj : s.regs.j.toNat < 20)
    (hsf : s.regs.sf = scaleFactor s.regs.sliceWord) (hl : channel s s.regs.chIdx.toNat = some l)
    (hu : execFrameOut (afterSlot l s) = .next u) : slotsFrom u = slotsFrom s := by
  have hset : (predictors (afterSlot l s)).set s.regs.chIdx.toNat (slotsLeft (afterSlot l s)).2 =
      (predictors s).set s.regs.chIdx.toNat (slotsLeft (afterSlot l s)).2 := by
    have hother := fun d hd => channel_afterSlot_other (lt_of_channel hl) l (d := d) hd
    rw [predictors_set (s := s) (t := afterSlot l s) rfl hother, List.set_set]
  have hn : s.regs.slIdx.toNat * 20 + (afterSlot l s).regs.j.toNat = (slotValues l s).n.toNat + 1 := by
    rw [slotValues_n_toNat, afterSlot_j_toNat l hj, Nat.add_assoc]
  rw [execFrameOut_mem hu, slotsFrom, slotsFrom, slotsLeft_eq hj hsf hl, ← hset, ← slotValues_n_toNat l s, refFrameOut,
    BitVec.ofInt_toInt, ← hn]
  rfl

theorem headMem_sample_step {s t : State} (hinv : Inv s) (hs : s.seq = .sample) (ht : stepSample s = .next t) :
    headMem t = headMem s := by
  have hframe : s.seq.inFrame = true := by rw [hs]; rfl
  have hpos := hinv.position
  simp only [PositionInv, hs] at hpos
  obtain ⟨hch, hsl, hj, hsf⟩ := hpos
  have hchans := frameChannels hinv hframe
  obtain ⟨l, hl⟩ := channel_isSome s s.regs.chIdx.toNat (by omega)
  rw [stepSample_eq hj hl] at ht
  obtain ⟨u, hu, hv⟩ := andThen_eq_next ht
  cases hv
  have hchNext := chIdx_succ hinv hframe hch
  have hslNext := slIdx_succ hinv hframe hsl
  rw [headMem_sample hs, ← slotsFrom_afterSlot hj hsf hl hu, execFrameOut_mem hu]
  exact headMem_afterSample hs hchans.1 hsl hchNext hslNext

/-- No engine step inside a frame changes the memory DecodeFrame ends with. -/
theorem headMem_engine {s t : State} (hinv : Inv s) (hs : s.seq.inFrame = true) (ht : engineStep s = .next t) :
    headMem t = headMem s := by
  unfold engineStep at ht
  cases hq : s.seq <;> simp only [hq] at ht
  case lmsLoad => exact headMem_lmsLoad_step hinv hq ht
  case sliceLoad => exact headMem_sliceLoad_step hinv hq ht
  case sample => exact headMem_sample_step hinv hq ht
  case frameEnd =>
    cases (stepFrameEnd_eq s).symm.trans ht
    exact (headMem_written (.inr (.inl hq))).symm
  case idle | streamHdr | frameHdr | finish => simp [hq, Seq.inFrame] at hs

end Sys2Proof.Machine

/-! DecodeStream on its own stream: what a frame does to it, how far its window reaches, and R180's checks before the loop
(R164, R181). -/

namespace Sys2Proof.Machine

open Sys2Proof

/-! DecodeFrame and the loop on the reference's own stream (R164, R181). -/

/-- The first frame fixes the stream's channel count and rate (R151's sequence check). -/
theorem refFrameCheck_none {p : Config.Params} {args : ArgRegs} {endp : Nat} {st : RefStream} {c r n z : Nat}
    (h : refFrameCheck p args endp st c r n z = none) : st.first.getD (c, r) = (c, r) := by
  cases hf : st.first with
  | none => rfl
  | some cr =>
    by_contra hne
    have hany : st.first.any (· != (c, r)) = true := by simpa [hf] using hne
    unfold refFrameCheck at h
    split_ifs at h

/-- What a frame that DecodeFrame accepts does to the stream. -/
theorem refDecodeFrame_ok {p : Config.Params} {args : ArgRegs} {endp : Nat} {st st' : RefStream}
    (h : refDecodeFrame p args endp st = .ok st') :
    st'.mem = refSlices p args st (refRead st.mem st.fbase 1) (refRead st.mem (st.fbase + 4) 2)
      (refSliceOrder ((refRead st.mem (st.fbase + 4) 2 + 19) / 20) (refRead st.mem st.fbase 1))
      ((List.range (refRead st.mem st.fbase 1)).map fun i => refLoad st.mem (st.fbase + 8 + 16 * i)) st.mem ∧
    st'.total = st.total ∧ st'.cum = st.cum + refRead st.mem (st.fbase + 4) 2 ∧
    st.first.getD (refRead st.mem st.fbase 1, refRead st.mem (st.fbase + 1) 3) =
      (refRead st.mem st.fbase 1, refRead st.mem (st.fbase + 1) 3) ∧
    st'.first = some (refRead st.mem st.fbase 1, refRead st.mem (st.fbase + 1) 3) := by
  unfold refDecodeFrame at h
  dsimp only at h
  split at h
  · cases h
  split at h
  · cases h
  next hk =>
  cases h
  have hsame := refFrameCheck_none hk
  exact ⟨rfl, rfl, rfl, hsame, congrArg some hsame⟩

/-- A frame that DecodeFrame rejects leaves the stream as it was. -/
theorem refDecodeFrame_error {p : Config.Params} {args : ArgRegs} {endp : Nat} {st : RefStream} {e : ErrKind × RefStream}
    (h : refDecodeFrame p args endp st = .error e) : e.2 = st := by
  unfold refDecodeFrame at h
  dsimp only at h
  split at h
  · cases h; rfl
  split at h
  · cases h; rfl
  · cases h

/-- x is no byte of the w from OUT_OFFSET. -/
def outsideWindow (args : ArgRegs) (w x : Nat) : Prop := x < args.outOffset.toNat ∨ args.outOffset.toNat + w ≤ x

/-- An accepted frame widens the window and writes inside it (R78, R156). -/
theorem refDecodeFrame_window {p : Config.Params} {args : ArgRegs} {endp : Nat} {st st' : RefStream}
    (h : refDecodeFrame p args endp st = .ok st') :
    refWindow st ≤ refWindow st' ∧
      ∀ x, outsideWindow args (refWindow st') x → memByte st'.mem x = memByte st.mem x := by
  obtain ⟨hmem, htotal, hcum, hsame, hfirst⟩ := refDecodeFrame_ok h
  have hwin : refWindow st' = 2 * refRead st.mem st.fbase 1 *
      min (st.cum + refRead st.mem (st.fbase + 4) 2) st.total := by
    rw [refWindow, hfirst, hcum, htotal]
  constructor
  · rw [hwin]
    unfold refWindow
    split
    · exact Nat.zero_le _
    · next c _ hf =>
      rw [hf, Option.getD_some, Prod.mk.injEq] at hsame
      rw [hsame.1]
      exact Nat.mul_le_mul_left _ (by omega)
  · intro x hx
    rw [hwin] at hx
    rw [hmem]
    exact refSlices_outside hx _ refSliceOrder_channel _ _

/-- The outcome of a decode whose frame loop ended as given (R181, R186). -/
def endOutcome (p : Config.Params) : Except (ErrKind × RefStream) RefStream → RefOutcome
  | .error (k, st) => .failure k (refWindow st)
  | .ok st => refFinish p st

/-- The frame loop only widens the window. -/
theorem refWindow_le_outputWindow (p : Config.Params) (args : ArgRegs) (endp k : Nat) (st : RefStream) :
    refWindow st ≤ (endOutcome p (refFrames p args endp k st)).outputWindow := by
  induction k generalizing st with
  | zero => exact (refFinish_outputWindow p st).ge
  | succ k ih =>
    by_cases hmore : st.cum < st.total ∧ st.fbase < endp
    · cases he : refDecodeFrame p args endp st with
      | ok st' =>
        rw [refFrames_of_ok hmore he]
        exact (refDecodeFrame_window he).1.trans (ih st')
      | error e =>
        rw [refFrames_of_error hmore he, ← refDecodeFrame_error he]
        exact le_refl _
    · rw [refFrames_end hmore]
      exact (refFinish_outputWindow p st).ge

/-- DecodeStream by R180's checks on the header at IN_OFFSET, and then by its frame loop. -/
theorem refDecodeStream_eq (s : State) : refDecodeStream s.params s.args s.mem =
    if s.params.memSize < s.args.inOffset.toNat + s.args.inLength.toNat then .failure .bufferTooSmall 0
    else if s.args.inLength.toNat < 8 then .failure .truncatedHeader 0
    else if (streamHeaderAt s).magic ≠ s.params.magic then .failure .magicMismatch 0
    else if (streamHeaderAt s).total = 0#32 then .failure .totalSampleMismatch 0
    else endOutcome s.params (refFrames s.params s.args (s.args.inOffset.toNat + s.args.inLength.toNat)
      s.args.inLength.toNat ⟨s.mem, (streamHeaderAt s).total.toNat, 0, s.args.inOffset.toNat + 8, none⟩) := by
  obtain ⟨hmagic, htotal⟩ := streamHeaderAt_fields s
  have hm : (refRead s.mem s.args.inOffset.toNat 4 ≠ s.params.magic.toNat) =
      ((streamHeaderAt s).magic ≠ s.params.magic) := by
    rw [← hmagic, ne_eq, BitVec.toNat_inj]
  have ht : ((streamHeaderAt s).total.toNat = 0) = ((streamHeaderAt s).total = 0#32) :=
    propext (BitVec.toNat_inj (y := 0#32))
  simp only [refDecodeStream, hm, ← htotal, ht]
  split_ifs
  · rfl
  · rfl
  · rfl
  · rfl
  split
  · next e => rw [e]; rfl
  · next e => rw [e]; rfl

end Sys2Proof.Machine

/-! The sequencer computes DecodeStream (O54). From every sequencer state DecodeStream, taken up where the block stands, has
one outcome that no engine step changes, and that the idle block reports (R181, R222). -/

namespace Sys2Proof.Machine

open Sys2Proof

/-- The block reports the outcome: a success's triple and memory, a failure's kind and the sentinel, with no byte changed
from m outside the failure window (R188, R243, R244). -/
def Reports (args : ArgRegs) (m : Memory) (o : RefOutcome) (t : State) : Prop :=
  match o with
  | .success n c r m' =>
    statusNumber t.status = 2 ∧ t.results.samples.toNat = n ∧ t.results.channels.toNat = c ∧
      t.results.rate.toNat = r ∧ t.mem = m'
  | .failure k w =>
    t.status = statusFailed k ∧ t.results = Results.reset ∧
      ∀ x, outsideWindow args w x → memByte t.mem x = memByte m x

/-- The stream has changed no byte of m outside its window. -/
def KeepsOutside (args : ArgRegs) (m : Memory) (st : RefStream) : Prop :=
  ∀ x, outsideWindow args (refWindow st) x → memByte st.mem x = memByte m x

/-- From the next loop head on DecodeStream's frame loop ends with the outcome: its stream stands beside the state, with the
memory that is there when the current frame is written. -/
def LoopLeadsTo (m : Memory) (o : RefOutcome) (s : State) : Prop :=
  ∃ st k, StreamBeside s st ∧ st.mem = headMem s ∧ KeepsOutside s.args m st ∧ s.regs.endp.toNat ≤ headBase s + k ∧
    o = endOutcome s.params (refFrames s.params s.args s.regs.endp.toNat k st)

/-- From where the block stands DecodeStream ends with the outcome; an idle block reports it. -/
def LeadsTo (m : Memory) (o : RefOutcome) (s : State) : Prop :=
  match s.seq with
  | .idle => Reports s.args m o s
  | .streamHdr => s.mem = m ∧ o = refDecodeStream s.params s.args s.mem
  | .frameHdr | .lmsLoad | .sliceLoad | .sample | .frameEnd => LoopLeadsTo m o s
  | .finish => ∃ st, StreamBeside s st ∧ st.mem = s.mem ∧ KeepsOutside s.args m st ∧ o = refFinish s.params st

theorem leadsTo_loop {m : Memory} {o : RefOutcome} {s : State} (hs : s.seq = .frameHdr ∨ s.seq.inFrame = true) :
    LeadsTo m o s ↔ LoopLeadsTo m o s := by
  cases hq : s.seq <;> simp [hq, Seq.inFrame] at hs <;> simp [LeadsTo, hq]

/-- A raise with the outcome's kind and window reports it. -/
theorem leadsTo_raise {s : State} {m : Memory} {w : Nat} (k : ErrKind)
    (h : ∀ x, outsideWindow s.args w x → memByte s.mem x = memByte m x) :
    LeadsTo m (.failure k w) (raiseFault k w s) :=
  ⟨rfl, rfl, fun x hx => (raiseFault_memByte k w s x hx).trans (h x hx)⟩

/-! State by state. -/

theorem leadsTo_streamHdr {m : Memory} {o : RefOutcome} {s t : State} (hs : s.seq = .streamHdr) (h : LeadsTo m o s)
    (ht : stepStreamHdr s = .next t) : LeadsTo m o t := by
  obtain ⟨rfl, rfl⟩ : s.mem = m ∧ o = refDecodeStream s.params s.args s.mem := by simpa [LeadsTo, hs] using h
  rw [stepStreamHdr_eq s hs] at ht
  cases ht
  rw [refDecodeStream_eq]
  split
  · exact leadsTo_raise _ fun _ _ => rfl
  split
  · exact leadsTo_raise _ fun _ _ => rfl
  split
  · exact leadsTo_raise _ fun _ _ => rfl
  split
  · exact leadsTo_raise (s := s.setRegs { s.regs with total := (streamHeaderAt s).total }) _ fun _ _ => rfl
  have hst := streamBeside_start s (streamHeaderAt s)
  have hend : (acceptStream (streamHeaderAt s) s.args s.regs).endp.toNat =
      s.args.inOffset.toNat + s.args.inLength.toNat := w33 _ _
  have hbase := hst.fbase
  refine (leadsTo_loop (.inl rfl)).mpr ⟨_, s.args.inLength.toNat, hst, rfl, fun _ _ => rfl, ?_, by rw [← hend]; rfl⟩
  change (acceptStream (streamHeaderAt s) s.args s.regs).endp.toNat ≤ _
  dsimp only at hbase
  omega

/-- The loop test is DecodeStream's (R182). -/
theorem StreamBeside.frameFollows_iff {s : State} {st : RefStream} (hst : StreamBeside s st) (hs : s.seq = .frameHdr) :
    frameFollows s = true ↔ st.cum < st.total ∧ st.fbase < s.regs.endp.toNat := by
  rw [Machine.frameFollows_iff, hst.cum_atHead hs, hst.fbase_atHead hs, hst.total]

/-- Behind an accepted header the memory DecodeFrame ends with is the engine's at the end of the frame (R164). -/
theorem headMem_accepted {s : State} {st st' : RefStream} (hst : StreamBeside s st) (hs : s.seq = .frameHdr)
    (hmem : st.mem = s.mem) (hk : frameCheckKind (frameHeaderAt s) s = none)
    (he : refDecodeFrame s.params s.args s.regs.endp.toNat st = .ok st') :
    st'.mem = headMem ((s.setRegs (frameRegs s)).setSeq .lmsLoad) := by
  obtain ⟨hc, _, hn, _⟩ := frameHeaderAt_fields s
  obtain ⟨_, _, _, hn5120, _⟩ := frameCheck_none hk
  have hslices : (frameRegs s).fSlices.toNat = ((frameHeaderAt s).samples.toNat + 19) / 20 := sliceCount_toNat hn5120
  rw [(refDecodeFrame_ok he).1, hmem, hst.fbase_atHead hs, hc, hn, ← frameRegs_fCh hk, ← hslices, headMem_lmsLoad rfl]
  exact refSlices_congr (hst.cum_atHead hs) hst.total (hst.fbase_atHead hs) _ _ _

/-- FRAME_HDR on a whole header that completes raises what FRAME_CHECK found, or accepts the frame (R150, R213). -/
theorem stepFrameHdr_checked {s t : State} (hs : s.seq = .frameHdr) (hf : frameFollows s = true)
    (htr : headerTruncated s = false) (ht : stepFrameHdr s = .next t) :
    (∀ k, frameCheckKind (frameHeaderAt s) s = some k → t = raiseFault k (failureWindow s) s) ∧
      (frameCheckKind (frameHeaderAt s) s = none → t = (s.setRegs (frameRegs s)).setSeq .lmsLoad) := by
  rw [stepFrameHdr_eq s hs] at ht
  simp only [hf, htr, Bool.true_eq_false, Bool.false_eq_true, if_false] at ht
  split at ht
  · cases ht
  refine ⟨fun k hk => ?_, fun hk => ?_⟩ <;> (rw [hk] at ht; cases ht; rfl)

/-- Behind an accepted header DecodeStream's frame loop goes on as before it (R182). -/
theorem loopLeadsTo_accepted {m : Memory} {s : State} {st st' : RefStream} {k : Nat}
    (hinv : Inv ((s.setRegs (frameRegs s)).setSeq .lmsLoad))
    (hst : StreamBeside ((s.setRegs (frameRegs s)).setSeq .lmsLoad) st')
    (hmem : st'.mem = headMem ((s.setRegs (frameRegs s)).setSeq .lmsLoad)) (hkeeps : KeepsOutside s.args m st)
    (hk : s.regs.endp.toNat ≤ s.regs.fbase.toNat + (k + 1))
    (he : refDecodeFrame s.params s.args s.regs.endp.toNat st = .ok st') :
    LoopLeadsTo m (endOutcome s.params (refFrames s.params s.args s.regs.endp.toNat k st'))
      ((s.setRegs (frameRegs s)).setSeq .lmsLoad) := by
  have hsize : 32 ≤ (frameHeaderAt s).size.toNat := frameSize_ge hinv rfl
  obtain ⟨hwider, hinside⟩ := refDecodeFrame_window he
  refine ⟨st', k, hst, hmem, fun x hx => (hinside x hx).trans (hkeeps x ?_), ?_, rfl⟩
  · exact hx.imp_right ((Nat.add_le_add_left hwider _).trans)
  · change s.regs.endp.toNat ≤ s.regs.fbase.toNat + (frameHeaderAt s).size.toNat + k
    omega

theorem leadsTo_frameHdr {m : Memory} {o : RefOutcome} {s t : State} (hinv : Inv s) (ho : OutputInv s)
    (hs : s.seq = .frameHdr) (h : LeadsTo m o s) (ht : stepFrameHdr s = .next t) : LeadsTo m o t := by
  obtain ⟨st, k, hst, hmem, hkeeps, hk, rfl⟩ := (leadsTo_loop (.inl hs)).mp h
  rw [headMem_written (.inl hs)] at hmem
  have hwin : refWindow st = failureWindow s := hst.refWindow_eq (by rw [hs]; rfl)
  have hfails : ∀ kind, LeadsTo m (.failure kind (refWindow st)) (raiseFault kind (failureWindow s) s) :=
    fun kind => hwin ▸ leadsTo_raise kind fun x hx => hmem ▸ hkeeps x hx
  cases hf : frameFollows s with
  | false =>
    rw [stepFrameHdr_eq s hs, if_pos hf] at ht
    rw [refFrames_end (mt (hst.frameFollows_iff hs).mpr (by simp [hf]))]
    cases ht
    exact ⟨st, ⟨hst.total, hst.cum_atHead hs, hst.fbase_atHead hs, hst.first, fun _ _ _ => by rw [hmem]; rfl⟩, hmem,
      hkeeps, rfl⟩
  | true =>
    have hloop := (hst.frameFollows_iff hs).mp hf
    have hbase : headBase s = s.regs.fbase.toNat := by rw [headBase, hs]; rfl
    obtain ⟨k, rfl⟩ : ∃ k', k = k' + 1 := Nat.exists_eq_succ_of_ne_zero (by have := hst.fbase; omega)
    rcases hst.refDecodeFrame_cases hs ho hinv with ⟨htr, e⟩ | ⟨htr, kind, hkind, e⟩ | ⟨htr, hkind, m', e, hm'⟩
    · rw [refFrames_of_error hloop e]
      rw [stepFrameHdr_eq s hs, if_neg (by simp [hf]), if_pos htr] at ht
      cases ht
      exact hfails _
    · rw [refFrames_of_error hloop e, (stepFrameHdr_checked hs hf htr ht).1 kind hkind]
      exact hfails _
    · have hframe := inv_frameHdr hinv hs ht
      rw [(stepFrameHdr_checked hs hf htr ht).2 hkind] at hframe ⊢
      rw [refFrames_of_ok hloop e]
      exact (leadsTo_loop (.inr rfl)).mpr (loopLeadsTo_accepted hframe
        (streamBeside_accepted hst hs ho hframe hm' (frameRegs_fCh hkind)) (headMem_accepted hst hs hmem hkind e) hkeeps
        (hbase ▸ hk) e)

theorem leadsTo_inFrame {m : Memory} {o : RefOutcome} {s t : State} (hinv : Inv s) (ho : OutputInv s)
    (hs : s.seq.inFrame = true) (h : LeadsTo m o s) (ht : engineStep s = .next t) : LeadsTo m o t := by
  obtain ⟨st, k, hst, hmem, hkeeps, hk, rfl⟩ := (leadsTo_loop (.inr hs)).mp h
  obtain ⟨hparams, hargs⟩ := sameSetup_engine ht
  have hsame := sameHead_engine hinv hs ht
  have hst' := hsame.streamBeside hst hs (hinv.frame hs).first hargs fun x hx =>
    (engineStep_move hinv ht).keeps_input ho hx
  exact (leadsTo_loop hsame.seq).mpr ⟨st, k, hst', hmem.trans (headMem_engine hinv hs ht).symm, by rwa [hargs],
    by rwa [hsame.endp, hsame.fbase], by rw [hparams, hargs, hsame.endp]⟩

/-- STREAM_FINISH on the stream beside the state (R186). -/
theorem StreamBeside.refFinish_eq {s : State} {st : RefStream} (hst : StreamBeside s st) (hs : s.seq = .finish) :
    refFinish s.params st =
      if finishCheckFails s = true then .failure .totalSampleMismatch (failureWindow s)
      else .success (min s.regs.cum.toNat s.regs.total.toNat) s.regs.sCh.toNat s.regs.sRate.toNat st.mem := by
  have hcum : st.cum = s.regs.cum.toNat := by rw [hst.cum, headCum, hs]; rfl
  have hwin : refWindow st = failureWindow s := hst.refWindow_eq (by rw [hs]; rfl)
  simp only [finishCheckFails_iff, refFinish, hst.first, hwin, hcum, hst.total]
  cases hf : s.regs.first with
  | false => simp [failureWindow, hf]
  | true => simp

theorem leadsTo_finish {m : Memory} {o : RefOutcome} {s t : State} (hs : s.seq = .finish) (h : LeadsTo m o s)
    (ht : stepFinish s = .next t) : LeadsTo m o t := by
  obtain ⟨st, hst, hmem, hkeeps, rfl⟩ :
      ∃ st, StreamBeside s st ∧ st.mem = s.mem ∧ KeepsOutside s.args m st ∧ o = refFinish s.params st := by
    simpa [LeadsTo, hs] using h
  have hwin : refWindow st = failureWindow s := hst.refWindow_eq (by rw [hs]; rfl)
  rw [stepFinish_eq] at ht
  cases ht
  rw [hst.refFinish_eq hs]
  split
  · exact hwin ▸ leadsTo_raise _ fun x hx => hmem ▸ hkeeps x hx
  · exact ⟨rfl, finishSamples_toNat s, rfl, rfl, hmem.symm⟩

/-- Every engine step keeps the outcome the decode leads to. -/
theorem leadsTo_engine {m : Memory} {o : RefOutcome} {s t : State} (hinv : Inv s) (ho : OutputInv s) (h : LeadsTo m o s)
    (ht : engineStep s = .next t) : LeadsTo m o t := by
  cases hs : s.seq with
  | lmsLoad | sliceLoad | sample | frameEnd => exact leadsTo_inFrame hinv ho (by simp [hs, Seq.inFrame]) h ht
  | idle => rw [engineStep_idle hs] at ht; cases ht; exact h
  | streamHdr => exact leadsTo_streamHdr hs h (engineStep_streamHdr hs ▸ ht)
  | frameHdr => exact leadsTo_frameHdr hinv ho hs h (engineStep_frameHdr hs ▸ ht)
  | finish => exact leadsTo_finish hs h (engineStep_finish hs ▸ ht)

/-! No refusal inside the contract of R79. -/

/-- The engine refuses a step only in SAMPLE, for a byte of the frame's window that is an input byte (R79). -/
theorem engineStep_refused {s : State} {r : Refusal} (hinv : Inv s) (h : engineStep s = .refused r) :
    s.seq = .sample ∧ ∃ x, s.args.outOffset.toNat ≤ x ∧ x < s.args.outOffset.toNat + frameWindow s ∧
      inInputRegion s x = true := by
  cases hs : s.seq with
  | idle => rw [engineStep_idle hs] at h; cases h
  | streamHdr => rw [engineStep_streamHdr hs, stepStreamHdr_eq s hs] at h; cases h
  | frameHdr =>
    rw [engineStep_frameHdr hs, stepFrameHdr_eq s hs] at h
    split_ifs at h
    split at h <;> cases h
  | lmsLoad => rw [engineStep_lmsLoad hs, stepLmsLoad_eq] at h; split_ifs at h
  | sliceLoad => rw [engineStep_sliceLoad hs, stepSliceLoad_eq] at h; split_ifs at h
  | frameEnd => rw [engineStep_frameEnd hs, stepFrameEnd_eq] at h; cases h
  | finish => rw [engineStep_finish hs, stepFinish_eq] at h; cases h
  | sample =>
    refine ⟨rfl, ?_⟩
    have hchans := frameChannels hinv (by rw [hs]; rfl)
    obtain ⟨hch, _, hj⟩ := sample_position hinv hs
    obtain ⟨l, hl⟩ := channel_isSome s s.regs.chIdx.toNat (by omega)
    rw [engineStep_sample hs, stepSample_eq hj hl] at h
    rcases execFrameOut_cases (afterSlot l s) with ⟨_, e⟩ | ⟨a, ha, ⟨_, e⟩ | ⟨_, htouch, _⟩ | ⟨_, _, _, e⟩⟩
    · rw [e] at h; cases h
    · rw [e] at h; cases h
    · obtain ⟨hlow, hhigh⟩ : s.args.outOffset.toNat ≤ a ∧ a + 2 ≤ s.args.outOffset.toNat + frameWindow s :=
        outputAddr_bounds (s := afterSlot l s) ha hch
      rcases htouch with hin | hin
      · exact ⟨a, hlow, by omega, hin⟩
      · exact ⟨a + 1, by omega, by omega, hin⟩
    · rw [e] at h; cases h

/-- Inside a frame the decode's window holds the frame's. -/
theorem frameWindow_le_outputWindow {m : Memory} {o : RefOutcome} {s : State} (hinv : Inv s) (hs : s.seq.inFrame = true)
    (h : LeadsTo m o s) : frameWindow s ≤ o.outputWindow := by
  obtain ⟨st, k, hst, _, _, _, rfl⟩ := (leadsTo_loop (.inr hs)).mp h
  have hframe := hinv.frame hs
  have hwin : refWindow st = frameWindow s := by
    rw [refWindow, hst.first, if_pos hframe.first, hst.cum, headCum, if_pos hs, hst.total, frameWindow, hframe.channels]
  exact hwin ▸ refWindow_le_outputWindow _ _ _ _ _

/-- Settles O54: every step keeps the outcome DecodeStream leads to, no step of a decode inside R79's contract is refused,
and the idle block the run reaches reports it. -/
theorem sequencerComputesDecodeStream : Obligations.SequencerComputesDecodeStream := by
  intro s hinv hs hsched hclear
  generalize ho : refDecodeStream s.params s.args s.mem = o
  have hkept : ∀ {u t : State}, Inv u → (sameSetup s u ∧ OutputInv u ∧ LeadsTo s.mem o u) → engineStep u = .next t →
      (sameSetup s t ∧ OutputInv t ∧ LeadsTo s.mem o t) := fun hu ⟨hset, hout, hleads⟩ ht =>
    have hset' := sameSetup_engine ht
    ⟨⟨hset'.1.trans hset.1, hset'.2.trans hset.2⟩, outputInv_engine hu hout ht, leadsTo_engine hu hout hleads ht⟩
  have hstart : LeadsTo s.mem o s := by simp [LeadsTo, hs, ho]
  have hwork : workLeft s = 3 * s.args.inLength.toNat + 3 := by simp [workLeft, hs]
  obtain ⟨k, hk, ⟨t, hrun, _, hidle, hset, _, hleads⟩ | ⟨u, _, hu, ⟨hset, _, hleads⟩, hrefused, _⟩⟩ :=
    run_reaches_idle_or_overlaps hkept _ hwork.le hinv hsched
      ⟨⟨rfl, rfl⟩, outputInv_of_not_inStream (by rw [hs]; rfl), hstart⟩
  · have hreports : Reports s.args s.mem o t := by
      rw [← hset.2]
      simpa [LeadsTo, hidle] using hleads
    refine ⟨k, t, hk, hrun, hidle, ?_⟩
    cases o with
    | success n c r m =>
      obtain ⟨hstatus, hn, hc, hr, rfl⟩ := hreports
      exact ⟨hstatus, hn, hc, hr, fun _ => rfl⟩
    | failure kind w => exact hreports
  · obtain ⟨hsample, x, hlow, hhigh, hin⟩ := engineStep_refused hu hrefused
    have hwindow := frameWindow_le_outputWindow hu (by rw [hsample]; rfl) hleads
    rw [outputClearOfInput, ho] at hclear
    rw [inInputRegion, hset.2] at hin
    rw [hset.2] at hlow hhigh
    exact absurd (hin.symm.trans (hclear x hlow (by omega))) (by simp)

end Sys2Proof.Machine

/-! SUPPORT. Register accesses (O33 to O38): what a read answers and what a write does at every offset (R210, R219 to R221),
and that only START leaves IDLE (O49). -/

namespace Sys2Proof.Machine

open Sys2Proof

/-! Writes to CTRL and to the argument registers (R210, R220). -/

theorem getLsbD_zero_eq_true {v : Word} : v.getLsbD 0 = true ↔ v.toNat % 2 = 1 := by
  rw [BitVec.getLsbD, Nat.testBit_zero, decide_eq_true_eq]

/-- START on an idle block begins a decode. -/
theorem writeCtrl_start {v : Word} {s : State} (hv : v.toNat % 2 = 1) (hb : s.status.busy = false) :
    writeCtrl v s = startDecode s := by
  rw [writeCtrl, getLsbD_zero_eq_true.mpr hv, hb]
  rfl

/-- Any other write to CTRL has no effect. -/
theorem writeCtrl_ignored {v : Word} {s : State} (h : s.status.busy = true ∨ v.toNat % 2 ≠ 1) : writeCtrl v s = s := by
  rcases writeCtrl_cases v s with ⟨hv, hb, _⟩ | ⟨_, hsame⟩
  · rcases h with h | h
    · exact absurd (h.symm.trans hb) (by decide)
    · exact absurd (getLsbD_zero_eq_true.mp hv) h
  · exact hsame

theorem writeArgs_busy {s : State} (hb : s.status.busy = true) (x : ArgRegs) : writeArgs x s = s := if_pos hb

theorem writeArgs_idle {s : State} (hb : s.status.busy = false) (x : ArgRegs) : writeArgs x s = { s with args := x } := by
  rw [writeArgs, hb]
  rfl

/-- Settles O33: an idle block starts, and every other write to CTRL is ignored. -/
theorem startBeginsADecodeOnAnIdleBlock : Obligations.StartBeginsADecodeOnAnIdleBlock := by
  refine ⟨fun v s hv hb => ?_, fun v s _ hb => ?_, fun v s hv => ?_⟩
  · exact ⟨startDecode s, congrArg _ (writeCtrl_start hv hb), rfl, rfl, rfl, rfl⟩
  · exact congrArg _ (writeCtrl_ignored (.inl hb))
  · exact congrArg _ (writeCtrl_ignored (.inr (by omega)))

/-- Settles O36: each argument write is `writeArgs` of its register. -/
theorem argumentWritesOnlyWhileIdle : Obligations.ArgumentWritesOnlyWhileIdle := by
  refine fun v s => ⟨fun hb => ?_, fun hb => ?_⟩
  · exact ⟨congrArg _ (writeArgs_idle hb _), congrArg _ (writeArgs_idle hb _), congrArg _ (writeArgs_idle hb _)⟩
  · exact ⟨congrArg _ (writeArgs_busy hb _), congrArg _ (writeArgs_busy hb _), congrArg _ (writeArgs_busy hb _)⟩

/-- Settles O37: each of the five operations answers the state it was given. -/
theorem ignoredWritesChangeNothing : Obligations.IgnoredWritesChangeNothing :=
  fun _ _ _ => ⟨rfl, rfl, rfl, rfl, rfl⟩

/-! Register reads (R219). -/

theorem toNat_append_eq_add {m n : Nat} (x : BitVec m) (y : BitVec n) :
    (x ++ y).toNat = x.toNat * 2 ^ n + y.toNat := by
  rw [BitVec.toNat_append, ← Nat.shiftLeft_add_eq_or_of_lt y.isLt, Nat.shiftLeft_eq]

/-- The fields of STATUS stand where R23 puts them. -/
theorem Status.word_toNat (t : Status) : t.word.toNat = statusNumber t := by
  simp only [Status.word, statusNumber, toNat_append_eq_add, BitVec.toNat_ofBool, BitVec.toNat_zero]
  omega

/-- Settles O34: each read answers its register, STATUS and the narrow result registers with their reserved bits 0. -/
theorem registerReadsComplete : Obligations.RegisterReadsComplete := by
  intro s off
  refine ⟨?_, ?_, ?_, ?_, ?_, ?_, ?_, ?_, ?_⟩
  · exact ⟨_, rfl, Status.word_toNat s.status, rfl⟩
  · exact ⟨_, rfl, rfl, rfl⟩
  · exact ⟨_, rfl, rfl, rfl⟩
  · exact ⟨_, rfl, rfl, rfl⟩
  · exact ⟨_, rfl, rfl, rfl⟩
  · exact ⟨_, rfl, BitVec.toNat_setWidth_of_le (b := s.results.channels) (by decide), rfl⟩
  · exact ⟨_, rfl, BitVec.toNat_setWidth_of_le (b := s.results.rate) (by decide), rfl⟩
  · exact ⟨_, rfl, rfl, rfl⟩
  · exact ⟨_, rfl, rfl, rfl⟩

/-- A read at an aligned offset answers the register there and changes nothing else. -/
theorem exec_decodeRead {off : BitVec 8} (hoff : off.toNat % 4 = 0) (s : State) :
    ∃ x, exec (decodeRead off) s = .next (respond x s) ∧ x.toNat = registerNumber off.toNat s := by
  rcases registerOffset_cases hoff with h | rfl | rfl | rfl | rfl | rfl | rfl | rfl | rfl
  · have hlow := (reservedOffset_iff.mp h).1
    rw [decodeRead_reserved h]
    refine ⟨0#32, rfl, ?_⟩
    unfold registerNumber
    repeat rw [if_neg (by omega)]
    rfl
  · exact ⟨_, rfl, rfl⟩
  · exact ⟨_, rfl, Status.word_toNat s.status⟩
  · exact ⟨_, rfl, rfl⟩
  · exact ⟨_, rfl, rfl⟩
  · exact ⟨_, rfl, rfl⟩
  · exact ⟨_, rfl, rfl⟩
  · exact ⟨_, rfl, BitVec.toNat_setWidth_of_le (b := s.results.channels) (by decide)⟩
  · exact ⟨_, rfl, BitVec.toNat_setWidth_of_le (b := s.results.rate) (by decide)⟩

/-- While BUSY the registers from RES_SAMPLES on read 0: the results are the sentinel (R27). -/
theorem registerNumber_results_busy {s : State} {off : Nat} (h : Inv s) (hb : s.status.busy = true) (hoff : 0x14 ≤ off) :
    registerNumber off s = 0 := by
  have hresults : s.results = Results.reset :=
    h.results.sentinel fun ⟨hdone, _⟩ => h.status.notBoth ⟨hb, hdone⟩
  unfold registerNumber
  rw [hresults, if_neg (by omega), if_neg (by omega), if_neg (by omega), if_neg (by omega)]
  repeat' split
  all_goals rfl

/-! Register writes (R210, R220, R221). -/

/-- What a write of v at an aligned offset leaves (R91, R92). -/
def registerWritten (off : Nat) (v : Word) (s : State) : State :=
  if off = 0x00 then writeCtrl v s
  else if off = 0x08 then writeArgs { s.args with inOffset := v } s
  else if off = 0x0C then writeArgs { s.args with inLength := v } s
  else if off = 0x10 then writeArgs { s.args with outOffset := v } s
  else s

theorem exec_decodeWrite {off : BitVec 8} (hoff : off.toNat % 4 = 0) (v : Word) (s : State) :
    exec (decodeWrite off v) s = .next (registerWritten off.toNat v s) := by
  rcases registerOffset_cases hoff with h | rfl | rfl | rfl | rfl | rfl | rfl | rfl | rfl
  · have hlow := (reservedOffset_iff.mp h).1
    rw [decodeWrite_reserved h]
    unfold registerWritten
    repeat rw [if_neg (by omega)]
    rfl
  · cases hv : v.getLsbD 0 with
    | true => rw [decodeWrite_start hv]; rfl
    | false => rw [decodeWrite_ctrlNop hv]; rfl
  all_goals rfl

/-- While BUSY no write takes effect. -/
theorem registerWritten_busy {s : State} (hb : s.status.busy = true) (off : Nat) (v : Word) : registerWritten off v s = s := by
  unfold registerWritten
  rw [writeCtrl_ignored (.inl hb)]
  simp only [writeArgs_busy hb, ite_self]

/-- On an idle block a write starts a decode, writes one argument register, or does nothing. -/
theorem registerWritten_idle {s : State} (hb : s.status.busy = false) (off : Nat) (v : Word) :
    registerWritten off v s =
      if off = 0 ∧ v.toNat % 2 = 1 then startDecode s
      else if off = 0x08 then { s with args := { s.args with inOffset := v } }
      else if off = 0x0C then { s with args := { s.args with inLength := v } }
      else if off = 0x10 then { s with args := { s.args with outOffset := v } }
      else s := by
  unfold registerWritten
  simp only [writeArgs_idle hb]
  by_cases hoff : off = 0
  · subst hoff
    by_cases hv : v.toNat % 2 = 1
    · rw [if_pos rfl, if_pos ⟨rfl, hv⟩, writeCtrl_start hv hb]
    · rw [if_pos rfl, if_neg fun h => hv h.2, writeCtrl_ignored (.inr hv)]
      rfl
  · simp only [hoff, false_and, if_false]

/-! Accesses on the bus (R28, R92). -/

/-- A 32-bit access at an aligned offset of the window runs the operation of its direction and offset. -/
theorem busStep_aligned {s : State} {off : Nat} (hlt : off < 256) (halign : off % 4 = 0) (w : Bool) (v : Word) :
    busStep ⟨s.params.regBase + off, 32, w, v⟩ s =
      exec (if w then decodeWrite (BitVec.ofNat 8 off) v else decodeRead (BitVec.ofNat 8 off)) s := by
  have hoff : (BitVec.ofNat 8 off).toNat = off := Nat.mod_eq_of_lt hlt
  refine busStep_of_decodeBus rfl (Nat.le_add_right _ _) (Nat.add_lt_add_left hlt _) ?_
  rw [accessWord, Nat.add_sub_cancel_left]
  exact decodeBus_busWord _ _ _ (by rwa [hoff])

theorem busStep_write {s : State} {off : Nat} (hlt : off < 256) (halign : off % 4 = 0) (v : Word) :
    busStep ⟨s.params.regBase + off, 32, true, v⟩ s = .next (registerWritten off v s) := by
  have hoff : (BitVec.ofNat 8 off).toNat = off := Nat.mod_eq_of_lt hlt
  rw [busStep_aligned hlt halign, if_pos rfl, exec_decodeWrite (by rwa [hoff]), hoff]

theorem busStep_read {s : State} {off : Nat} (hlt : off < 256) (halign : off % 4 = 0) (v : Word) :
    ∃ x, busStep ⟨s.params.regBase + off, 32, false, v⟩ s = .next (respond x s) ∧ x.toNat = registerNumber off s := by
  have hoff : (BitVec.ofNat 8 off).toNat = off := Nat.mod_eq_of_lt hlt
  obtain ⟨x, hx, hnum⟩ := exec_decodeRead (off := BitVec.ofNat 8 off) (by rwa [hoff]) s
  exact ⟨x, (busStep_aligned hlt halign false v).trans hx, by rwa [hoff] at hnum⟩

/-- An access that completes is 32 bits wide, at an aligned offset of the window (R28, R256). -/
theorem busStep_next_access {a : BusAccess} {s t : State} (h : busStep a s = .next t) :
    ∃ off, off < 256 ∧ off % 4 = 0 ∧ a = ⟨s.params.regBase + off, 32, a.write, a.data⟩ := by
  rcases busStep_cases a s with ⟨_, h'⟩ | ⟨_, _, h'⟩ | ⟨hbits, hlow, hhigh, h'⟩ <;> rw [h'] at h
  · cases h
  · cases h
  · have hoff : (BitVec.ofNat 8 (a.addr - s.params.regBase)).toNat = a.addr - s.params.regBase :=
      Nat.mod_eq_of_lt (by omega)
    have halign : (a.addr - s.params.regBase) % 4 = 0 := by
      by_contra hne
      rw [accessWord, decodeBus_misaligned _ _ _ (by rwa [hoff])] at h
      cases h
    refine ⟨a.addr - s.params.regBase, by omega, halign, ?_⟩
    rw [Nat.add_sub_cancel' hlow, ← hbits]

/-- Settles O35: the access of the schedule's head is a read, which answers its register. -/
theorem busReadReturnsTheRegister : Obligations.BusReadReturnsTheRegister := by
  intro s off d rest hp hlt halign hsched
  obtain ⟨x, hstep, hx⟩ := busStep_read (s := s.setSchedule rest) hlt halign d
  have hnum : x.toNat = registerNumber off s := hx
  refine ⟨respond x (s.setSchedule rest), ?_, hnum, fun hinv hb hres => ?_, rfl⟩
  · rw [step_eq_takeTurn hp, hsched]
    exact hstep
  · exact hnum.trans (registerNumber_results_busy hinv hb hres)

/-- Settles O38: the access of the schedule's head is a write, ignored while BUSY. -/
theorem busWriteStartsWritesOrNothing : Obligations.BusWriteStartsWritesOrNothing := by
  intro s off v rest hp hlt halign hsched
  refine ⟨registerWritten off v (s.setSchedule rest), ?_, ?_⟩
  · rw [step_eq_takeTurn hp, hsched]
    exact busStep_write (s := s.setSchedule rest) hlt halign v
  · by_cases hb : s.status.busy = true
    · rw [if_pos hb]
      exact registerWritten_busy (s := s.setSchedule rest) hb off v
    · rw [if_neg hb]
      exact registerWritten_idle (s := s.setSchedule rest) (Bool.eq_false_iff.mpr hb) off v

/-! Leaving IDLE (R211). -/

/-- A register write moves the sequencer only at CTRL with bit 0 = 1. -/
theorem registerWritten_seq {off : Nat} {v : Word} {s : State} (h : (registerWritten off v s).seq ≠ s.seq) :
    off = 0 ∧ v.toNat % 2 = 1 := by
  cases hb : s.status.busy with
  | true => exact absurd (congrArg State.seq (registerWritten_busy hb off v)) h
  | false =>
    by_contra hno
    rw [registerWritten_idle hb, if_neg hno] at h
    repeat' split at h
    all_goals exact h rfl

/-- A register access moves the sequencer only as a write to CTRL with bit 0 = 1. -/
theorem busStep_seq {a : BusAccess} {s t : State} (h : busStep a s = .next t) (hseq : t.seq ≠ s.seq) :
    ∃ v : Word, v.toNat % 2 = 1 ∧ a = ⟨s.params.regBase, 32, true, v⟩ := by
  obtain ⟨off, hlt, halign, ha⟩ := busStep_next_access h
  rw [ha] at h ⊢
  cases hw : a.write with
  | true =>
    rw [hw, busStep_write hlt halign] at h
    cases h
    obtain ⟨rfl, hv⟩ := registerWritten_seq hseq
    exact ⟨a.data, hv, rfl⟩
  | false =>
    obtain ⟨x, hstep, _⟩ := busStep_read (s := s) hlt halign a.data
    rw [hw, hstep] at h
    cases h
    exact absurd rfl hseq

/-- A turn that leaves IDLE is START. -/
theorem takeTurn_leaves_idle {turn : Turn} {s t : State} (h : takeTurn turn s = .next t) (hs : s.seq = .idle)
    (ht : t.seq ≠ .idle) : ∃ v : Word, v.toNat % 2 = 1 ∧ turn = .bus ⟨s.params.regBase, 32, true, v⟩ := by
  cases turn with
  | engine =>
    cases (engineStep_idle hs).symm.trans h
    exact absurd hs ht
  | bus a =>
    obtain ⟨v, hv, rfl⟩ := busStep_seq h fun hsame => ht (hsame.trans hs)
    exact ⟨v, hv, rfl⟩
  | hostWrite a x =>
    obtain ⟨_, rfl⟩ := hostWriteStep_next h
    exact absurd hs ht
  | hostRead a =>
    obtain ⟨k, b, rfl⟩ := hostReadStep_next h
    exact absurd hs ht
  | hardReset =>
    cases h
    exact absurd rfl ht

/-- Settles O49: the invariant ties IDLE to BUSY, and a step is one turn. -/
theorem onlyStartLeavesIdle : Obligations.OnlyStartLeavesIdle := by
  refine fun s hinv => ⟨hinv.idleIff, engineStep_idle, fun hs t hstep ht => ?_⟩
  rw [step_eq_takeTurn hinv.noProbe] at hstep
  obtain ⟨v, hv, hturn⟩ := takeTurn_leaves_idle hstep hs ht
  cases hsched : s.schedule with
  | nil => simp [hsched] at hturn
  | cons turn rest =>
    rw [hsched] at hturn
    exact ⟨v, rest, hv, congrArg (· :: rest) hturn⟩

end Sys2Proof.Machine

/-! SUPPORT. How the sequencer counts inside a frame: channels in LMS_LOAD (O43), slots, channels and slices in SAMPLE (O44). -/

namespace Sys2Proof.Machine

open Sys2Proof

/-! The tests a counting state makes, as numbers. -/

/-- In a frame the test for the last channel is exact. -/
theorem lastChannel_iff {s : State} (h : Inv s) (hs : s.seq.inFrame = true) (hc : s.regs.chIdx.toNat < s.regs.fCh.toNat) :
    s.regs.chIdx + 1 = s.regs.fCh ↔ s.regs.chIdx.toNat + 1 = s.regs.fCh.toNat := by
  rw [← BitVec.toNat_inj, chIdx_succ h hs hc]

/-- In a frame the test for the last slice is exact. -/
theorem lastSlice_iff {s : State} (h : Inv s) (hs : s.seq.inFrame = true) (hc : s.regs.slIdx.toNat < s.regs.fSlices.toNat) :
    s.regs.slIdx + 1 = s.regs.fSlices ↔ s.regs.slIdx.toNat + 1 = s.regs.fSlices.toNat := by
  rw [← BitVec.toNat_inj, slIdx_succ h hs hc]

/-- J, counted up, is 20 after slot 19. -/
theorem lastSlot_iff {j : BitVec 5} : j + 1 = 20#5 ↔ j.toNat = 19 := by
  bv_omega

/-! LMS_LOAD (R214). -/

/-- In LMS_LOAD the channel exists. -/
theorem lmsLoad_position {s : State} (h : Inv s) (hs : s.seq = .lmsLoad) : s.regs.chIdx.toNat < s.regs.fCh.toNat := by
  have hpos := h.position
  simpa only [PositionInv, hs] using hpos

/-- From the invariant LMS_LOAD completes: its record lies in MEM and its channel exists (R153, R157). -/
theorem stepLmsLoad_completes {s : State} (h : Inv s) (hs : s.seq = .lmsLoad) :
    stepLmsLoad s = .next (afterLmsLoad (setChannel s s.regs.chIdx.toNat (loadRecord (lmsRecordAt s)))) := by
  have hframe : s.seq.inFrame = true := by rw [hs]; rfl
  have hchans := frameChannels h hframe
  have hrecords := frameRecords_inside h hframe
  have hch := lmsLoad_position h hs
  rw [stepLmsLoad_eq, lmsRecordAddr, if_neg (by omega), if_neg (by omega)]

/-- Settles O43: the record of channel CH_IDX is loaded, then the next channel or the first slice follows. -/
theorem lmsLoadCountsChannels : Obligations.LmsLoadCountsChannels := by
  intro s hinv hs
  have hframe : s.seq.inFrame = true := by rw [hs]; rfl
  have hchans := frameChannels hinv hframe
  have hch := lmsLoad_position hinv hs
  have hlast := lastChannel_iff hinv hframe hch
  have hnext := chIdx_succ hinv hframe hch
  obtain ⟨l, hl⟩ := channel_isSome s s.regs.chIdx.toNat (by omega)
  let u := setChannel s s.regs.chIdx.toNat (loadRecord (lmsRecordAt s))
  refine ⟨afterLmsLoad u, lmsRecordAt s, u, (engineStep_lmsLoad hs).trans (stepLmsLoad_completes hinv hs),
    exec_lmsLoad_eq _ hl, decode_of_length .lmsRecord _ (memBytes_length _ _ _), ?_, fun h => ?_, fun h => ?_⟩
  · obtain ⟨r, q, hmoves⟩ := afterLmsLoad_moves u
    rw [hmoves]
    rfl
  · rw [afterLmsLoad_last (s := u) (hlast.mpr h)]
    exact ⟨rfl, rfl⟩
  · rw [afterLmsLoad_more (s := u) (mt hlast.mp h)]
    exact ⟨hs, hnext, rfl⟩

/-! SAMPLE (R216). -/

/-- The next-state assignment of SAMPLE writes SEQ and the sequencer registers alone. -/
theorem afterSample_moves (s : State) : ∃ r q, afterSample s = (s.setRegs r).setSeq q := by
  by_cases hj : s.regs.j = 20#5
  · by_cases hc : s.regs.chIdx + 1 = s.regs.fCh
    · exact ⟨_, _, afterSample_nextSlice hj hc⟩
    · exact ⟨_, _, afterSample_nextChannel hj hc⟩
  · exact ⟨s.regs, s.seq, afterSample_stay hj⟩

/-- Settles O44: J has moved on by one; the slot, the channel and the slice decide where the sequencer goes. -/
theorem sampleCountsSlotsChannelsSlices : Obligations.SampleCountsSlotsChannelsSlices := by
  intro s t hinv hs ht
  have hframe : s.seq.inFrame = true := by rw [hs]; rfl
  have hchans := frameChannels hinv hframe
  obtain ⟨hch, hsl, hj⟩ := sample_position hinv hs
  have hlast := lastChannel_iff hinv hframe hch
  have hdone := lastSlice_iff hinv hframe hsl
  obtain ⟨l, hl⟩ := channel_isSome s s.regs.chIdx.toNat (by omega)
  rw [engineStep_sample hs, stepSample_eq hj hl] at ht
  obtain ⟨u, hu, hnext⟩ := andThen_eq_next ht
  cases hnext
  obtain ⟨m, rfl⟩ := execFrameOut_next hu
  let v := (afterSlot l s).setMem m
  have hregs : v.regs = { s.regs with j := s.regs.j + 1 } := rfl
  refine ⟨⟨afterSlot l s, v, exec_sampleStep_eq hj hl, hu, ?_⟩, fun h => ?_, fun h hc => ?_, fun h hc => ?_⟩
  · obtain ⟨r, q, hmoves⟩ := afterSample_moves v
    rw [hmoves]
    exact ⟨rfl, rfl, rfl⟩
  · rw [afterSample_stay (s := v) (mt lastSlot_iff.mp (by omega))]
    exact ⟨hs, afterSlot_j_toNat l hj, rfl⟩
  · have hmore : v.regs.slIdx ≠ v.regs.fSlices := fun e => Nat.ne_of_lt hsl (congrArg BitVec.toNat e)
    rw [afterSample_nextChannel (s := v) (lastSlot_iff.mpr h) (mt hlast.mp (by omega)), if_neg hmore, hregs,
      lastSlot_iff.mpr h]
    exact ⟨rfl, chIdx_succ hinv hframe hch, rfl⟩
  · rw [afterSample_nextSlice (s := v) (lastSlot_iff.mpr h) (hlast.mpr hc), hregs, lastSlot_iff.mpr h]
    refine ⟨slIdx_succ hinv hframe hsl, rfl, fun hslice => ?_, fun hslice => ?_⟩
    · exact if_neg (mt hdone.mp (by omega))
    · exact if_pos (hdone.mpr hslice)

end Sys2Proof.Machine

/-! SUPPORT. Failures (O31, O32): what a raise records (R240, R243), which engine steps end a decode in failure and what they
do to the failure window (R244). The register accesses outside the interface (O40) are refused beside them (R256). -/

namespace Sys2Proof.Machine

open Sys2Proof

/-! What a raise records (R240, R243). -/

/-- Settles O31: STATUS shows each kind's code of R240, and a raise writes STATUS, the results, SEQ and the window alone. -/
theorem failureRecordsOnlyTheKind : Obligations.FailureRecordsOnlyTheKind :=
  fun k n s => ⟨by cases k <;> rfl, rfl, rfl, raiseFault_memByte k n s, rfl⟩

/-- A raise whose window lies in MEM sets each byte of it to a free value not used before (R244, log 13). -/
theorem raiseFault_memByte_inside (k : ErrKind) {n i : Nat} {s : State}
    (hmem : s.args.outOffset.toNat + n ≤ s.params.memSize) (hi : i < n) :
    ∃ j, s.freeCtr ≤ j ∧ j < (raiseFault k n s).freeCtr ∧
      memByte (raiseFault k n s).mem (s.args.outOffset.toNat + i) = Config.freeByte j := by
  have hall : freedBytes n s = n := Nat.min_eq_left (by omega)
  rw [raiseFault_eq, hall]
  exact ⟨s.freeCtr + i, Nat.le_add_right _ _, Nat.add_lt_add_left hi _, memByte_memFree_inside _ _ _ _ _ hi⟩

/-! The engine steps that end in failure (R244). -/

/-- A block whose STATUS shows an error is idle (R23). -/
theorem idle_of_error {s : State} (h : Inv s) (he : s.status.error = true) : s.seq = .idle := by
  by_contra hs
  exact h.status.notBoth ⟨busy_of h hs, (h.status.errorDone he).1⟩

/-- How many bytes from OUT_OFFSET a failure of the next engine step leaves unspecified; none before a frame was accepted,
and FIRST speaks of the running decode only once its stream header was read (R180, R244). -/
def failedBytes (s : State) : Nat :=
  if s.seq ≠ .streamHdr ∧ s.regs.first = true then 2 * s.regs.sCh.toNat * min s.regs.cum.toNat s.regs.total.toNat else 0

theorem failedBytes_streamHdr {s : State} (hs : s.seq = .streamHdr) : failedBytes s = 0 := if_neg fun h => h.1 hs

theorem failedBytes_eq_failureWindow {s : State} (hs : s.seq ≠ .streamHdr) : failedBytes s = failureWindow s := by
  simp [failedBytes, failureWindow, hs]

/-- A failure's window lies in MEM (R156). -/
theorem failedBytes_inside {s : State} (h : Inv s) (hs : s.seq ≠ .idle) (hpos : 0 < failedBytes s) :
    s.args.outOffset.toNat + failedBytes s ≤ s.params.memSize := by
  unfold failedBytes at hpos ⊢
  split at hpos
  · next hframe =>
    rw [if_pos hframe]
    have hstream : s.seq.inStream = true := by
      cases hq : s.seq with
      | idle => exact absurd hq hs
      | streamHdr => exact absurd hq hframe.1
      | frameHdr | lmsLoad | sliceLoad | sample | frameEnd | finish => rfl
    exact (h.stream hstream).writtenInside hframe.2
  · omega

/-- t is s with a fault raised over the failure window; of the sequencer's registers the failing step may have written
some (R180 writes TOTAL before its check). -/
def FailsFrom (s t : State) : Prop := ∃ k r, t = raiseFault k (failedBytes s) (s.setRegs r)

theorem failsFrom_raise_streamHdr {s : State} (hs : s.seq = .streamHdr) (k : ErrKind) (r : SeqRegs) :
    FailsFrom s (raiseFault k 0 (s.setRegs r)) :=
  ⟨k, r, by rw [failedBytes_streamHdr hs]⟩

theorem failsFrom_raise_later {s : State} (hs : s.seq ≠ .streamHdr) (k : ErrKind) :
    FailsFrom s (raiseFault k (failureWindow s) s) :=
  ⟨k, s.regs, by rw [failedBytes_eq_failureWindow hs]; rfl⟩

/-- STREAM_HDR ends in IDLE by a failed check of R180 only. -/
theorem stepStreamHdr_fails {s t : State} (hs : s.seq = .streamHdr) (ht : stepStreamHdr s = .next t)
    (hidle : t.seq = .idle) : FailsFrom s t := by
  rw [stepStreamHdr_eq s hs] at ht
  split at ht
  · cases ht; exact failsFrom_raise_streamHdr hs _ s.regs
  split at ht
  · cases ht; exact failsFrom_raise_streamHdr hs _ s.regs
  split at ht
  · cases ht; exact failsFrom_raise_streamHdr hs _ s.regs
  split at ht
  · cases ht; exact failsFrom_raise_streamHdr hs _ _
  · cases ht; cases hidle

/-- FRAME_HDR ends in IDLE by a header cut short or a failed check of R151 only. -/
theorem stepFrameHdr_fails {s t : State} (hs : s.seq = .frameHdr) (ht : stepFrameHdr s = .next t)
    (hidle : t.seq = .idle) : FailsFrom s t := by
  have hlater : s.seq ≠ .streamHdr := by simp [hs]
  rw [stepFrameHdr_eq s hs] at ht
  split at ht
  · cases ht; cases hidle
  split at ht
  · cases ht; exact failsFrom_raise_later hlater _
  split at ht
  · cases ht
  split at ht
  · cases ht; exact failsFrom_raise_later hlater _
  · cases ht; cases hidle

/-- STREAM_FINISH ends with ERROR set by its check only (R186). -/
theorem stepFinish_fails {s t : State} (hs : s.seq = .finish) (ht : stepFinish s = .next t)
    (he : t.status.error = true) : FailsFrom s t := by
  have hlater : s.seq ≠ .streamHdr := by simp [hs]
  rw [stepFinish_eq] at ht
  split at ht
  · cases ht; exact failsFrom_raise_later hlater _
  · cases ht; cases he

/-- An engine step of a running decode that ends with ERROR set raised a fault over the failure window: no step inside a
frame completes the decode. -/
theorem engineStep_fails {s t : State} (h : Inv s) (hs : s.seq ≠ .idle) (ht : engineStep s = .next t)
    (he : t.status.error = true) : FailsFrom s t := by
  have hidle : t.seq = .idle := idle_of_error (inv_engine h ht) he
  cases hq : s.seq with
  | idle => exact absurd hq hs
  | streamHdr => exact stepStreamHdr_fails hq (engineStep_streamHdr hq ▸ ht) hidle
  | frameHdr => exact stepFrameHdr_fails hq (engineStep_frameHdr hq ▸ ht) hidle
  | finish => exact stepFinish_fails hq (engineStep_finish hq ▸ ht) he
  | lmsLoad | sliceLoad | sample | frameEnd =>
    have hstays := (sameHead_engine h (by simp [hq, Seq.inFrame]) ht).seq
    simp [hidle, Seq.inFrame] at hstays

/-- Settles O32: the failing step raised a fault over the failure window, which from the invariant lies in MEM. -/
theorem failureWindowIsUnspecified : Obligations.FailureWindowIsUnspecified := by
  intro s t h hs ht he
  obtain ⟨k, r, rfl⟩ := engineStep_fails h hs ht he
  refine ⟨raiseFault_memByte k (failedBytes s) (s.setRegs r), fun i hi => ?_⟩
  have hmem := failedBytes_inside h hs (Nat.zero_lt_of_lt hi)
  exact raiseFault_memByte_inside k (s := s.setRegs r) hmem hi

/-! Register accesses outside the interface (R256). -/

theorem busStep_badWidth {a : BusAccess} (h : a.bits ≠ 32) (s : State) : busStep a s = .refused (.badWidth a.bits) :=
  if_pos h

/-- A 32-bit access in the window at an offset that is no multiple of 4 decodes to no operation. -/
theorem busStep_misaligned {a : BusAccess} {s : State} (hbits : a.bits = 32) (hlow : s.params.regBase ≤ a.addr)
    (hhigh : a.addr < s.params.regBase + 256) (halign : (a.addr - s.params.regBase) % 4 ≠ 0) :
    busStep a s = .refused (.badEncoding .misalignedOffset) := by
  rcases busStep_cases a s with ⟨hne, _⟩ | ⟨_, hout, _⟩ | ⟨_, _, _, hrun⟩
  · exact absurd hbits hne
  · omega
  · have hoff : (BitVec.ofNat 8 (a.addr - s.params.regBase)).toNat = a.addr - s.params.regBase :=
      Nat.mod_eq_of_lt (by omega)
    rw [hrun, accessWord, decodeBus_misaligned _ _ _ (by rwa [hoff]), runDecoded_error]

/-- Settles O40: the step is the access of the schedule's head, refused for its width or its offset. -/
theorem accessOutsideTheInterfaceIsRefused : Obligations.AccessOutsideTheInterfaceIsRefused := by
  intro s a rest hp hsched
  have hstep : step s = busStep a (s.setSchedule rest) := by rw [step_eq_takeTurn hp, hsched]; rfl
  rw [hstep]
  exact ⟨fun hbits => busStep_badWidth hbits _, busStep_misaligned (s := s.setSchedule rest)⟩

end Sys2Proof.Machine

/-! The outside's moves (R270, R271, R280, R284): register writes on a busy block (O39), hardware reset (O56) and host writes
of MEM (O57). -/

namespace Sys2Proof.Machine

open Sys2Proof

/-- Without an operation presented alone, the step of a scheduled turn is that turn. -/
theorem step_scheduled {s : State} {turn : Turn} {rest : List Turn} (hp : s.probe = none)
    (hsched : s.schedule = turn :: rest) : step s = takeTurn turn (s.setSchedule rest) := by
  rw [step_eq_takeTurn hp, hsched]
  rfl

/-! Register writes while BUSY (R284). -/

/-- A register write that completes on a busy block changes nothing (R210, R220, R221). -/
theorem busStep_write_busy {a : BusAccess} {s t : State} (hb : s.status.busy = true) (hw : a.write = true)
    (h : busStep a s = .next t) : t = s := by
  obtain ⟨off, hlt, halign, ha⟩ := busStep_next_access h
  rw [ha, hw, busStep_write hlt halign, registerWritten_busy hb] at h
  exact (Host.Outcome.next.inj h).symm

/-- Settles O39: the step is the write of the schedule's head, on the same busy block. -/
theorem busyBlockIgnoresEveryWrite : Obligations.BusyBlockIgnoresEveryWrite := by
  intro s t a rest hp hb hw hsched hstep
  rw [step_scheduled hp hsched] at hstep
  exact busStep_write_busy (s := s.setSchedule rest) hb hw hstep

/-! Hardware reset (R270, R271). -/

/-- Hardware reset changes no byte of MEM outside the abandoned decode's output window (log 14). -/
theorem hardResetState_memByte {s : State} {x : Nat} (hx : ¬inAcceptedWindow s x) :
    memByte (hardResetState s).mem x = memByte s.mem x := by
  have hfreed : freedBytes (abandonedWindow s) s ≤ abandonedWindow s := Nat.min_le_left _ _
  unfold inAcceptedWindow at hx
  exact memByte_memFree_outside _ _ _ _ _ (by omega)

/-- Settles O56: the step is the reset of the schedule's head. -/
theorem hardwareResetRestoresTheRegisters : Obligations.HardwareResetRestoresTheRegisters := by
  intro s rest hp hsched
  exact ⟨hardResetState (s.setSchedule rest), step_scheduled hp hsched, rfl, rfl, rfl, rfl, rfl, rfl,
    fun x hx => hardResetState_memByte (s := s.setSchedule rest) hx⟩

/-! Host writes of MEM (R280). -/

/-- A host write to a byte of the input region is refused while BUSY (log 17). -/
theorem hostWriteStep_input {s : State} {a : Nat} (v : Byte) (ha : a < s.params.memSize) (hb : s.status.busy = true)
    (hin : inInputRegion s a = true) : hostWriteStep a v s = .refused (.inputChangedWhileBusy a) := by
  rw [hostWriteStep, if_neg (Nat.not_le.mpr ha), if_pos (by rw [hb, hin]; rfl)]

/-- Any other host write to a byte of MEM stores it. -/
theorem hostWriteStep_stores {s : State} {a : Nat} (v : Byte) (ha : a < s.params.memSize)
    (h : s.status.busy = false ∨ inInputRegion s a = false) :
    hostWriteStep a v s = .next (s.setMem (memSet s.mem a v)) := by
  rw [hostWriteStep, if_neg (Nat.not_le.mpr ha), if_neg]
  rw [Bool.and_eq_true]
  rintro ⟨hb, hin⟩
  simp [hb, hin] at h

/-- Settles O57: the step is the write of the schedule's head, refused over a running decode's input and stored elsewhere. -/
theorem hostWritesStoreOrAreRefused : Obligations.HostWritesStoreOrAreRefused := by
  intro s a v rest hp hsched ha
  rw [step_scheduled hp hsched]
  refine ⟨hostWriteStep_input (s := s.setSchedule rest) v ha, fun h =>
    ⟨_, hostWriteStep_stores (s := s.setSchedule rest) v ha h, ?_, fun x hx => ?_, rfl⟩⟩
  · exact (memByte_memSet s.mem a a v).trans (if_pos rfl)
  · exact (memByte_memSet s.mem a x v).trans (if_neg hx)

end Sys2Proof.Machine
